-- ==== Sys2Proof/Word.lean ====
section
/-! DEFINITION. The words of the RLE block: bytes, command words and the pixel type
(spec/10_state.md R10 to R12, spec/30_encoding.md R61). -/

namespace Sys2Proof

/-- A byte of an LED command, a frame or a chunk (R8: an integer in [0,255]). -/
abbrev Byte := BitVec 8

/-- One of the three 32-bit words `W0`, `W1`, `W2` of a command (R61). -/
abbrev Word32 := BitVec 32

/-- The 96-bit command word `CW = W0 ++ W1 ++ W2` (R61). -/
abbrev CommandWord := BitVec 96

/-- A pixel `(r, g, b, br)`: four mathematical integers, in range or not (R10);
equality is by value (R11). -/
structure Pixel where
  r : Int
  g : Int
  b : Int
  br : Int
  deriving DecidableEq, Repr

/-- `BLACK_OFF`, the black zero-brightness pixel that `blank()` stores (R12). -/
def Pixel.blackOff : Pixel := ⟨0, 0, 0, 0⟩

end Sys2Proof
end

