-- ==== Sys2Proof/Config.lean ====
section
/-! DEFINITION. The configuration `CR0` to `CR12` (spec/10_state.md R20 to R31), the spec's open
model parameters (spec/00_scope.md R7), and the one free value, the advance of the wall clock
(spec/60_exceptions.md R196). What is checked of a configuration stands in Machine/Order.lean. -/

namespace Sys2Proof

/-- `MODE` (R23): `H` scale-via-header, `C` scale-via-color. -/
inductive Mode where
  | scaleViaHeader
  | scaleViaColor
  deriving DecidableEq, Repr

/-- `ROUND_TIE` (R7, R96): the tie rule of `round_nearest`, left open by the source. -/
inductive RoundTie where
  | halfEven
  | halfAway
  deriving DecidableEq, Repr

/-- `ROTATE_DIR` (R7, R114): the direction of a positive `rotate(k)`, left open by the source. -/
inductive RotateDir where
  | plusOne
  | minusOne
  deriving DecidableEq, Repr

/-- `WIRE` (R22, R75): the byte position of each colour, each a 2-bit field. Only bijections onto
{1,2,3} are legal; the others raise `ConfigurationError` at reset. -/
structure WireOrder where
  posR : BitVec 2
  posG : BitVec 2
  posB : BitVec 2
  deriving DecidableEq, Repr

/-- The configuration given at construction. Fields are the integers the rules speak of, legal or
not: what an illegal one does is R33 (Machine/Order.lean). -/
structure Cfg where
  /-- `CR0 = N`, the LED count (R20). -/
  n : Int
  /-- `CR1 = MAXB`, the global maximum brightness (R21). -/
  maxb : Int
  /-- `CR2 = WIRE` (R22). -/
  wire : WireOrder
  /-- `CR3 = MODE` (R23). -/
  mode : Mode
  /-- `CR4 = LORDER`, none or (first, last) pairs (R24). -/
  lorder : Option (List (Int × Int))
  /-- `CR5 = MAX_CHUNK` in bytes (R25). -/
  maxChunk : Int
  /-- `CR6 = TICK` in time units (R26). -/
  tick : Int
  /-- `CR7 = S`, steps per cycle (R27). -/
  steps : Int
  /-- `CR8 = CYCLE_LIMIT`, `none` = unbounded (R28). -/
  cycleLimit : Option Int
  /-- `CR9 = DURATION` (R29). -/
  duration : Option Int
  /-- `CR10 = INIT_HOOK` (R30). -/
  initHook : Option Nat
  /-- `CR11 = SHUTDOWN_HOOK` (R30). -/
  shutdownHook : Option Nat
  /-- `CR12 = CACHE_CAP` (R31). -/
  cacheCap : Int
  /-- The model parameter `ROUND_TIE` (R7). -/
  roundTie : RoundTie
  /-- The model parameter `ROTATE_DIR` (R7). -/
  rotateDir : RotateDir
  /-- The model parameter `RESET_PIXEL` (R7, R15). -/
  resetPixel : Pixel
  deriving DecidableEq, Repr

/-- The causes of `ConfigurationError` with what is recorded (R180): for the logical order, the
offending index set, held as its members in rising order (log 13). -/
inductive ConfigError where
  | ledCount
  | colorOrder
  | logicalOrder (offending : List Int)
  deriving DecidableEq, Repr

namespace Cfg

/-- The wire order `RGB` (R75). -/
def wireRGB : WireOrder := ⟨1, 2, 3⟩

/-- The configuration `State.reset` is constructed with. The values the spec gives a default for are
its defaults (R23, R24, R25, R29, R30, R31, R7); `n`, `maxb`, `wire`, `tick`, `steps` and
`cycleLimit` have none (D9) and are DESIGN CHOICE values of log 4. -/
def atReset : Cfg where
  n := 4
  maxb := 100
  wire := wireRGB
  mode := .scaleViaColor
  lorder := none
  maxChunk := 4096
  tick := 10
  steps := 3
  cycleLimit := some 2
  duration := none
  initHook := none
  shutdownHook := none
  cacheCap := 1024
  roundTie := .halfEven
  rotateDir := .plusOne
  resetPixel := Pixel.blackOff

end Cfg

/-- How far the wall clock moves at its `i`-th free read. A free value (log 7): the clock is an
external input and its values are draws (R196), so nothing constrains this function. -/
opaque Config.freeClockStep : Nat → Nat

end Sys2Proof
end

