-- ==== Sys2Proof/Syntax.lean ====
section
/-! DEFINITION. The instructions: one constructor per row of spec/opcode_table.json. -/

namespace Sys2Proof

/-- The ten commands (spec/30_encoding.md R63), the three wire rows the block emits (R70 to R72) and
the event `CANCEL` (spec/42_scheduler.md R164). Operands are assembled values (R64): indices and
handles naturals, pixel fields and counts integers. -/
inductive Instr where
  /-- `SET i, r, g, b, br` (R110). -/
  | set (i : Nat) (r g b br : Int)
  /-- `SETRGB i, c, br` with the bits `X = W1[31:24]` above the packed colour (R111). -/
  | setrgb (i : Nat) (x : BitVec 8) (c : BitVec 24) (br : Int)
  /-- `GET i` (R112). -/
  | get (i : Nat)
  /-- `BLANK` (R113). -/
  | blank
  /-- `ROTATE k` (R114). -/
  | rotate (k : Int)
  /-- `ORDER` (R115). -/
  | order
  /-- `RENDER` (R116). -/
  | render
  /-- `ENCODE r, g, b, br` (R90). -/
  | encode (r g b br : Int)
  /-- `REGCB h` (R141). -/
  | regcb (h : Nat)
  /-- `START` (R142). -/
  | start
  /-- `START_FRAME`, the wire row of R70. -/
  | startFrame
  /-- `LED_CMD`, the wire row of R71: `111hhhhh xxxxxxxx yyyyyyyy zzzzzzzz`. -/
  | ledCmd (h : BitVec 5) (x y z : Byte)
  /-- `END_PAD`, the wire row of R72. -/
  | endPad
  /-- `CANCEL`, the event of R164. -/
  | cancel
  deriving DecidableEq, Repr

end Sys2Proof
end

