-- ==== Sys2Proof/WellFormed.lean ====
section
/-! DEFINITION. Which instructions the command port can carry: every operand in the range of its
field (spec/30_encoding.md R64). -/

namespace Sys2Proof

/-- `v` fits a two's-complement field of `w + 1` bits (R64). -/
def fitsSigned (w : Nat) (v : Int) : Bool := decide (-(2 ^ w : Int) ≤ v) && decide (v < 2 ^ w)

/-- `v` fits an unsigned field of `w` bits (R64). -/
def fitsUnsigned (w v : Nat) : Bool := decide (v < 2 ^ w)

/-- Four pixel fields, each a `FIELD_W = 16`-bit two's-complement number (R64). -/
def fitsPixel (r g b br : Int) : Bool :=
  fitsSigned 15 r && fitsSigned 15 g && fitsSigned 15 b && fitsSigned 15 br

/-- The check on instructions: index in 24 bits, pixel fields in 16 bits signed, count in 32 bits
signed, handle in 16 bits (R64). Fields held as bit vectors fit by their type. -/
def Instr.wellFormed : Instr → Bool
  | .set i r g b br => fitsUnsigned 24 i && fitsPixel r g b br
  | .setrgb i _ _ br => fitsUnsigned 24 i && fitsSigned 15 br
  | .get i => fitsUnsigned 24 i
  | .blank => true
  | .rotate k => fitsSigned 31 k
  | .order => true
  | .render => true
  | .encode r g b br => fitsPixel r g b br
  | .regcb h => fitsUnsigned 16 h
  | .start => true
  | .startFrame => true
  | .ledCmd _ _ _ _ => true
  | .endPad => true
  | .cancel => true

end Sys2Proof
end

