-- ==== Sys2Proof/Decode.lean ====
section
/-! DEFINITION. Decoding and encoding: the 96-bit command word (spec/30_encoding.md R61 to R68), the
wire rows (R70 to R72), and their byte serialisation (spec/20_memory.md R42). -/

namespace Sys2Proof

/-- Why a word is no instruction. -/
inductive DecodeError where
  /-- The `OP` value is reserved (R67). -/
  | reservedOpcode
  /-- A field the format does not use is not zero (R66). -/
  | nonzeroUnusedField
  /-- A 4-byte or 1-byte pattern the block never emits (R70 to R72). -/
  | notAWireItem
  /-- A byte string of a length no encoding has: all commands are 96 bits (R61). -/
  | badLength
  deriving DecidableEq, Repr

/-- A word in the encoding space it belongs to. Commands arrive on the command port; wire words are
what the block puts on the LED chain; `CANCEL` has no word (R63, R70 to R72, R164). -/
inductive Encoding where
  | command (w : CommandWord)
  | wireQuad (w : Word32)
  | wireByte (w : Byte)
  | event
  deriving DecidableEq, Repr

/-! ### The fields of a command word (R61) -/

def opField (w : CommandWord) : BitVec 8 := w.extractLsb' 88 8
def idxField (w : CommandWord) : BitVec 24 := w.extractLsb' 64 24
def w1Field (w : CommandWord) : Word32 := w.extractLsb' 32 32
def w2Field (w : CommandWord) : Word32 := w.extractLsb' 0 32
def aField (w : CommandWord) : BitVec 16 := w.extractLsb' 48 16
def bField (w : CommandWord) : BitVec 16 := w.extractLsb' 32 16
def cField (w : CommandWord) : BitVec 16 := w.extractLsb' 16 16
def dField (w : CommandWord) : BitVec 16 := w.extractLsb' 0 16
/-- `X = W1[31:24]` of format `C` (R62). -/
def xField (w : CommandWord) : BitVec 8 := w.extractLsb' 56 8
/-- `RGB24 = W1[23:0]` of format `C` (R62). -/
def rgbField (w : CommandWord) : BitVec 24 := w.extractLsb' 32 24

/-- The instruction when the unused fields are zero, else the error of R66. -/
def whenUnusedZero (zero : Bool) (i : Instr) : Except DecodeError Instr :=
  if zero then .ok i else .error .nonzeroUnusedField

/-- No operand at all: every bit below `OP` is zero (format `Z`, R62). -/
def noOperand (w : CommandWord) : Bool :=
  decide (idxField w = 0) && decide (w1Field w = 0) && decide (w2Field w = 0)

/-- The decoder of the command port (R61 to R67): `OP` alone selects the command, unused fields must
be zero, `X` of `SETRGB` is not a decode check (R66). -/
def decodeCommand (w : CommandWord) : Except DecodeError Instr :=
  if opField w = 0x01 then
    .ok (.set (idxField w).toNat (aField w).toInt (bField w).toInt (cField w).toInt (dField w).toInt)
  else if opField w = 0x02 then
    whenUnusedZero (decide (cField w = 0))
      (.setrgb (idxField w).toNat (xField w) (rgbField w) (dField w).toInt)
  else if opField w = 0x03 then
    whenUnusedZero (decide (w1Field w = 0) && decide (w2Field w = 0)) (.get (idxField w).toNat)
  else if opField w = 0x04 then whenUnusedZero (noOperand w) .blank
  else if opField w = 0x05 then
    whenUnusedZero (decide (idxField w = 0) && decide (w2Field w = 0)) (.rotate (w1Field w).toInt)
  else if opField w = 0x06 then whenUnusedZero (noOperand w) .order
  else if opField w = 0x07 then whenUnusedZero (noOperand w) .render
  else if opField w = 0x08 then
    whenUnusedZero (decide (idxField w = 0))
      (.encode (aField w).toInt (bField w).toInt (cField w).toInt (dField w).toInt)
  else if opField w = 0x10 then
    whenUnusedZero (decide (idxField w = 0) && decide (aField w = 0) && decide (w2Field w = 0))
      (.regcb (bField w).toNat)
  else if opField w = 0x11 then whenUnusedZero (noOperand w) .start
  else .error .reservedOpcode

/-- The 4-byte wire rows, byte 0 leftmost: the start frame (R70) and the LED command (R71). In a frame
the two are told apart by place (R73); here by the fixed marker bits. -/
def decodeWireQuad (w : Word32) : Except DecodeError Instr :=
  if w = 0 then .ok .startFrame
  else if w.extractLsb' 29 3 = 0b111 then
    .ok (.ledCmd (w.extractLsb' 24 5) (w.extractLsb' 16 8) (w.extractLsb' 8 8) (w.extractLsb' 0 8))
  else .error .notAWireItem

/-- The 1-byte wire row: the end padding (R72). -/
def decodeWireByte (w : Byte) : Except DecodeError Instr :=
  if w = 0 then .ok .endPad else .error .notAWireItem

/-- Decoding in any of the encoding spaces. -/
def decode : Encoding → Except DecodeError Instr
  | .command w => decodeCommand w
  | .wireQuad w => decodeWireQuad w
  | .wireByte w => decodeWireByte w
  | .event => .ok .cancel

/-- Bytes read as one number, the first the most significant (R42: each word most significant byte
first, `W0` first). -/
def ofBytes (bs : List Byte) : Nat := bs.foldl (fun acc b => acc * 256 + b.toNat) 0

/-- Decoding a byte string by its length: 12 bytes are a command, 4 or 1 a wire row (R42, R61, R70 to
R72). Total: every other length is rejected by name. -/
def decodeBytes (bs : List Byte) : Except DecodeError Instr :=
  if bs.length = 12 then decodeCommand (BitVec.ofNat 96 (ofBytes bs))
  else if bs.length = 4 then decodeWireQuad (BitVec.ofNat 32 (ofBytes bs))
  else if bs.length = 1 then decodeWireByte (BitVec.ofNat 8 (ofBytes bs))
  else .error .badLength

/-! ### The encoder -/

/-- A command word from its fields (R61). -/
def packCommand (op : BitVec 8) (idx : BitVec 24) (w1 w2 : Word32) : CommandWord :=
  op ++ idx ++ w1 ++ w2

/-- Two 16-bit pixel fields of one word, the first in bits 31:16 (R61). -/
def packPair (hi lo : BitVec 16) : Word32 := hi ++ lo

/-- The 16-bit two's-complement field of an integer (R64). -/
def field16 (v : Int) : BitVec 16 := BitVec.ofInt 16 v

/-- The word of an instruction, from the tables of R61 to R63 and R70 to R72. Meant for well-formed
instructions: other operands are cut to their fields. -/
def encode : Instr → Encoding
  | .set i r g b br => .command (packCommand 0x01 (BitVec.ofNat 24 i)
      (packPair (field16 r) (field16 g)) (packPair (field16 b) (field16 br)))
  | .setrgb i x c br => .command (packCommand 0x02 (BitVec.ofNat 24 i) (x ++ c) (packPair 0 (field16 br)))
  | .get i => .command (packCommand 0x03 (BitVec.ofNat 24 i) 0 0)
  | .blank => .command (packCommand 0x04 0 0 0)
  | .rotate k => .command (packCommand 0x05 0 (BitVec.ofInt 32 k) 0)
  | .order => .command (packCommand 0x06 0 0 0)
  | .render => .command (packCommand 0x07 0 0 0)
  | .encode r g b br => .command (packCommand 0x08 0
      (packPair (field16 r) (field16 g)) (packPair (field16 b) (field16 br)))
  | .regcb h => .command (packCommand 0x10 0 (packPair 0 (BitVec.ofNat 16 h)) 0)
  | .start => .command (packCommand 0x11 0 0 0)
  | .startFrame => .wireQuad 0
  | .ledCmd h x y z => .wireQuad ((0b111 : BitVec 3) ++ h ++ x ++ y ++ z)
  | .endPad => .wireByte 0
  | .cancel => .event

/-- A number as `n` bytes, most significant first (R42). -/
def toBytes : Nat → Nat → List Byte
  | 0, _ => []
  | n + 1, v => BitVec.ofNat 8 (v / 256 ^ n) :: toBytes n v

/-- The byte serialisation of an encoding (R42). -/
def Encoding.bytes : Encoding → List Byte
  | .command w => toBytes 12 w.toNat
  | .wireQuad w => toBytes 4 w.toNat
  | .wireByte w => [w]
  | .event => []

/-! ### The opcode table (spec/opcode_table.json) -/

/-- One command row of the table: `CW & mask = match` selects it (R67). -/
structure Row where
  matchBits : CommandWord
  mask : CommandWord
  deriving DecidableEq, Repr

def Row.selects (row : Row) (w : CommandWord) : Bool := decide (w &&& row.mask = row.matchBits)

/-- The ten command rows, as the table gives their `match` and `mask`. -/
def commandRows : List Row :=
  [⟨0x010000000000000000000000, 0xFF0000000000000000000000⟩,
   ⟨0x020000000000000000000000, 0xFF00000000000000FFFF0000⟩,
   ⟨0x030000000000000000000000, 0xFF000000FFFFFFFFFFFFFFFF⟩,
   ⟨0x040000000000000000000000, 0xFFFFFFFFFFFFFFFFFFFFFFFF⟩,
   ⟨0x050000000000000000000000, 0xFFFFFFFF00000000FFFFFFFF⟩] ++
  [⟨0x060000000000000000000000, 0xFFFFFFFFFFFFFFFFFFFFFFFF⟩,
   ⟨0x070000000000000000000000, 0xFFFFFFFFFFFFFFFFFFFFFFFF⟩,
   ⟨0x080000000000000000000000, 0xFFFFFFFF0000000000000000⟩,
   ⟨0x100000000000000000000000, 0xFFFFFFFFFFFF0000FFFFFFFF⟩,
   ⟨0x110000000000000000000000, 0xFFFFFFFFFFFFFFFFFFFFFFFF⟩]

/-- The encoding a table word of `nbits` bits stands for, numbered as the table's `match` and `mask`
number it: bit 0 is the least significant bit of `CW` (log 11). A row with no bits is the event. -/
def tableEncoding (nbits w : Nat) : Encoding :=
  if nbits = 0 then .event
  else if nbits = 8 then .wireByte (BitVec.ofNat 8 w)
  else if nbits = 32 then .wireQuad (BitVec.ofNat 32 w)
  else .command (BitVec.ofNat 96 w)

/-- The instruction the decoder reads from a table word. -/
def decodeTableWord (nbits w : Nat) : Option Instr :=
  match decode (tableEncoding nbits w) with
  | .ok i => some i
  | .error _ => none

end Sys2Proof
end

