-- ==== Sys2Proof/Machine/Encoder.lean ====
section
/-! DEFINITION. The command encoder: exact arithmetic (spec/00_scope.md R8), `encode_pure`
(spec/40_encoder.md R91 to R98), the bytes of the wire rows (spec/30_encoding.md R70 to R72), frame
assembly and chunking (spec/41_buffer.md R117, R118), and the encoding cache (spec/10_state.md R38). -/

namespace Sys2Proof.Machine

/-! ### Arithmetic (R8, R96) -/

/-- `clamp(v, lo, hi)` (R8). -/
def clamp (v lo hi : Int) : Int := if v < lo then lo else if hi < v then hi else v

/-- `ceil_div(a, d)` for `d > 0`: minus the floor of `-a / d` (R8). -/
def ceilDiv (a d : Int) : Int := -((-a) / d)

/-- `ceil_div` of counts, in the naturals (R8). -/
def ceilDivNat (a d : Nat) : Nat := (ceilDiv (a : Int) (d : Int)).toNat

/-- `round_nearest(num / den)` for `den > 0`: the integer nearest, ties by `ROUND_TIE` (R8, R96). -/
def roundNearest (tie : RoundTie) (num den : Int) : Int :=
  let low := num / den
  let rest := num % den
  if 2 * rest < den then low
  else if den < 2 * rest then low + 1
  else match tie with
    | .halfEven => if low % 2 = 0 then low else low + 1
    | .halfAway => if 0 ≤ num then low + 1 else low

/-! ### One LED command (R91 to R98) -/

/-- The 5-bit brightness field: in mode `H` the clamped ceiling (R92), in mode `C` always 31 (R95). -/
def headerField (c : Cfg) (p : Pixel) : Int :=
  match c.mode with
  | .scaleViaHeader => clamp (ceilDiv (31 * p.br * c.maxb) 10000) 0 31
  | .scaleViaColor => 31

/-- One colour byte: in mode `H` the clamped field (R93), in mode `C` the raw field scaled, rounded to
nearest and then clamped (R94). -/
def colourValue (c : Cfg) (br v : Int) : Int :=
  match c.mode with
  | .scaleViaHeader => clamp v 0 255
  | .scaleViaColor => clamp (roundNearest c.roundTie (v * br * c.maxb) 10000) 0 255

/-- `out[POS_R] <- cr; out[POS_G] <- cg; out[POS_B] <- cb` on bytes that start as 0, read at byte `k`
(R91, R98): the last assignment to a position stands. -/
def colourAt (w : WireOrder) (k : BitVec 2) (cr cg cb : Int) : Int :=
  if w.posB = k then cb else if w.posG = k then cg else if w.posR = k then cr else 0

/-- The fields of an LED command: the row `LED_CMD` of the opcode table (R71). -/
structure LedFields where
  hdr : BitVec 5
  x : Byte
  y : Byte
  z : Byte
  deriving DecidableEq, Repr

/-- The fields `encode_pure` computes for a pixel (R91). -/
def ledFields (c : Cfg) (p : Pixel) : LedFields :=
  let cr := colourValue c p.br p.r
  let cg := colourValue c p.br p.g
  let cb := colourValue c p.br p.b
  { hdr := BitVec.ofInt 5 (headerField c p)
    x := BitVec.ofInt 8 (colourAt c.wire 1 cr cg cb)
    y := BitVec.ofInt 8 (colourAt c.wire 2 cr cg cb)
    z := BitVec.ofInt 8 (colourAt c.wire 3 cr cg cb) }

/-- Byte 0 of an LED command: `0b111` followed by the 5-bit field (R97). -/
def headerByte (h : BitVec 5) : Byte := (0b111 : BitVec 3) ++ h

/-- The four bytes of an LED command in the order sent (R41, R71). -/
def ledBytes (h : BitVec 5) (x y z : Byte) : List Byte := [headerByte h, x, y, z]

/-- `encode_pure(p)` (R91). -/
def encodePure (c : Cfg) (p : Pixel) : List Byte :=
  let f := ledFields c p
  ledBytes f.hdr f.x f.y f.z

/-! ### Frames (R70 to R73, R117) -/

/-- The start frame (R70). -/
def startFrameBytes : List Byte := [0, 0, 0, 0]

/-- One end padding item (R72). -/
def endPadBytes : List Byte := [0]

/-- The number of end padding items, `ceil_div(N, 16)` (R72). -/
def padCount (n : Nat) : Nat := ceilDivNat n 16

/-- The whole end padding for `n` LEDs (R72). -/
def padding (n : Nat) : List Byte := (List.replicate (padCount n) endPadBytes).flatten

/-- A frame from its LED commands, in logical order (R73, R117). -/
def assembleFrame (leds : List (List Byte)) : List Byte :=
  startFrameBytes ++ leds.flatten ++ padding leds.length

/-- The length of a frame of `n` LEDs: `4 + 4*N + ceil_div(N, 16)` (R47). -/
def frameLength (n : Nat) : Nat := 4 + 4 * n + padCount n

/-- `chunks(F)` with at most `m` bytes each: `F[t*m .. min((t+1)*m, L))` for each `t` (R118). -/
def chunks (m : Nat) (f : List Byte) : List (List Byte) :=
  (List.range (ceilDivNat f.length m)).map fun t => (f.drop (t * m)).take m

/-! ### The encoding cache (R38, R100) -/

/-- `CACHE`: pixels with their stored bytes, the most recently used first. -/
abbrev Cache := List (Pixel × List Byte)

/-- Uses an entry: it becomes the most recent one, and the least recently used ones beyond the
capacity are evicted (R38). -/
def Cache.use (cap : Nat) (p : Pixel) (bytes : List Byte) (cache : Cache) : Cache :=
  ((p, bytes) :: cache.filter fun e => decide (e.1 ≠ p)).take cap

/-- The stored bytes of a pixel, if any. -/
def Cache.find (cache : Cache) (p : Pixel) : Option (List Byte) :=
  (cache.find? fun e => decide (e.1 = p)).map Prod.snd

/-- Encoding through the cache: a stored result is returned in place of recomputing (R100). -/
def encodeCached (c : Cfg) (cap : Nat) (p : Pixel) (cache : Cache) : List Byte × Cache :=
  let bytes := (cache.find p).getD (encodePure c p)
  (bytes, cache.use cap p bytes)

/-- Encoding a list of pixels in order, the cache passed along (R116). -/
def encodeAll (c : Cfg) (cap : Nat) : List Pixel → Cache → List (List Byte) × Cache
  | [], cache => ([], cache)
  | p :: ps, cache =>
    let head := encodeCached c cap p cache
    let tail := encodeAll c cap ps head.2
    (head.1 :: tail.1, tail.2)

end Sys2Proof.Machine
end

