-- ==== Sys2Proof/Machine/Order.lean ====
section
/-! DEFINITION. What construction makes of a configuration: its values as counts, the expansion and
validation of the logical order (spec/20_memory.md R48 to R50), the wire order check
(spec/10_state.md R22), the configuration encodings (spec/30_encoding.md R75, R76), and which
configurations raise `ConfigurationError` and which the model refuses (R33). -/

namespace Sys2Proof.Machine

/-! ### The configuration registers as counts -/

/-- `N` as a count (R20). -/
def leds (c : Cfg) : Nat := c.n.toNat
/-- `MAX_CHUNK` as a count of bytes (R25). -/
def chunkMax (c : Cfg) : Nat := c.maxChunk.toNat
/-- `TICK` as a count of time units (R26). -/
def tickUnits (c : Cfg) : Nat := c.tick.toNat
/-- `S` as a count (R27). -/
def stepsPerCycle (c : Cfg) : Nat := c.steps.toNat
/-- `CYCLE_LIMIT` as a count, `none` = unbounded (R28). -/
def cycleMax (c : Cfg) : Option Nat := c.cycleLimit.map Int.toNat
/-- `DURATION` as a count of time units (R29). -/
def durationUnits (c : Cfg) : Option Nat := c.duration.map Int.toNat
/-- `CACHE_CAP` as a count (R31). -/
def cacheCapacity (c : Cfg) : Nat := c.cacheCap.toNat
/-- `ROTATE_DIR` as the factor `d` (R114). -/
def rotateFactor (c : Cfg) : Int :=
  match c.rotateDir with
  | .plusOne => 1
  | .minusOne => -1

/-! ### Configuration encodings (R75, R76) -/

/-- `WIRE` from its packed 6-bit value `POS_R << 4 | POS_G << 2 | POS_B` (R75). -/
def wireOfBits (v : BitVec 6) : WireOrder :=
  ⟨v.extractLsb' 4 2, v.extractLsb' 2 2, v.extractLsb' 0 2⟩

/-- The packed 6-bit value of `WIRE` (R75). -/
def wireBits (w : WireOrder) : BitVec 6 := w.posR ++ w.posG ++ w.posB

/-- `MODE` from its bit: 0 = `H`, 1 = `C` (R76). -/
def modeOfBit (b : Bool) : Mode := if b then .scaleViaColor else .scaleViaHeader

/-- `WIRE` is a bijection onto {1,2,3} (R22). -/
def wireBijective (w : WireOrder) : Bool :=
  decide (w.posR ≠ 0) && decide (w.posG ≠ 0) && decide (w.posB ≠ 0)
    && decide (w.posR ≠ w.posG) && decide (w.posR ≠ w.posB) && decide (w.posG ≠ w.posB)

/-! ### The logical order (R48 to R50) -/

/-- The expansion of one pair: ascending when `first ≤ last`, else descending (R48). -/
def expandRange (first last : Int) : List Int :=
  if first ≤ last then (List.range (last - first + 1).toNat).map fun d => first + (d : Int)
  else (List.range (first - last + 1).toNat).map fun d => first - (d : Int)

/-- `expand(LORDER)` (R48). -/
def expand (ranges : List (Int × Int)) : List Int := ranges.flatMap fun r => expandRange r.1 r.2

/-- Inserts into a strictly rising list, keeping it so. -/
def insertRising (x : Int) : List Int → List Int
  | [] => [x]
  | y :: ys => if x < y then x :: y :: ys else if x = y then y :: ys else y :: insertRising x ys

/-- The members of a list as a strictly rising list: the form a set is recorded in (log 13). -/
def risingSet (xs : List Int) : List Int := xs.foldr insertRising []

/-- The indices of [0,N) that do not occur (R49). -/
def missing (e : List Int) (n : Nat) : List Int :=
  ((List.range n).map fun (i : Nat) => (i : Int)).filter fun x => decide (x ∉ e)

/-- The indices that occur more than once or lie outside [0,N) (R49). -/
def duplicatedOrOutside (e : List Int) (n : Nat) : List Int :=
  e.filter fun x => decide (1 < e.count x) || decide (x < 0) || decide ((n : Int) ≤ x)

/-- `offending(E, N)`: missing, duplicated and outside indices (R49). -/
def offending (e : List Int) (n : Nat) : List Int := risingSet (missing e n ++ duplicatedOrOutside e n)

/-- The check of the logical order at reset (R49, R211). -/
def orderError (c : Cfg) : Option ConfigError :=
  match c.lorder with
  | none => none
  | some ranges =>
    match offending (expand ranges) (leds c) with
    | [] => none
    | x :: xs => some (.logicalOrder (x :: xs))

/-- The configuration checks of reset, in the order `N`, `WIRE`, `LORDER`, the first failure reported
(R191, R211). -/
def configError (c : Cfg) : Option ConfigError :=
  if c.n ≤ 0 then some .ledCount
  else if wireBijective c.wire = false then some .colorOrder
  else orderError c

/-- `ORD` as reset computes it: the expansion, or the identity (R50). -/
def orderTable (c : Cfg) : List Nat :=
  match c.lorder with
  | none => List.range (leds c)
  | some ranges => (expand ranges).map Int.toNat

/-- The illegal configurations that have no behaviour in the source and that the model refuses (R33,
D18). `IDX_W = 24` (D2). -/
def configRefused (c : Cfg) : Bool :=
  decide (c.maxb < 0) || decide (100 < c.maxb) || decide (c.steps ≤ 0)
    || c.cycleLimit.any (fun l => decide (l ≤ 0)) || decide (c.tick < 0)
    || c.duration.any (fun d => decide (d < 0)) || decide (c.maxChunk ≤ 0)
    || decide (c.cacheCap < 0) || decide (2 ^ 24 < c.n)

end Sys2Proof.Machine
end

