-- ==== Sys2Proof/Machine/State.lean ====
section
/-! DEFINITION. The state of the RLE block as plain data (spec/10_state.md), the events and inputs of
its interface (spec/20_memory.md R52, spec/30_encoding.md R69, R82), why a step can stop, and reset
(spec/70_reset_and_hazards.md R211). -/

namespace Sys2Proof.Machine

/-- `BUF[0..N-1]`, one pixel per physical index (R14). -/
abbrev Memory := List Pixel

/-- The form a buffer of `n` LEDs has: exactly one pixel per slot (R14), so that equal buffers are
equal lists. -/
def Memory.wf (n : Nat) (m : Memory) : Bool := decide (m.length = n)

/-- `SCHED` (R34). -/
inductive Sched where
  | idle
  | running
  | draining
  | stopped
  deriving DecidableEq, Repr

/-- `PHASE` (R34): the first nine in `Running`, the last three in `Draining`. -/
inductive Phase where
  | pInit | pFirst | pTop | pCb | pPaint | pPace | pAdv | pHold | pCheck
  | pShut | pClear | pClose
  deriving DecidableEq, Repr

/-- `EXIT_REASON` (R19); `noReason` is the spec's `none`. -/
inductive ExitReason where
  | noReason
  | cycleLimit
  | deadline
  | interrupted
  | callbackFault
  deriving DecidableEq, Repr

/-- The response statuses (R180). -/
inductive Status where
  | ok
  | configurationError
  | indexError
  | valueError
  | illegalCommand
  | illegalState
  | interrupted
  | callbackFault
  deriving DecidableEq, Repr

/-- What a response carries: the answers of R69 and the `info` of R180. -/
inductive Payload where
  | empty
  | pixel (p : Pixel)
  | order (ord : List Nat)
  | chunks (cs : List (List Byte))
  | led (bytes : List Byte)
  | exit (r : ExitReason)
  | config (e : ConfigError)
  | index (i : Nat)
  | word1 (w : Word32)
  | command (w : CommandWord)
  | sched (s : Sched)
  deriving DecidableEq, Repr

/-- Who issued a command (R140, R186): the host, or the hook or callback being invoked. -/
inductive Issuer where
  | host
  | agent
  deriving DecidableEq, Repr

/-- The kind and arguments of an invocation (R82). -/
inductive CallArgs where
  | init (n : Nat)
  | update (n s step cycle : Nat)
  | shutdown (n : Nat)
  deriving DecidableEq, Repr

/-- An invocation in progress: the handle and what it was given (R82, R152, R154). -/
structure Invocation where
  handle : Nat
  args : CallArgs
  deriving DecidableEq, Repr

/-- The result of a `Ret` (R82): `done` or `fault` from a hook, `false`, `true` or `fault` from a
callback. -/
inductive Ret where
  | done
  | bool (repaint : Bool)
  | fault
  deriving DecidableEq, Repr

/-- The events of the output trace (R52). A response says to whom it goes (R69, log 22). -/
inductive Event where
  | txWrite (chunk : List Byte)
  | txClose
  | resp (dest : Issuer) (status : Status) (payload : Payload)
  | call (h : Nat) (args : CallArgs)
  | ret (h : Nat) (result : Ret)
  deriving DecidableEq, Repr

/-- What the environment does to the block (D1, R140), in the order it happens. The list of these in
State is the environment's whole behaviour, so a statement for every state holds for every host,
callback, hook and every arrival of `CANCEL` (log 1, log 27). -/
inductive Input where
  /-- The host presents a command word. -/
  | host (w : CommandWord)
  /-- The invoked hook or callback issues a command word (R152, R153). -/
  | agent (w : CommandWord)
  /-- The invoked hook or callback returns (R82, R152). -/
  | ret (r : Ret)
  /-- The cancellation event (R164). -/
  | cancel
  /-- Nothing arrives before the scheduler's next move (log 1). -/
  | pass
  /-- Reset with the construction parameters (R210). -/
  | reset (c : Cfg)
  /-- A wire word given to the frame assembler by itself. Not an input the spec gives the outside
  world: it is how a wire row of the opcode table is run alone (log 10). -/
  | wire (e : Encoding)
  deriving DecidableEq, Repr

/-- The state of the block. Each field's rule stands beside it; INVENTORY.md lists them with their
reset values. -/
structure State where
  /-- `CR0` to `CR12` and the open model parameters (R20 to R31, R7); written by reset only (R32). -/
  cfg : Cfg
  /-- `BUF` (R14). -/
  buf : Memory
  /-- `ORD` (R16). -/
  ord : List Nat
  /-- `CBLIST` (R17). -/
  cblist : List Nat
  /-- `CACHE` (R38). -/
  cache : Cache
  /-- `SCHED` (R34). -/
  sched : Sched
  /-- `PHASE` (R34). -/
  phase : Phase
  /-- `STEP` (R35). -/
  step : Nat
  /-- `CYCLE` (R35). -/
  cycle : Nat
  /-- `K`, the tick boundaries scheduled (R36). -/
  k : Nat
  /-- `CBI`, the next callback of the tick (R37). -/
  cbi : Nat
  /-- `T0`, the clock at the acceptance of `START` (R36). -/
  t0 : Nat
  /-- `DEADLINE` (R36). -/
  deadline : Option Nat
  /-- `REPAINT` (R19). -/
  repaint : Bool
  /-- `CANCEL_PENDING` (R19, R190). -/
  cancelPending : Bool
  /-- `CFG_FAULT` with the cause and info reset found (R19, R182, R211); `none` is `CFG_FAULT = 0`. -/
  configFault : Option ConfigError
  /-- `CLOSED` (R19). -/
  closed : Bool
  /-- `EXIT_REASON` (R19). -/
  exitReason : ExitReason
  /-- "The `EXIT_REASON` recorded first" of the run (R165, R180): the one of the drain's entry, which a later
  fault of the shutdown hook does not replace (log 15). -/
  firstReason : ExitReason
  /-- The invocation whose `Ret` the scheduler waits for (R152, R154). -/
  calling : Option Invocation
  /-- The boundary a pacing wait in progress waits for (R148, R202). -/
  wake : Option Nat
  /-- The model's latch for the issuer of the command being executed (R69, R186; log 22). -/
  issuer : Issuer
  /-- The model's assembler for wire rows run alone; no command reads it (R70 to R73; log 10). -/
  asm : List Byte
  /-- The last reading of the wall clock (R196; log 7). -/
  clock : Nat
  /-- The clock advances of the coming reads, then free ones (R196; log 7). -/
  clockIn : List Nat
  /-- How many reads took a free advance: the counter of the free value (log 7). -/
  draws : Nat
  /-- The inputs still to arrive, the next first (log 1). -/
  inbox : List Input
  /-- The output trace, oldest event first (R52). -/
  trace : List Event
  deriving DecidableEq, Repr

/-- Why the machine stops with a fault. Neither is a behaviour of the block: both are reached only from
states that break the invariant of Safety.lean, and both are SAFE (log 19). -/
inductive Fault where
  /-- Raised by `GET`, `RENDER` and the frames of `P_FIRST`, `P_PAINT` and `P_CLEAR` when a slot to be
  read does not exist in `BUF`: the buffer is not of length N, or `ORD` leaves [0,N). Safe. -/
  | slotOutsideBuffer
  /-- Raised by the scheduler's move when `PHASE` is not one of the phases of its `SCHED` (R34). Safe. -/
  | phaseOutsideState
  deriving DecidableEq, Repr

/-- Why the model gives no meaning to a step. -/
inductive Refusal where
  /-- An instruction without a meaning, by its mnemonic. Safe. -/
  | notModelled (mnemonic : String)
  /-- Raised by a reset whose configuration has no behaviour in the source (R33, D18; log 12). Safe. -/
  | configurationWithoutMeaning
  /-- Raised by a command or a return of an external function that is not being invoked (U20, R217;
  log 3). Safe. -/
  | agentNotInvoked
  /-- Raised by a `Ret` whose result the invoked function's kind does not have (R82; log 16). Safe. -/
  | resultOfWrongKind
  /-- Raised by a word given to the frame assembler that is no wire item (R70 to R72; log 10). Safe. -/
  | notAWireItem
  deriving DecidableEq, Repr

/-- What a step or a meaning answers. -/
abbrev Result := Host.Outcome State Fault Refusal

/-- `reset(cfg)` (R211) with an empty environment: no input, no clock reading yet, nothing emitted. The
values of `phase`, `t0`, `deadline`, and of `buf` and `ord` in configuration fault, have no meaning in
the spec (R34, R36, R213) and are DESIGN CHOICE values of log 6. -/
def State.construct (c : Cfg) : State where
  cfg := c
  buf := if (configError c).isNone then List.replicate (leds c) c.resetPixel else []
  ord := if (configError c).isNone then orderTable c else []
  cblist := []
  cache := []
  sched := .idle
  phase := .pInit
  step := 0
  cycle := 0
  k := 0
  cbi := 0
  t0 := 0
  deadline := none
  repaint := false
  cancelPending := false
  configFault := configError c
  closed := false
  exitReason := .noReason
  firstReason := .noReason
  calling := none
  wake := none
  issuer := .host
  asm := []
  clock := 0
  clockIn := []
  draws := 0
  inbox := []
  trace := []

/-- The machine right after reset, constructed with the configuration of log 4. -/
def State.reset : State := State.construct Cfg.atReset

end Sys2Proof.Machine
end

