-- ==== Sys2Proof/Machine/Flags.lean ====
section
/-! DEFINITION. The flags and status computations (spec/10_state.md R19), the error codes
(spec/60_exceptions.md R180) and who may issue what (R186). -/

namespace Sys2Proof.Machine

/-- The 8-bit code of a status (R180). -/
def statusCode : Status → BitVec 8
  | .ok => 0x00
  | .configurationError => 0x01
  | .indexError => 0x02
  | .valueError => 0x03
  | .illegalCommand => 0x04
  | .illegalState => 0x05
  | .interrupted => 0x06
  | .callbackFault => 0x07

/-- The number of a configuration error's cause (R180). -/
def causeNumber : ConfigError → Nat
  | .ledCount => 1
  | .colorOrder => 2
  | .logicalOrder _ => 3

/-- `REPAINT or res` (R146, R147). -/
def orRepaint (flag res : Bool) : Bool := flag || res

/-- The cancellation check records `Interrupted` unless a reason stands already (R164). -/
def interruptReason (r : ExitReason) : ExitReason :=
  match r with
  | .noReason => .interrupted
  | .cycleLimit => .cycleLimit
  | .deadline => .deadline
  | .interrupted => .interrupted
  | .callbackFault => .callbackFault

/-- `CANCEL` is latched only while a run is in progress (R164, R190). -/
def runInProgress (s : Sched) : Bool :=
  match s with
  | .idle => false
  | .running => true
  | .draining => true
  | .stopped => false

/-- Status and payload of the response to `START` at the end of the run (R160, R165): after a `CANCEL` the
reason recorded first (R165, R180), else by the reason `r` that stands. -/
def endOfRun (cancelled : Bool) (first r : ExitReason) : Status × Payload :=
  if cancelled then (.interrupted, .exit first)
  else match r with
    | .callbackFault => (.callbackFault, .empty)
    | .noReason => (.ok, .exit .noReason)
    | .cycleLimit => (.ok, .exit .cycleLimit)
    | .deadline => (.ok, .exit .deadline)
    | .interrupted => (.ok, .exit .interrupted)

/-- The two rows of R186: a buffer command or `ENCODE`, `ORDER`, `RENDER`; and the set-up commands
`REGCB` and `START`. -/
inductive CommandClass where
  | buffer
  | setup
  deriving DecidableEq, Repr

/-- Whether a command of the class may be issued now by the present issuer (R186). -/
def mayIssue (cls : CommandClass) (s : State) : Bool :=
  match cls, s.issuer with
  | .setup, .host => decide (s.sched = .idle)
  | .setup, .agent => false
  | .buffer, .host => !runInProgress s.sched
  | .buffer, .agent => runInProgress s.sched && s.calling.isSome

/-- Whether a phase belongs to a scheduler state (R34). -/
def phaseOf (p : Phase) : Sched :=
  match p with
  | .pInit => .running
  | .pFirst => .running
  | .pTop => .running
  | .pCb => .running
  | .pPaint => .running
  | .pPace => .running
  | .pAdv => .running
  | .pHold => .running
  | .pCheck => .running
  | .pShut => .draining
  | .pClear => .draining
  | .pClose => .draining

end Sys2Proof.Machine
end

