-- ==== Sys2Proof/Machine/Operands.lean ====
section
/-! DEFINITION. Operand assembly beyond the decoder: the packed colour of `SETRGB`
(spec/30_encoding.md R65, spec/20_memory.md R42). -/

namespace Sys2Proof.Machine

/-- `r = RGB24[23:16]`, zero-extended (R65). -/
def packedRed (c : BitVec 24) : Int := ((c.extractLsb' 16 8).toNat : Int)

/-- `g = RGB24[15:8]`, zero-extended (R65). -/
def packedGreen (c : BitVec 24) : Int := ((c.extractLsb' 8 8).toNat : Int)

/-- `b = RGB24[7:0]`, zero-extended (R65). -/
def packedBlue (c : BitVec 24) : Int := ((c.extractLsb' 0 8).toNat : Int)

/-- The pixel `SETRGB` stores: the decomposed colour and `br` as given (R111). -/
def packedPixel (c : BitVec 24) (br : Int) : Pixel :=
  ⟨packedRed c, packedGreen c, packedBlue c, br⟩

/-- The packed colour does not fit 24 bits (R65, R184). -/
def packedMalformed (x : BitVec 8) : Bool := decide (x ≠ 0)

/-- The word `W1` that `ValueError` records (R180). -/
def packedWord (x : BitVec 8) (c : BitVec 24) : Word32 := x ++ c

end Sys2Proof.Machine
end

