-- ==== Sys2Proof/Machine/Ops.lean ====
section
/-! DEFINITION. The shared operations: slots of the buffer, the output trace, the clock, ending a
command with an error (spec/60_exceptions.md R181), the checks before a command (R191), frames
(spec/41_buffer.md R117, spec/42_scheduler.md R161), and entering the drain (R157, R193). -/

namespace Sys2Proof.Machine

/-! ### The buffer (R45) -/

/-- `BUF[i]`; a slot that does not exist has no value. -/
def Memory.read (m : Memory) (i : Nat) : Option Pixel := m[i]?

/-- `BUF[i] <- p`. -/
def Memory.write (m : Memory) (i : Nat) (p : Pixel) : Memory := m.set i p

/-- Every slot `BLACK_OFF` (R113). -/
def Memory.blank (m : Memory) : Memory := List.replicate m.length Pixel.blackOff

/-- The shift of `ROTATE k`: `(d * k) mod N` (R114). -/
def rotateShift (c : Cfg) (k : Int) : Nat := ((rotateFactor c * k) % (leds c : Int)).toNat

/-- `BUF[(i + s) mod N] <- OLD[i]` for `0 ≤ s < N`: the last `s` slots come round to the front (R114). -/
def Memory.rotate (m : Memory) (s : Nat) : Memory := m.drop (m.length - s) ++ m.take (m.length - s)

/-- The pixels at a list of physical indices, in that order. -/
def Memory.readAll (m : Memory) : List Nat → Option (List Pixel)
  | [] => some []
  | i :: is =>
    match m.read i, Memory.readAll m is with
    | some p, some ps => some (p :: ps)
    | _, _ => none

/-! ### The output trace (R52) -/

/-- `emit e`. -/
def emit (e : Event) (s : State) : State := { s with trace := s.trace ++ [e] }

/-- `emit Resp(status, payload)` to the issuer of the present command (R69). -/
def respond (st : Status) (p : Payload) (s : State) : State := emit (.resp s.issuer st p) s

/-! ### Errors (R180, R181) -/

/-- The errors a command can end with at once, each with its `info` (R180). -/
inductive CommandError where
  | configuration (e : ConfigError)
  | index (i : Nat)
  | value (w : Word32)
  | illegalCommand (w : CommandWord)
  | illegalState (s : Sched)
  deriving DecidableEq, Repr

/-- The status an error answers with (R180). -/
def CommandError.status : CommandError → Status
  | .configuration _ => .configurationError
  | .index _ => .indexError
  | .value _ => .valueError
  | .illegalCommand _ => .illegalCommand
  | .illegalState _ => .illegalState

/-- The `info` an error records (R180). -/
def CommandError.info : CommandError → Payload
  | .configuration e => .config e
  | .index i => .index i
  | .value w => .word1 w
  | .illegalCommand w => .command w
  | .illegalState s => .sched s

/-- `raise`: the command ends at once with its response and has changed nothing else (R181). -/
def raise (e : CommandError) (s : State) : Result := .next (respond e.status e.info s)

/-- The checks common to every command, in the order of R191 steps 1 and 3: configuration fault, then
whether the present issuer may issue it in the present state. -/
def guarded (cls : CommandClass) (s : State) (body : Result) : Result :=
  match s.configFault with
  | some e => raise (.configuration e) s
  | none => if mayIssue cls s then body else raise (.illegalState s.sched) s

/-! ### The clock (R196, R197) -/

/-- How far the clock moves at the next read: the environment's next advance, else a free one. -/
def clockAdvance (s : State) : Nat := s.clockIn.headD (Config.freeClockStep s.draws)

/-- A read of the wall clock. The reading is the new `clock`; successive reads never decrease (R196). -/
def readClock (s : State) : State :=
  { s with
    clock := s.clock + clockAdvance s
    clockIn := s.clockIn.tail
    draws := s.draws + (if s.clockIn = [] then 1 else 0) }

/-- The end of a wait for boundary `t`: the clock is at or past it, by any amount (R197). -/
def passBoundary (t : Nat) (s : State) : State := readClock { s with clock := max s.clock t }

/-! ### Frames (R117, R161) -/

/-- The LED commands of the present frame, in logical order, and the cache after encoding them;
`none` if `ORD` names a slot that does not exist. -/
def frameLeds (s : State) : Option (List (List Byte) × Cache) :=
  (Memory.readAll s.buf s.ord).map fun ps => encodeAll s.cfg (cacheCapacity s.cfg) ps s.cache

/-- `frame()` cut into chunks, with the state after encoding it (R117, R118). -/
def renderChunks (s : State) : Option (List (List Byte) × State) :=
  (frameLeds s).map fun f => (chunks (chunkMax s.cfg) (assembleFrame f.1), { s with cache := f.2 })

/-- `emit_frame()`: every chunk of one frame, in order, in one step (R161). -/
def emitFrame (s : State) : Option State :=
  (renderChunks s).map fun r => { r.2 with trace := r.2.trace ++ r.1.map Event.txWrite }

/-- Goes on with the state after a frame, or stops where a slot does not exist. -/
def afterFrame (r : Option State) (go : State → State) : Result :=
  match r with
  | some t => .next (go t)
  | none => .fault .slotOutsideBuffer

/-! ### The drain (R157, R193) -/

/-- Entry to the drain: `SCHED` and `PHASE` move, nothing else is saved or changed (R157, R193). There
is no return from it (R194). -/
def enterDrain (s : State) : State := { s with sched := .draining, phase := .pShut }

/-- Records a stop condition's reason, the first of the run (R165), and enters the drain (R193). -/
def drainFor (r : ExitReason) (s : State) : State :=
  enterDrain { s with exitReason := r, firstReason := r }

/-- The cancellation check when it fires: the reason, unless one stands, then the drain (R164). -/
def drainCancelled (s : State) : State := drainFor (interruptReason s.exitReason) s

/-! ### Invocations (R82, R152, R154) -/

/-- `invoke h(args)`: the `Call` event; the scheduler then waits for the `Ret`. -/
def invoke (h : Nat) (args : CallArgs) (s : State) : State :=
  { emit (.call h args) s with calling := some ⟨h, args⟩ }

/-- The `Ret` event: the invocation is over. -/
def endCall (h : Nat) (r : Ret) (s : State) : State := { emit (.ret h r) s with calling := none }

end Sys2Proof.Machine
end

