-- ==== Sys2Proof/Machine/Buffer.lean ====
section
/-! DEFINITION. The meanings of the strip buffer's commands and of `ENCODE` (spec/41_buffer.md R110 to
R116, spec/40_encoder.md R90). -/

namespace Sys2Proof.Machine

/-- The store shared by `SET` and `SETRGB`: `IndexError` outside [0,N), else one slot replaced (R110). -/
def storePixel (i : Nat) (p : Pixel) (s : State) : Result :=
  if i < leds s.cfg then .next (respond .ok .empty { s with buf := s.buf.write i p })
  else raise (.index i) s

/-- `SET i, r, g, b, br` (R110). -/
def execSet (i : Nat) (r g b br : Int) (s : State) : Result :=
  guarded .buffer s (storePixel i ⟨r, g, b, br⟩ s)

/-- `SETRGB i, c, br` (R111): the colour is examined before the index (R191). -/
def execSetrgb (i : Nat) (x : BitVec 8) (c : BitVec 24) (br : Int) (s : State) : Result :=
  guarded .buffer s
    (if packedMalformed x then raise (.value (packedWord x c)) s
     else storePixel i (packedPixel c br) s)

/-- `GET i` (R112). -/
def execGet (i : Nat) (s : State) : Result :=
  guarded .buffer s
    (if i < leds s.cfg then
      match s.buf.read i with
      | some p => .next (respond .ok (.pixel p) s)
      | none => .fault .slotOutsideBuffer
     else raise (.index i) s)

/-- `BLANK` (R113). -/
def execBlank (s : State) : Result :=
  guarded .buffer s (.next (respond .ok .empty { s with buf := s.buf.blank }))

/-- `ROTATE k` (R114). -/
def execRotate (k : Int) (s : State) : Result :=
  guarded .buffer s
    (.next (respond .ok .empty { s with buf := s.buf.rotate (rotateShift s.cfg k) }))

/-- `ORDER` (R115). -/
def execOrder (s : State) : Result :=
  guarded .buffer s (.next (respond .ok (.order s.ord) s))

/-- `RENDER` (R116): the chunks are answered, nothing is written to the transport. -/
def execRender (s : State) : Result :=
  guarded .buffer s
    (match renderChunks s with
     | some r => .next (respond .ok (.chunks r.1) r.2)
     | none => .fault .slotOutsideBuffer)

/-- `ENCODE r, g, b, br` (R90). -/
def execEncode (r g b br : Int) (s : State) : Result :=
  guarded .buffer s
    (let e := encodeCached s.cfg (cacheCapacity s.cfg) ⟨r, g, b, br⟩ s.cache
     .next (respond .ok (.led e.1) { s with cache := e.2 }))

end Sys2Proof.Machine
end

