-- ==== Sys2Proof/Machine/Scheduler.lean ====
section
/-! DEFINITION. The cycle scheduler (spec/42_scheduler.md): `REGCB`, `START`, `CANCEL`, the phases, the
return of an invoked function, and the scheduler's move. -/

namespace Sys2Proof.Machine

/-! ### Commands and the event -/

/-- `REGCB h` (R141). -/
def execRegcb (h : Nat) (s : State) : Result :=
  guarded .setup s (.next (respond .ok .empty { s with cblist := s.cblist ++ [h] }))

/-- The acceptance of `START` on the state whose clock has just been read (R142). -/
def acceptStart (s : State) : State :=
  { s with
    sched := .running
    step := 0
    cycle := 0
    k := 0
    repaint := false
    exitReason := .noReason
    firstReason := .noReason
    t0 := s.clock
    deadline := (durationUnits s.cfg).map fun d => s.clock + d
    phase := .pInit }

/-- `START` (R142): accepted, with no response until the run ends (R160). -/
def execStart (s : State) : Result := guarded .setup s (.next (acceptStart (readClock s)))

/-- `CANCEL` (R164): latched while a run is in progress, ending a pacing wait early; ignored in `Idle`,
`Stopped` and configuration fault (R213). -/
def execCancel (s : State) : Result :=
  if runInProgress s.sched && s.configFault.isNone then
    .next { s with cancelPending := true, wake := none }
  else .next s

/-! ### The phases of Running (R143 to R156), after the cancellation check -/

/-- `P_INIT` (R143). -/
def phaseInit (s : State) : Result :=
  match s.cfg.initHook with
  | some h => .next (invoke h (.init (leds s.cfg)) s)
  | none => .next { s with phase := .pFirst }

/-- `P_FIRST` (R144). -/
def phaseFirst (s : State) : Result := afterFrame (emitFrame s) fun t => { t with phase := .pTop }

/-- The deadline test: whether the clock just read is past `DEADLINE`, strictly (R199). -/
def pastDeadline (s : State) : Bool :=
  match s.deadline with
  | some d => decide (d < s.clock)
  | none => false

/-- The clock is read for the deadline test only when a deadline is set (R196). -/
def readForDeadline (s : State) : State :=
  match s.deadline with
  | some _ => readClock s
  | none => s

/-- `P_TOP` (R145). -/
def phaseTop (s : State) : Result :=
  let t := readForDeadline s
  if pastDeadline t then .next (drainFor .deadline t)
  else .next { t with repaint := false, cbi := 0, phase := .pCb }

/-- `P_CB` (R146). -/
def phaseCb (s : State) : Result :=
  match s.cblist[s.cbi]? with
  | some h => .next (invoke h (.update (leds s.cfg) (stepsPerCycle s.cfg) s.step s.cycle) s)
  | none => .next { s with phase := .pPaint }

/-- `P_PAINT` (R147). -/
def phasePaint (s : State) : Result :=
  if s.repaint then afterFrame (emitFrame s) fun t => { t with phase := .pPace }
  else .next { s with phase := .pPace }

/-- `K <- K + 1; sleep_until(T0 + K * TICK)` and on to the next phase (R148, R155): no wait if the clock
already reads the boundary or more (R197), else a wait that the next steps end (R202). -/
def paceTo (next : Phase) (s : State) : State :=
  let t := readClock { s with k := s.k + 1, phase := next }
  let boundary := t.t0 + t.k * tickUnits t.cfg
  if boundary ≤ t.clock then t else { t with wake := some boundary }

/-- `P_PACE` (R148). -/
def phasePace (s : State) : Result := .next (paceTo .pAdv s)

/-- `P_ADV` (R149). -/
def phaseAdv (s : State) : Result :=
  if s.step + 1 < stepsPerCycle s.cfg then .next { s with step := s.step + 1, phase := .pTop }
  else .next { s with step := 0, cycle := s.cycle + 1, phase := .pHold }

/-- `P_HOLD` (R155). -/
def phaseHold (s : State) : Result := .next (paceTo .pCheck s)

/-- The cycle limit is reached (R156). -/
def limitReached (s : State) : Bool :=
  match cycleMax s.cfg with
  | some m => decide (m ≤ s.cycle)
  | none => false

/-- `P_CHECK` (R156): the limit first, then the deadline (R192). -/
def phaseCheck (s : State) : Result :=
  if limitReached s then .next (drainFor .cycleLimit s)
  else
    let t := readForDeadline s
    if pastDeadline t then .next (drainFor .deadline t) else .next { t with phase := .pTop }

/-! ### The phases of Draining (R158 to R160) -/

/-- `P_SHUT` (R158). -/
def phaseShut (s : State) : Result :=
  match s.cfg.shutdownHook with
  | some h => .next (invoke h (.shutdown (leds s.cfg)) s)
  | none => .next { s with phase := .pClear }

/-- `P_CLEAR` (R159). -/
def phaseClear (s : State) : Result :=
  afterFrame (emitFrame { s with buf := s.buf.blank }) fun t => { t with phase := .pClose }

/-- `P_CLOSE` (R160): the transport is released and `START` is answered to the host. -/
def phaseClose (s : State) : Result :=
  let answer := endOfRun s.cancelPending s.firstReason s.exitReason
  .next (emit (.resp .host answer.1 answer.2)
    { emit .txClose s with closed := true, sched := .stopped })

/-! ### The return of an invoked function (R143, R146, R158) -/

/-- What the phase that invoked does with the result (R143, R146, R158), on the state in which the
invocation is over. -/
def afterReturn (args : CallArgs) (r : Ret) (s : State) : Result :=
  match args, r with
  | .init _, .done => .next { s with phase := .pFirst }
  | .init _, .fault => .next (drainFor .callbackFault s)
  | .init _, .bool _ => .refused .resultOfWrongKind
  | .update _ _ _ _, .bool b =>
    .next { s with repaint := orRepaint s.repaint b, cbi := s.cbi + 1, phase := .pCb }
  | .update _ _ _ _, .fault => .next (drainFor .callbackFault s)
  | .update _ _ _ _, .done => .refused .resultOfWrongKind
  | .shutdown _, .done => .next { s with phase := .pClear }
  | .shutdown _, .fault => .next { s with exitReason := .callbackFault, phase := .pClear }
  | .shutdown _, .bool _ => .refused .resultOfWrongKind

/-- `Ret(h, r)` from the function being invoked (R152). -/
def takeReturn (r : Ret) (s : State) : Result :=
  match s.calling with
  | some inv => afterReturn inv.args r (endCall inv.handle r s)
  | none => .refused .agentNotInvoked

/-! ### The scheduler's move -/

/-- One phase of `Running`, after the cancellation check (R142 to R156). -/
def runPhase (s : State) : Result :=
  match s.phase with
  | .pInit => phaseInit s
  | .pFirst => phaseFirst s
  | .pTop => phaseTop s
  | .pCb => phaseCb s
  | .pPaint => phasePaint s
  | .pPace => phasePace s
  | .pAdv => phaseAdv s
  | .pHold => phaseHold s
  | .pCheck => phaseCheck s
  | .pShut => .fault .phaseOutsideState
  | .pClear => .fault .phaseOutsideState
  | .pClose => .fault .phaseOutsideState

/-- One phase of `Draining` (R158 to R160); a pending cancellation is only recorded (R164). -/
def drainPhase (s : State) : Result :=
  match s.phase with
  | .pShut => phaseShut s
  | .pClear => phaseClear s
  | .pClose => phaseClose s
  | .pInit => .fault .phaseOutsideState
  | .pFirst => .fault .phaseOutsideState
  | .pTop => .fault .phaseOutsideState
  | .pCb => .fault .phaseOutsideState
  | .pPaint => .fault .phaseOutsideState
  | .pPace => .fault .phaseOutsideState
  | .pAdv => .fault .phaseOutsideState
  | .pHold => .fault .phaseOutsideState
  | .pCheck => .fault .phaseOutsideState

/-- A move in `Running`: the cancellation check first (R164), then the end of a pacing wait (R197), then
the phase. -/
def runMove (s : State) : Result :=
  if s.cancelPending then .next (drainCancelled { s with wake := none })
  else match s.wake with
    | some t => .next { passBoundary t s with wake := none }
    | none => runPhase s

/-- The scheduler's move when no input arrives: in `Idle`, `Stopped` and configuration fault none (R212,
R213), and none while an invoked function has not returned (R152). -/
def schedulerMove (s : State) : Result :=
  if s.calling.isSome || s.configFault.isSome then .next s
  else match s.sched with
    | .idle => .next s
    | .running => runMove s
    | .draining => drainPhase s
    | .stopped => .next s

end Sys2Proof.Machine
end

