-- ==== Sys2Proof/Machine/Wire.lean ====
section
/-! DEFINITION. The meanings of the wire rows (spec/30_encoding.md R70 to R73): what the block emits
for each, appended to the frame under assembly (log 10). Frames are assembled from the same bytes
(Machine/Encoder.lean, `assembleFrame`). -/

namespace Sys2Proof.Machine

/-- Appends the bytes of one wire item to the frame under assembly (R73). -/
def assembleItem (bytes : List Byte) (s : State) : State := { s with asm := s.asm ++ bytes }

/-- `START_FRAME` (R70). -/
def execStartFrame (s : State) : Result := .next (assembleItem startFrameBytes s)

/-- `LED_CMD` (R71, R97). -/
def execLedCmd (h : BitVec 5) (x y z : Byte) (s : State) : Result :=
  .next (assembleItem (ledBytes h x y z) s)

/-- `END_PAD` (R72). -/
def execEndPad (s : State) : Result := .next (assembleItem endPadBytes s)

end Sys2Proof.Machine
end

