-- ==== Sys2Proof/Machine/Dispatch.lean ====
section
/-! DEFINITION. The dispatch of an instruction to its meaning, one arm per constructor. -/

namespace Sys2Proof.Machine

def exec (i : Instr) (s : State) : Host.Outcome State Fault Refusal :=
  match i with
  | .set idx r g b br => Sys2Proof.Machine.execSet idx r g b br s
  | .setrgb idx x c br => Sys2Proof.Machine.execSetrgb idx x c br s
  | .get idx => Sys2Proof.Machine.execGet idx s
  | .blank => Sys2Proof.Machine.execBlank s
  | .rotate k => Sys2Proof.Machine.execRotate k s
  | .order => Sys2Proof.Machine.execOrder s
  | .render => Sys2Proof.Machine.execRender s
  | .encode r g b br => Sys2Proof.Machine.execEncode r g b br s
  | .regcb h => Sys2Proof.Machine.execRegcb h s
  | .start => Sys2Proof.Machine.execStart s
  | .startFrame => Sys2Proof.Machine.execStartFrame s
  | .ledCmd h x y z => Sys2Proof.Machine.execLedCmd h x y z s
  | .endPad => Sys2Proof.Machine.execEndPad s
  | .cancel => Sys2Proof.Machine.execCancel s

end Sys2Proof.Machine
end

