-- ==== Sys2Proof/Machine/Port.lean ====
section
/-! DEFINITION. How inputs reach the block: the command port (spec/60_exceptions.md R191), reset during a
run (spec/70_reset_and_hazards.md R210, R225), and the other inputs. -/

namespace Sys2Proof.Machine

/-- A command word taken from its issuer, in the order of R191: configuration fault, whatever the word
is; then the decoder's `IllegalCommand`; then the command's own checks and effect. -/
def takeCommand (who : Issuer) (w : CommandWord) (s : State) : Result :=
  let t := { s with issuer := who }
  match t.configFault with
  | some e => raise (.configuration e) t
  | none =>
    match decodeCommand w with
    | .ok i => exec i t
    | .error _ => raise (.illegalCommand w) t

/-- Reset with a configuration (R210, R211): all state of the block anew, the outside world as it is,
its clock, its coming inputs and what it has seen of the block (log 17). Nothing is emitted (R211). -/
def State.reconstruct (c : Cfg) (s : State) : State :=
  { State.construct c with
    clock := s.clock
    clockIn := s.clockIn
    draws := s.draws
    inbox := s.inbox
    trace := s.trace }

/-- A wire word given to the frame assembler by itself (log 10). -/
def takeWire (e : Encoding) (s : State) : Result :=
  match e with
  | .command _ => .refused .notAWireItem
  | .event => .refused .notAWireItem
  | .wireQuad w =>
    match decodeWireQuad w with
    | .ok i => exec i s
    | .error _ => .refused .notAWireItem
  | .wireByte w =>
    match decodeWireByte w with
    | .ok i => exec i s
    | .error _ => .refused .notAWireItem

/-- One input, on the state from whose inbox it has been taken. -/
def takeInput (e : Input) (s : State) : Result :=
  match e with
  | .host w => takeCommand .host w s
  | .agent w => if s.calling.isSome then takeCommand .agent w s else .refused .agentNotInvoked
  | .ret r => takeReturn r s
  | .cancel => exec .cancel s
  | .pass => schedulerMove s
  | .reset c => if configRefused c then .refused .configurationWithoutMeaning else .next (s.reconstruct c)
  | .wire w => takeWire w s

/-- One step: the next input, or the scheduler's move when there is none (log 1). -/
def advance (s : State) : Result :=
  match s.inbox with
  | [] => schedulerMove s
  | e :: rest => takeInput e { s with inbox := rest }

/-- The input that presents a word of the opcode table: a command word from whoever holds the port, the
invoked function during an invocation, else the host (R186); a wire word; or the event. -/
def presented (s : State) (e : Encoding) : Input :=
  match e with
  | .command w => if s.calling.isSome then .agent w else .host w
  | .wireQuad w => .wire (.wireQuad w)
  | .wireByte w => .wire (.wireByte w)
  | .event => .cancel

/-- The state in which that input is the next to arrive. -/
def presentNext (s : State) (e : Encoding) : State := { s with inbox := presented s e :: s.inbox }

end Sys2Proof.Machine
end

