-- ==== Sys2Proof/Machine/Step.lean ====
section
/-! DEFINITION. The step of the machine and the placing of an instruction for the next step. -/

namespace Sys2Proof.Machine

/-- One step of the machine (Machine/Port.lean, `advance`). -/
def step (s : State) : Host.Outcome State Fault Refusal := advance s

/-- `s` with the instruction of a table word as the next input, so that the next step takes it (log 18). -/
def State.withFetchWord (s : State) (nbits w : Nat) : State := presentNext s (tableEncoding nbits w)

end Sys2Proof.Machine
end

