-- ==== Sys2Proof/Safety.lean ====
section
/-! DEFINITION. What counts as a safe state and run of the RLE block, in the terms the statements use:
when a command is ready to have its effect, the invariant of the machine, the scheduler's transitions,
and what a pure reading of the frame is. -/

namespace Sys2Proof

open Sys2Proof.Machine

/-- The row of R186 a command belongs to; the wire rows and `CANCEL` are no commands and have none. -/
def Instr.commandClass : Instr → Option CommandClass
  | .set _ _ _ _ _ => some .buffer
  | .setrgb _ _ _ _ => some .buffer
  | .get _ => some .buffer
  | .blank => some .buffer
  | .rotate _ => some .buffer
  | .order => some .buffer
  | .render => some .buffer
  | .encode _ _ _ _ => some .buffer
  | .regcb _ => some .setup
  | .start => some .setup
  | .startFrame => none
  | .ledCmd _ _ _ _ => none
  | .endPad => none
  | .cancel => none

end Sys2Proof

namespace Sys2Proof.Machine

/-- A command of the class has its own effect here, not an error of R191 steps 1 to 3: no configuration
fault, and the present issuer may issue it in the present state (R186). -/
def Ready (cls : CommandClass) (s : State) : Prop := s.configFault = none ∧ mayIssue cls s = true

/-- The scheduler takes a phase of `Running` at its next move: no configuration fault, no invocation
outstanding, no pacing wait, no cancellation pending (R142 to R164). -/
structure AtPhase (p : Phase) (s : State) : Prop where
  noFault : s.configFault = none
  notCalling : s.calling = none
  running : s.sched = .running
  notWaiting : s.wake = none
  notCancelled : s.cancelPending = false
  phase : s.phase = p

/-- The scheduler takes a phase of `Draining` at its next move (R158 to R160). -/
structure AtDrain (p : Phase) (s : State) : Prop where
  noFault : s.configFault = none
  notCalling : s.calling = none
  draining : s.sched = .draining
  phase : s.phase = p

/-- An outstanding invocation belongs to the phase that made it (R143, R146, R158). -/
def callFits (s : State) : Prop :=
  match s.calling with
  | none => True
  | some inv =>
    match inv.args with
    | .init _ => s.sched = .running ∧ s.phase = .pInit
    | .update _ _ _ _ => s.sched = .running ∧ s.phase = .pCb ∧ s.cbi < s.cblist.length
    | .shutdown _ => s.sched = .draining ∧ s.phase = .pShut

/-- The boundary a pacing wait waits for is the one last scheduled (R148, R155). -/
def wakeFits (s : State) : Prop :=
  match s.wake with
  | none => True
  | some t => s.sched = .running ∧ (s.phase = .pAdv ∨ s.phase = .pCheck) ∧
      s.cancelPending = false ∧ t = s.t0 + s.k * tickUnits s.cfg

/-- Every stored encoding is the pixel's own (R38). -/
def cacheSound (s : State) : Prop := ∀ e ∈ s.cache, e.2 = encodePure s.cfg e.1

/-- The invariant of the machine: it holds after every reset the model accepts, and every step keeps
it. -/
structure Inv (s : State) : Prop where
  /-- The configuration is one the model gives a meaning (R33). -/
  configMeant : configRefused s.cfg = false
  /-- `CFG_FAULT` is what reset found (R211). -/
  faultFound : s.configFault = configError s.cfg
  /-- `BUF` has N slots (R14). -/
  bufferWhole : s.configFault = none → Memory.wf (leds s.cfg) s.buf = true
  /-- `ORD` is the one computed at reset (R16). -/
  orderKept : s.configFault = none → s.ord = orderTable s.cfg
  /-- In configuration fault no run is possible (R213). -/
  faultIdle : s.configFault ≠ none → s.sched = .idle
  /-- `PHASE` belongs to `SCHED` (R34). -/
  phaseFits : runInProgress s.sched = true → phaseOf s.phase = s.sched
  callFits : callFits s
  wakeFits : wakeFits s
  /-- `0 ≤ STEP < S` (R35). -/
  stepBelow : s.step < stepsPerCycle s.cfg
  /-- `CBI ≤ len(CBLIST)` (R37). -/
  cbiBelow : s.cbi ≤ s.cblist.length
  cacheSound : cacheSound s
  /-- At most `CACHE_CAP` entries (R38). -/
  cacheBounded : s.cache.length ≤ cacheCapacity s.cfg
  /-- `CLOSED` records the close of the Stopped transition (R19, R160). -/
  closedStopped : s.closed = true ↔ s.sched = .stopped
  /-- `CANCEL` is latched only in a run (R164). -/
  cancelInRun : s.cancelPending = true → s.sched ≠ .idle
  /-- No reason stands while `Running`; one stands from the drain on (R19, R193). -/
  reasonRunning : s.sched = .running → s.exitReason = .noReason
  reasonDraining : s.sched = .draining ∨ s.sched = .stopped → s.exitReason ≠ .noReason
  /-- From the drain on the first reason stands, and `EXIT_REASON` is that one or the fault of the shutdown
  hook (R158, R165). -/
  firstKept : s.sched = .draining ∨ s.sched = .stopped →
    s.firstReason ≠ .noReason ∧ (s.exitReason = s.firstReason ∨ s.exitReason = .callbackFault)
  /-- `DEADLINE = T0 + DURATION` during a run (R36). -/
  deadlineFixed : runInProgress s.sched = true →
    s.deadline = (durationUnits s.cfg).map fun d => s.t0 + d
  /-- Outside a wait the clock has reached the last boundary scheduled, unless a wait was cut short by
  `CANCEL` (R168). -/
  clockReached : s.sched = .running → s.wake = none → s.cancelPending = false →
    s.t0 + s.k * tickUnits s.cfg ≤ s.clock

/-- The input is a reset. -/
def Input.isReset : Input → Bool
  | .reset _ => true
  | .host _ => false
  | .agent _ => false
  | .ret _ => false
  | .cancel => false
  | .pass => false
  | .wire _ => false

/-- The next input is not a reset. -/
def noResetNext (s : State) : Prop := ∀ e ∈ s.inbox.head?, e.isReset = false

/-- The event is a transport event. -/
def Event.onTransport : Event → Bool
  | .txWrite _ => true
  | .txClose => true
  | .resp _ _ _ => false
  | .call _ _ => false
  | .ret _ _ => false

/-- `frame()` read off the state with `encode_pure` alone, no cache (R117). -/
def pureFrame (s : State) : Option (List Byte) :=
  (Memory.readAll s.buf s.ord).map fun ps => assembleFrame (ps.map (encodePure s.cfg))

/-- The frame of a buffer of `n` black pixels (R113). -/
def blankFrame (c : Cfg) (n : Nat) : List Byte :=
  assembleFrame (List.replicate n (encodePure c Pixel.blackOff))

/-- The transport events of one frame (R161). -/
def frameWrites (c : Cfg) (f : List Byte) : List Event := (chunks (chunkMax c) f).map Event.txWrite

/-- The wire rows of a frame, in the order sent (R73): the start frame, one LED command per pixel, the
end padding. -/
def wireRows (c : Cfg) (ps : List Pixel) : List Instr :=
  [.startFrame] ++
  ps.map (fun p => .ledCmd (ledFields c p).hdr (ledFields c p).x (ledFields c p).y (ledFields c p).z) ++
  List.replicate (padCount ps.length) .endPad

/-- Runs instructions one after another. -/
def runAll : List Instr → State → Result
  | [], s => .next s
  | i :: is, s =>
    match exec i s with
    | .next t => runAll is t
    | .fault f => .fault f
    | .refused r => .refused r

end Sys2Proof.Machine
end

