-- ==== Sys2Proof/Certificates/Slice0/Obligations.lean ====
section
/-! DEFINITION. The statements about the RLE block, one `def Obligations.<Name> : Prop` each; listed in
OBLIGATIONS.json. A docstring names the rule of spec/ a statement comes from. -/

open Sys2Proof Sys2Proof.Machine

/-! ### Encodings -/

/-- The twelve words of the worked encodings decode to the commands they are listed for (R81; words
written out there from R61 to R64). -/
def Obligations.WorkedEncodingsDecode : Prop :=
  decodeCommand 0x0100000200FF008000000032 = .ok (.set 2 255 128 0 50) ∧
  decodeCommand 0x01000000FFFB012C010000C8 = .ok (.set 0 (-5) 300 256 200) ∧
  decodeCommand 0x0200000100FF800000000064 = .ok (.setrgb 1 0 0xFF8000 100) ∧
  decodeCommand 0x030000030000000000000000 = .ok (.get 3) ∧
  decodeCommand 0x040000000000000000000000 = .ok .blank ∧
  decodeCommand 0x050000000000000100000000 = .ok (.rotate 1) ∧
  decodeCommand 0x05000000FFFFFFFE00000000 = .ok (.rotate (-2)) ∧
  decodeCommand 0x060000000000000000000000 = .ok .order ∧
  decodeCommand 0x070000000000000000000000 = .ok .render ∧
  decodeCommand 0x0800000000FF008000000032 = .ok (.encode 255 128 0 50) ∧
  decodeCommand 0x100000000000000700000000 = .ok (.regcb 7) ∧
  decodeCommand 0x110000000000000000000000 = .ok .start

/-- Decoding inverts encoding: for every well-formed instruction, with every operand at every value its
field admits, the encoded form decodes to the instruction (R61 to R65, R70 to R72). -/
def Obligations.DecodeInvertsEncode : Prop :=
  ∀ i : Instr, i.wellFormed = true → decode (encode i) = .ok i

/-- Encoding inverts decoding: a word that decodes has one meaning, which is well formed and encodes back
to that word, so no bit of it is ignored (R66, R67). -/
def Obligations.EncodeInvertsDecode : Prop :=
  ∀ (e : Encoding) (i : Instr), decode e = .ok i → i.wellFormed = true ∧ encode i = e

/-- The decoder of the command port is total against the opcode table (R67): at most one row selects a
word; a word decodes exactly when one does; any other word, the all-zero word and every reserved `OP`
among them, is answered `IllegalCommand` with the word and changes nothing. -/
def Obligations.CommandDecodesIffExactlyOneRowSelects : Prop :=
  (∀ w : CommandWord, (commandRows.filter fun r => r.selects w).length ≤ 1) ∧
  (∀ w : CommandWord, (∃ i, decodeCommand w = .ok i) ↔
    (commandRows.filter fun r => r.selects w).length = 1) ∧
  decodeCommand 0 = .error .reservedOpcode ∧
  (∀ w : CommandWord, opField w ∉ ([0x01, 0x02, 0x03, 0x04, 0x05, 0x06, 0x07, 0x08, 0x10, 0x11] : List (BitVec 8)) →
    decodeCommand w = .error .reservedOpcode) ∧
  (∀ (w : CommandWord) (who : Issuer) (s : State), s.configFault = none →
    (commandRows.filter fun r => r.selects w) = [] →
    takeCommand who w s = .next { s with
      issuer := who, trace := s.trace ++ [.resp who .illegalCommand (.command w)] })

/-- The byte serialisation of every instruction that has a word, each word most significant byte first,
decodes to the instruction (R42). -/
def Obligations.ByteStringsDecodeMostSignificantFirst : Prop :=
  ∀ i : Instr, i.wellFormed = true → i ≠ .cancel → decodeBytes (encode i).bytes = .ok i

/-! ### Arithmetic and the encoder -/

/-- The rounding primitives (R8, R96): `ceil_div(a, d)` is the least integer not below `a / d`;
`round_nearest` is nearest, and on a tie even or away from zero as `ROUND_TIE` says. -/
def Obligations.RoundingPrimitivesAreExact : Prop :=
  (∀ a d : Int, 0 < d → a ≤ ceilDiv a d * d ∧ ∀ q : Int, a ≤ q * d → ceilDiv a d ≤ q) ∧
  (∀ (tie : RoundTie) (num den : Int), 0 < den →
    2 * |roundNearest tie num den * den - num| ≤ den ∧
    (2 * |roundNearest tie num den * den - num| = den →
      (tie = .halfEven → roundNearest tie num den % 2 = 0) ∧
      (tie = .halfAway → |num| < |roundNearest tie num den * den|)))

/-- The header field in mode `H` (R92): the clamped ceiling, at least 1 for any positive product, 0 for
a product at or below 0, 31 from 10000 on; and the rule's seven values at `MAXB = 100`. -/
def Obligations.HeaderFieldOfScaleViaHeader : Prop :=
  ∀ (c : Cfg) (p : Pixel), c.mode = .scaleViaHeader →
    headerField c p = clamp (ceilDiv (31 * p.br * c.maxb) 10000) 0 31 ∧
    (0 < p.br * c.maxb → 1 ≤ headerField c p) ∧
    (p.br * c.maxb ≤ 0 → headerField c p = 0) ∧
    (10000 ≤ p.br * c.maxb → headerField c p = 31) ∧
    (c.maxb = 100 →
      (p.br = 1 → headerField c p = 1) ∧ (p.br = 3 → headerField c p = 1) ∧
      (p.br = 4 → headerField c p = 2) ∧ (p.br = 50 → headerField c p = 16) ∧
      (p.br = 96 → headerField c p = 30) ∧ (p.br = 97 → headerField c p = 31) ∧
      (p.br = 100 → headerField c p = 31))

/-- The LED command (R97, R98): four bytes, byte 0 is `224 + HDR` with `HDR` in [0,31], and the byte at
each colour's position is that colour's value, which lies in [0,255]. -/
def Obligations.LedCommandHoldsHeaderAndPlacedColours : Prop :=
  ∀ (c : Cfg) (p : Pixel), wireBijective c.wire = true →
    (encodePure c p).length = 4 ∧
    (encodePure c p)[0]?.map (fun b => (b.toNat : Int)) = some (224 + headerField c p) ∧
    0 ≤ headerField c p ∧ headerField c p ≤ 31 ∧
    (encodePure c p)[c.wire.posR.toNat]?.map (fun b => (b.toNat : Int)) = some (colourValue c p.br p.r) ∧
    (encodePure c p)[c.wire.posG.toNat]?.map (fun b => (b.toNat : Int)) = some (colourValue c p.br p.g) ∧
    (encodePure c p)[c.wire.posB.toNat]?.map (fun b => (b.toNat : Int)) = some (colourValue c p.br p.b) ∧
    ∀ v : Int, 0 ≤ colourValue c p.br v ∧ colourValue c p.br v ≤ 255

/-- The colour values of the two modes (R93, R94, R96): in mode `H` the clamped field, whatever the
brightness; in mode `C` the clamped integer nearest to the raw field times the scale, a tie going to the
even integer or away from zero as `ROUND_TIE` says. -/
def Obligations.ColourValuesOfTheTwoModes : Prop :=
  ∀ (c : Cfg) (br v : Int),
    (c.mode = .scaleViaHeader →
      (0 ≤ v → v ≤ 255 → colourValue c br v = v) ∧
      (v < 0 → colourValue c br v = 0) ∧ (255 < v → colourValue c br v = 255)) ∧
    (c.mode = .scaleViaColor →
      ∃ q : Int, 2 * |q * 10000 - v * br * c.maxb| ≤ 10000 ∧
        (2 * |q * 10000 - v * br * c.maxb| = 10000 →
          (c.roundTie = .halfEven → q % 2 = 0) ∧
          (c.roundTie = .halfAway → |v * br * c.maxb| < |q * 10000|)) ∧
        (0 ≤ q → q ≤ 255 → colourValue c br v = q) ∧
        (q < 0 → colourValue c br v = 0) ∧ (255 < q → colourValue c br v = 255))

/-- The six properties of the encoder that R103 lists (the spec marks that rule as derived from R91 to R98). -/
def Obligations.EncoderPropertiesForChecking : Prop :=
  (∀ (c : Cfg) (p : Pixel), c.mode = .scaleViaHeader → p.br = 0 →
    headerField c p = 0 ∧ (encodePure c p).head? = some 0xE0) ∧
  (∀ (c : Cfg) (p : Pixel), c.mode = .scaleViaColor → p.br = 0 → encodePure c p = [0xFF, 0, 0, 0]) ∧
  (∀ (c : Cfg) (p : Pixel), encodePure { c with maxb := 0 } p = encodePure c { p with br := 0 }) ∧
  (∀ (c : Cfg) (v : Int), c.mode = .scaleViaColor → c.maxb = 100 →
    colourValue c 100 v = clamp v 0 255) ∧
  (∀ (c d : Cfg) (p q : Pixel), c.mode = .scaleViaHeader → d.mode = .scaleViaHeader →
    p.br * c.maxb ≤ q.br * d.maxb → headerField c p ≤ headerField d q) ∧
  (∀ c : Cfg, encodePure c Pixel.blackOff =
    match c.mode with
    | .scaleViaHeader => [0xE0, 0, 0, 0]
    | .scaleViaColor => [0xFF, 0, 0, 0])

/-- The wire orders (R75): of the 64 packed values exactly the six of the table are legal, each unpacks to
its positions, and any other makes reset find `ConfigurationError` with cause `ColorOrder`. -/
def Obligations.ExactlySixWireOrdersAreLegal : Prop :=
  (∀ v : BitVec 6, wireBijective (wireOfBits v) =
    decide (v ∈ ([0x1B, 0x1E, 0x27, 0x36, 0x2D, 0x39] : List (BitVec 6)))) ∧
  (∀ v : BitVec 6, wireBits (wireOfBits v) = v) ∧
  wireOfBits 0x1B = ⟨1, 2, 3⟩ ∧ wireOfBits 0x1E = ⟨1, 3, 2⟩ ∧ wireOfBits 0x27 = ⟨2, 1, 3⟩ ∧
  wireOfBits 0x36 = ⟨3, 1, 2⟩ ∧ wireOfBits 0x2D = ⟨2, 3, 1⟩ ∧ wireOfBits 0x39 = ⟨3, 2, 1⟩ ∧
  (∀ (c : Cfg) (v : BitVec 6), 0 < c.n → c.wire = wireOfBits v →
    v ∉ ([0x1B, 0x1E, 0x27, 0x36, 0x2D, 0x39] : List (BitVec 6)) → configError c = some .colorOrder)

/-! ### Frames and chunks -/

/-- Chunking (R118): the chunks join to the frame, there are `ceil_div(L, M)`, none is empty or longer
than `M`, all but the last are full, the last has the rest, and a frame that fits is one chunk. -/
def Obligations.ChunksCutTheFrameExactly : Prop :=
  ∀ (m : Nat) (f : List Byte), 1 ≤ m → 1 ≤ f.length →
    (chunks m f).flatten = f ∧
    ((chunks m f).length : Int) = ceilDiv f.length m ∧
    (∀ ch ∈ chunks m f, 1 ≤ ch.length ∧ ch.length ≤ m) ∧
    (∀ ch ∈ (chunks m f).dropLast, ch.length = m) ∧
    (∀ ch ∈ (chunks m f).getLast?, ch.length = f.length - ((chunks m f).length - 1) * m) ∧
    (f.length ≤ m → chunks m f = [f])

/-- The frame's address map (R47): with no configuration fault the frame exists and has length
`4 + 4*N + ceil_div(N, 16)`; bytes 0 to 3 are 0; bytes `4+4j` to `4+4j+3` are the encoding of slot
`ORD[j]`; the rest are 0. -/
def Obligations.FrameAddressMap : Prop :=
  ∀ s : State, Inv s → s.configFault = none →
    ∃ f, pureFrame s = some f ∧
      (f.length : Int) = 4 + 4 * (leds s.cfg : Int) + ceilDiv (leds s.cfg) 16 ∧
      f.take 4 = [0, 0, 0, 0] ∧
      (∀ j, j < leds s.cfg → ∃ i p, s.ord[j]? = some i ∧ s.buf.read i = some p ∧
        (f.drop (4 + 4 * j)).take 4 = encodePure s.cfg p) ∧
      (∀ b ∈ f.drop (4 + 4 * leds s.cfg), b = 0)

/-- `RENDER` (R116, R117, R119): from every state of the invariant in which it may be issued it answers
the chunks of the frame computed by `encode_pure` alone, of the exact length, sends nothing to the
transport, and changes nothing but the cache, which stays sound. -/
def Obligations.RenderAnswersThePureFrame : Prop :=
  ∀ s : State, Inv s → Ready .buffer s →
    ∃ f t, pureFrame s = some f ∧ exec .render s = .next t ∧
      t = { s with
        cache := t.cache
        trace := s.trace ++ [.resp s.issuer .ok (.chunks (chunks (chunkMax s.cfg) f))] } ∧
      (f.length : Int) = 4 + 4 * (leds s.cfg : Int) + ceilDiv (leds s.cfg) 16 ∧
      cacheSound t

/-- `ENCODE` (R90, R100): it answers `encode_pure` of its operands and changes nothing but the cache,
which is then sound and within its capacity (R38). That the cache then holds the pixel first is the model's
layout of it, most recent first (log 9, DEDUCED). -/
def Obligations.EncodeAnswersEncodePure : Prop :=
  ∀ (r g b br : Int) (s : State), cacheSound s → Ready .buffer s →
    ∃ t, exec (.encode r g b br) s = .next t ∧
      t = { s with
        cache := t.cache
        trace := s.trace ++ [.resp s.issuer .ok (.led (encodePure s.cfg ⟨r, g, b, br⟩))] } ∧
      cacheSound t ∧ t.cache.length ≤ cacheCapacity s.cfg ∧
      (1 ≤ cacheCapacity s.cfg →
        t.cache.head? = some (⟨r, g, b, br⟩, encodePure s.cfg ⟨r, g, b, br⟩))

/-- The cache is invisible (R38, R100): two states that differ only in what their sound caches hold give
the same answer to every command. -/
def Obligations.CacheContentsNeverShow : Prop :=
  ∀ (i : Instr) (s t : State) (other : Cache), i.commandClass.isSome = true → cacheSound s →
    cacheSound { s with cache := other } → exec i s = .next t →
    ∃ u, exec i { s with cache := other } = .next u ∧ { u with cache := t.cache } = t

/-- The wire rows (R70 to R72): each completes in every state, appends exactly its bytes to the frame
under assembly (the field of log 10) and changes nothing else. -/
def Obligations.WireRowsEmitTheirBytes : Prop :=
  ∀ s : State,
    exec .startFrame s = .next { s with asm := s.asm ++ [0, 0, 0, 0] } ∧
    (∀ (h : BitVec 5) (x y z : Byte), ∃ hd : Byte, hd.toNat = 224 + h.toNat ∧
      exec (.ledCmd h x y z) s = .next { s with asm := s.asm ++ [hd, x, y, z] }) ∧
    exec .endPad s = .next { s with asm := s.asm ++ [0] }

/-- A whole frame is its wire rows in order (R73): running them one after another appends exactly the
frame of the pixels. That a wire row runs alone, on a frame under assembly, is the model's choice (log 10). -/
def Obligations.WireRowsAssembleTheFrame : Prop :=
  ∀ (c : Cfg) (ps : List Pixel) (s : State),
    runAll (wireRows c ps) s =
      .next { s with asm := s.asm ++ assembleFrame (ps.map (encodePure c)) }

/-! ### The logical order and reset -/

/-- `ORD` is a permutation of `0..N-1` whenever the configuration raises no error (R16, R50), and the
identity when no range list is configured. -/
def Obligations.LegalOrderIsAPermutation : Prop :=
  ∀ c : Cfg, configError c = none →
    (orderTable c).Perm (List.range (leds c)) ∧
    (c.lorder = none → ∀ j, j < leds c → (orderTable c)[j]? = some j)

/-- Expansion of the range list (R48): one range gives an ascending or a descending run by the order of its
two numbers, both ends included, and the list gives its ranges' runs one after another. -/
def Obligations.RangesRunBothWays : Prop :=
  (∀ a b : Int,
    (a ≤ b → ((expandRange a b).length : Int) = b - a + 1 ∧
      ∀ d : Nat, (d : Int) ≤ b - a → (expandRange a b)[d]? = some (a + d)) ∧
    (b < a → ((expandRange a b).length : Int) = a - b + 1 ∧
      ∀ d : Nat, (d : Int) ≤ a - b → (expandRange a b)[d]? = some (a - d))) ∧
  expand [] = [] ∧
  (∀ (r : Int × Int) (rs : List (Int × Int)), expand (r :: rs) = expandRange r.1 r.2 ++ expand rs)

/-- Validation of the logical order (R49): an index is offending exactly when it is missing, duplicated or
outside [0,N), and reset finds `LogicalOrder` with that set exactly when it is not empty. (That the set
is recorded in rising order is the model's choice, log 13.) -/
def Obligations.OffendingIndicesAreExactlyNamed : Prop :=
  (∀ (e : List Int) (n : Nat) (x : Int), x ∈ offending e n ↔
    (0 ≤ x ∧ x < n ∧ x ∉ e) ∨ 1 < e.count x ∨ (x ∈ e ∧ (x < 0 ∨ (n : Int) ≤ x))) ∧
  (∀ (e : List Int) (n : Nat), (offending e n).Pairwise (· < ·)) ∧
  (∀ (c : Cfg) (ranges : List (Int × Int)), 0 < c.n → wireBijective c.wire = true →
    c.lorder = some ranges →
    (offending (expand ranges) (leds c) = [] → configError c = none) ∧
    (offending (expand ranges) (leds c) ≠ [] →
      configError c = some (.logicalOrder (offending (expand ranges) (leds c)))))

/-- What a reset leaves (R211, R212), for every configuration the model gives a meaning, in whatever state
it comes: the configuration held, the fault as found, every slot `RESET_PIXEL` and the order when there
is no fault, lists empty, counters and flags 0, `Idle`, and nothing emitted. The fields for the call, the wait
and the first reason, and the trace kept from before, are the model's form (log 27, log 8, log 15, log 17). -/
def Obligations.ResetValues : Prop :=
  ∀ (c : Cfg) (rest : List Input) (s : State), configRefused c = false →
    ∃ t, step { s with inbox := .reset c :: rest } = .next t ∧
      t.cfg = c ∧ t.configFault = configError c ∧
      (configError c = none → t.buf = List.replicate (leds c) c.resetPixel ∧ t.ord = orderTable c) ∧
      t.cblist = [] ∧ t.cache = [] ∧ t.sched = .idle ∧ t.step = 0 ∧ t.cycle = 0 ∧ t.k = 0 ∧
      t.cbi = 0 ∧ t.repaint = false ∧ t.cancelPending = false ∧ t.closed = false ∧
      t.exitReason = .noReason ∧ t.firstReason = .noReason ∧ t.calling = none ∧ t.wake = none ∧ t.trace = s.trace

/-! ### The buffer's commands -/

/-- `SET` (R110): inside [0,N) the slot holds the pixel as given, every other slot what it held, and
nothing else changes but the answer; outside it answers `IndexError` and nothing changes. -/
def Obligations.SetStoresOneSlot : Prop :=
  ∀ (i : Nat) (r g b br : Int) (s : State), Ready .buffer s → Memory.wf (leds s.cfg) s.buf = true →
    (i < leds s.cfg → ∃ t, exec (.set i r g b br) s = .next t ∧
      t.buf.read i = some ⟨r, g, b, br⟩ ∧ (∀ j, j ≠ i → t.buf.read j = s.buf.read j) ∧
      t = { s with buf := t.buf, trace := s.trace ++ [.resp s.issuer .ok .empty] }) ∧
    (leds s.cfg ≤ i → exec (.set i r g b br) s =
      .next { s with trace := s.trace ++ [.resp s.issuer .indexError (.index i)] })

/-- `SETRGB` (R111, R65): the packed colour `65536*R + 256*G + B` is decomposed and stored with the given
brightness in the one slot; a colour wider than 24 bits answers `ValueError` with `W1`, whatever the
index; an index outside [0,N) answers `IndexError`; neither error changes the buffer. -/
def Obligations.SetrgbStoresTheDecomposedColour : Prop :=
  ∀ (i : Nat) (x : BitVec 8) (c : BitVec 24) (br : Int) (s : State), Ready .buffer s →
    Memory.wf (leds s.cfg) s.buf = true →
    (x = 0 → i < leds s.cfg → ∃ (t : State) (r g b : Nat), r ≤ 255 ∧ g ≤ 255 ∧ b ≤ 255 ∧
      c.toNat = 65536 * r + 256 * g + b ∧ exec (.setrgb i x c br) s = .next t ∧
      t.buf.read i = some ⟨r, g, b, br⟩ ∧ (∀ j, j ≠ i → t.buf.read j = s.buf.read j) ∧
      t = { s with buf := t.buf, trace := s.trace ++ [.resp s.issuer .ok .empty] }) ∧
    (x ≠ 0 → exec (.setrgb i x c br) s =
      .next { s with trace := s.trace ++ [.resp s.issuer .valueError (.word1 (x ++ c))] }) ∧
    (x = 0 → leds s.cfg ≤ i → exec (.setrgb i x c br) s =
      .next { s with trace := s.trace ++ [.resp s.issuer .indexError (.index i)] })

/-- `GET` (R112): inside [0,N) it answers the pixel exactly as stored; outside it answers `IndexError`;
no state changes either way. -/
def Obligations.GetAnswersTheSlotAsStored : Prop :=
  ∀ (i : Nat) (s : State), Ready .buffer s → Memory.wf (leds s.cfg) s.buf = true →
    (i < leds s.cfg → ∃ p, s.buf.read i = some p ∧ exec (.get i) s =
      .next { s with trace := s.trace ++ [.resp s.issuer .ok (.pixel p)] }) ∧
    (leds s.cfg ≤ i → exec (.get i) s =
      .next { s with trace := s.trace ++ [.resp s.issuer .indexError (.index i)] })

/-- `BLANK` (R113): every slot holds `(0,0,0,0)`, whatever `RESET_PIXEL` is; nothing is sent and nothing
else changes. -/
def Obligations.BlankClearsEverySlot : Prop :=
  ∀ s : State, Ready .buffer s → Memory.wf (leds s.cfg) s.buf = true →
    ∃ t, exec .blank s = .next t ∧
      (∀ i, i < leds s.cfg → t.buf.read i = some ⟨0, 0, 0, 0⟩) ∧
      (∀ i, leds s.cfg ≤ i → t.buf.read i = none) ∧
      t = { s with buf := t.buf, trace := s.trace ++ [.resp s.issuer .ok .empty] }

/-- `ROTATE` (R114): the pixel of slot `i` moves to slot `(i + d*k) mod N`, for both values of the
direction `d`; `ORD` and everything else is as before. -/
def Obligations.RotateMovesEverySlot : Prop :=
  ∀ (k : Int) (s : State), Ready .buffer s → Memory.wf (leds s.cfg) s.buf = true → 0 < leds s.cfg →
    ∃ t, exec (.rotate k) s = .next t ∧ t.buf.length = s.buf.length ∧
      (∀ i j : Nat, i < leds s.cfg → j < leds s.cfg →
        (j : Int) = ((i : Int) + (match s.cfg.rotateDir with | .plusOne => k | .minusOne => -k)) %
          (leds s.cfg : Int) →
        t.buf.read j = s.buf.read i) ∧
      t = { s with buf := t.buf, trace := s.trace ++ [.resp s.issuer .ok .empty] }

/-- `rotate(k)` followed by `rotate(-k)` restores the buffer, for all `k` and both directions; a multiple
of `N` leaves it unchanged (R114). -/
def Obligations.RotateBackRestoresTheBuffer : Prop :=
  ∀ (k : Int) (s : State), Ready .buffer s → Memory.wf (leds s.cfg) s.buf = true → 0 < leds s.cfg →
    (∃ t u, exec (.rotate k) s = .next t ∧ exec (.rotate (-k)) t = .next u ∧ u.buf = s.buf) ∧
    (∀ m : Int, k = m * (leds s.cfg : Int) → ∃ t, exec (.rotate k) s = .next t ∧ t.buf = s.buf)

/-- `ORDER` (R115): it answers `ORD` and changes nothing; by the invariant that is the order computed at
reset. -/
def Obligations.OrderAnswersTheConfiguredOrder : Prop :=
  ∀ s : State, Inv s → Ready .buffer s →
    exec .order s = .next { s with trace := s.trace ++ [.resp s.issuer .ok (.order (orderTable s.cfg))] }

/-! ### Set-up, start, cancellation -/

/-- `REGCB` (R141): in `Idle` it appends the handle, duplicates kept, and answers `OK`; outside `Idle`, or
from a hook or callback, it answers `IllegalState` and changes nothing. -/
def Obligations.RegcbAppendsInIdleOnly : Prop :=
  ∀ (h : Nat) (s : State), s.configFault = none →
    (s.sched = .idle → s.issuer = .host → exec (.regcb h) s =
      .next { s with cblist := s.cblist ++ [h], trace := s.trace ++ [.resp s.issuer .ok .empty] }) ∧
    (s.sched ≠ .idle ∨ s.issuer = .agent → exec (.regcb h) s =
      .next { s with trace := s.trace ++ [.resp s.issuer .illegalState (.sched s.sched)] })

/-- `START` (R142): accepted in `Idle` from the host, with no response yet; counters and flags are
cleared, `T0` is the clock as read now, which is not before the last reading, `DEADLINE` follows from
`DURATION`, and buffer, order and callback list are as they were. Elsewhere it answers `IllegalState`,
in configuration fault `ConfigurationError`, and nothing changes. (The field of the first reason is the
model's form, log 15.) -/
def Obligations.StartIsAcceptedInIdleOnly : Prop :=
  ∀ s : State,
    (Ready .setup s → ∃ t, exec .start s = .next t ∧ s.clock ≤ t.clock ∧
      t = { s with
        sched := .running, phase := .pInit, step := 0, cycle := 0, k := 0, repaint := false
        exitReason := .noReason, firstReason := .noReason, t0 := t.clock
        deadline := (durationUnits s.cfg).map fun d => t.clock + d
        clock := t.clock, clockIn := t.clockIn, draws := t.draws }) ∧
    (s.configFault = none → s.sched ≠ .idle ∨ s.issuer = .agent → exec .start s =
      .next { s with trace := s.trace ++ [.resp s.issuer .illegalState (.sched s.sched)] }) ∧
    (∀ e, s.configFault = some e → exec .start s =
      .next { s with trace := s.trace ++ [.resp s.issuer .configurationError (.config e)] })

/-- `CANCEL` (R164, R190, R213): in `Running` and `Draining` it is latched and ends a pacing wait; in
`Idle`, `Stopped` and configuration fault it changes nothing; a second one changes nothing. -/
def Obligations.CancelIsLatchedInARunOnly : Prop :=
  ∀ s : State,
    (s.configFault = none → s.sched = .running ∨ s.sched = .draining →
      exec .cancel s = .next { s with cancelPending := true, wake := none }) ∧
    (s.sched = .idle ∨ s.sched = .stopped ∨ s.configFault ≠ none → exec .cancel s = .next s) ∧
    (s.cancelPending = true → s.wake = none → exec .cancel s = .next s)

/-! ### Errors and who may issue what -/

/-- Every command ends with exactly one response to its issuer, but for an accepted `START`, whose answer
comes at the end of the run (R69); and a command that ends in an error has changed nothing else
(R181). -/
def Obligations.CommandsAnswerOnceAndErrorsChangeNothing : Prop :=
  ∀ (i : Instr) (s t : State), i.commandClass.isSome = true → exec i s = .next t →
    ((∃ st p, t.trace = s.trace ++ [.resp s.issuer st p] ∧
        (st ≠ .ok → t = { s with trace := t.trace })) ∨
      (i = .start ∧ t.sched = .running ∧ t.trace = s.trace))

/-- The order of the checks of one command, the first that fails answered (R191), and of the checks at
reset. -/
def Obligations.ChecksInOrderOfPriority : Prop :=
  (∀ (who : Issuer) (w : CommandWord) (s : State),
    (∀ e, s.configFault = some e → takeCommand who w s = .next { s with
      issuer := who, trace := s.trace ++ [.resp who .configurationError (.config e)] }) ∧
    (∀ d, s.configFault = none → decodeCommand w = .error d → takeCommand who w s = .next { s with
      issuer := who, trace := s.trace ++ [.resp who .illegalCommand (.command w)] }) ∧
    (∀ i cls, s.configFault = none → decodeCommand w = .ok i → i.commandClass = some cls →
      mayIssue cls { s with issuer := who } = false → takeCommand who w s = .next { s with
        issuer := who, trace := s.trace ++ [.resp who .illegalState (.sched s.sched)] }) ∧
    (∀ i x c br, decodeCommand w = .ok (.setrgb i x c br) → Ready .buffer { s with issuer := who } →
      x ≠ 0 → takeCommand who w s = .next { s with
        issuer := who, trace := s.trace ++ [.resp who .valueError (.word1 (x ++ c))] }) ∧
    (∀ i, (decodeCommand w = .ok (.get i) ∨ (∃ r g b br, decodeCommand w = .ok (.set i r g b br)) ∨
        (∃ c br, decodeCommand w = .ok (.setrgb i 0 c br))) →
      Ready .buffer { s with issuer := who } → leds s.cfg ≤ i → takeCommand who w s = .next { s with
        issuer := who, trace := s.trace ++ [.resp who .indexError (.index i)] })) ∧
  (∀ c : Cfg,
    (c.n ≤ 0 → configError c = some .ledCount) ∧
    (0 < c.n → wireBijective c.wire = false → configError c = some .colorOrder) ∧
    (0 < c.n → wireBijective c.wire = true → configError c = orderError c))

/-- Who may issue which command when (R186): the table's cells may; in every other cell each command is
answered `IllegalState` and changes nothing. -/
def Obligations.OnlyTheTablesIssuersMayCommand : Prop :=
  (∀ (cls : CommandClass) (s : State), mayIssue cls s = true ↔
    (s.issuer = .host ∧ s.sched = .idle) ∨
    (s.issuer = .host ∧ s.sched = .stopped ∧ cls = .buffer) ∨
    (s.issuer = .agent ∧ (s.sched = .running ∨ s.sched = .draining) ∧ s.calling ≠ none ∧
      cls = .buffer)) ∧
  (∀ (i : Instr) (cls : CommandClass) (s : State), s.configFault = none →
    i.commandClass = some cls → mayIssue cls s = false → exec i s =
      .next { s with trace := s.trace ++ [.resp s.issuer .illegalState (.sched s.sched)] })

/-- A step runs the decoded instruction: a host word, a word of the function being invoked, the event and
a wire word, each decoded and run on the state from whose inbox it was taken, the issuer noted; and the
word placed for the next step is the one it takes, whether a command word of the host or of the function
being invoked, a wire word or the event. The order of the inputs, the numbering of a placed word and the
placing are the model's form (log 1, log 11, log 18), and so is a wire word taken as an input (log 10). -/
def Obligations.StepRunsTheDecodedInstruction : Prop :=
  ∀ (s : State) (rest : List Input),
    (∀ (w : CommandWord) (i : Instr), s.configFault = none → decodeCommand w = .ok i →
      step { s with inbox := .host w :: rest } = exec i { s with inbox := rest, issuer := .host } ∧
      (s.calling ≠ none →
        step { s with inbox := .agent w :: rest } = exec i { s with inbox := rest, issuer := .agent }) ∧
      (s.calling = none →
        step (s.withFetchWord 96 w.toNat) = exec i { s with issuer := .host }) ∧
      (s.calling ≠ none →
        step (s.withFetchWord 96 w.toNat) = exec i { s with issuer := .agent })) ∧
    step { s with inbox := .cancel :: rest } = exec .cancel { s with inbox := rest } ∧
    step (s.withFetchWord 0 0) = exec .cancel s ∧
    (∀ (w : Word32) (i : Instr), decodeWireQuad w = .ok i →
      step { s with inbox := .wire (.wireQuad w) :: rest } = exec i { s with inbox := rest } ∧
      step (s.withFetchWord 32 w.toNat) = exec i s) ∧
    (∀ (w : Byte) (i : Instr), decodeWireByte w = .ok i →
      step { s with inbox := .wire (.wireByte w) :: rest } = exec i { s with inbox := rest } ∧
      step (s.withFetchWord 8 w.toNat) = exec i s)

/-! ### The phases of a run -/

/-- `P_INIT` and `P_FIRST` (R143, R144): the init hook is called once with `N` and its return leads to the
first frame, a fault to the drain; without a hook the first frame follows at once; and the first frame
is sent whatever the callbacks are. That a fault's return is handled before a pending `CANCEL`, and so is
the reason recorded, is the model's choice (log 14, DEDUCED). (The field of the first reason is the
model's form, log 15.) -/
def Obligations.InitHookThenTheFirstFrame : Prop :=
  (∀ s : State, AtPhase .pInit s → s.inbox = [] →
    (s.cfg.initHook = none → step s = .next { s with phase := .pFirst }) ∧
    (∀ h, s.cfg.initHook = some h → step s = .next { s with
      calling := some ⟨h, .init (leds s.cfg)⟩, trace := s.trace ++ [.call h (.init (leds s.cfg))] })) ∧
  (∀ (s : State) (h n : Nat) (rest : List Input), s.calling = some ⟨h, .init n⟩ →
    step { s with inbox := .ret .done :: rest } = .next { s with
      inbox := rest, calling := none, phase := .pFirst, trace := s.trace ++ [.ret h .done] } ∧
    step { s with inbox := .ret .fault :: rest } = .next { s with
      inbox := rest, calling := none, sched := .draining, phase := .pShut
      exitReason := .callbackFault, firstReason := .callbackFault
      trace := s.trace ++ [.ret h .fault] }) ∧
  (∀ s : State, Inv s → AtPhase .pFirst s → s.inbox = [] →
    ∃ f t, pureFrame s = some f ∧ step s = .next t ∧
      t = { s with cache := t.cache, phase := .pTop, trace := s.trace ++ frameWrites s.cfg f })

/-- `P_TOP` (R145, R199): past the deadline, strictly, the run drains with reason `Deadline` and the tick
does not begin; otherwise `REPAINT` and `CBI` are cleared and the callbacks follow. The clock is read
only when a deadline is set. (The field of the first reason is the model's form, log 15.) -/
def Obligations.TopOfTickTestsTheDeadline : Prop :=
  ∀ s : State, AtPhase .pTop s → s.inbox = [] →
    (s.deadline = none → step s = .next { s with repaint := false, cbi := 0, phase := .pCb }) ∧
    (∀ d, s.deadline = some d → ∃ t, step s = .next t ∧ s.clock ≤ t.clock ∧
      (d < t.clock → t = { s with
        sched := .draining, phase := .pShut, exitReason := .deadline, firstReason := .deadline
        clock := t.clock, clockIn := t.clockIn, draws := t.draws }) ∧
      (t.clock ≤ d → t = { s with
        repaint := false, cbi := 0, phase := .pCb
        clock := t.clock, clockIn := t.clockIn, draws := t.draws }))

/-- `P_CB` (R146, R152): the next callback of the list is called with `(N, S, STEP, CYCLE)`; its return is
or-ed into `REPAINT` and moves to the next one, a fault drains; after the last one the repaint phase
follows. That a fault's return is handled before a pending `CANCEL`, and so is the reason recorded, is the
model's choice (log 14, DEDUCED). (The field of the first reason is the model's form, log 15.) -/
def Obligations.CallbackPhaseCallsAndCollects : Prop :=
  (∀ s : State, AtPhase .pCb s → s.inbox = [] →
    (∀ h, s.cblist[s.cbi]? = some h → step s = .next { s with
      calling := some ⟨h, .update (leds s.cfg) (stepsPerCycle s.cfg) s.step s.cycle⟩
      trace := s.trace ++ [.call h (.update (leds s.cfg) (stepsPerCycle s.cfg) s.step s.cycle)] }) ∧
    (s.cblist.length ≤ s.cbi → step s = .next { s with phase := .pPaint })) ∧
  (∀ (s : State) (h n m st cy : Nat) (rest : List Input),
    s.calling = some ⟨h, .update n m st cy⟩ →
    (∀ b : Bool, step { s with inbox := .ret (.bool b) :: rest } = .next { s with
      inbox := rest, calling := none, repaint := (s.repaint || b), cbi := s.cbi + 1, phase := .pCb
      trace := s.trace ++ [.ret h (.bool b)] }) ∧
    step { s with inbox := .ret .fault :: rest } = .next { s with
      inbox := rest, calling := none, sched := .draining, phase := .pShut
      exitReason := .callbackFault, firstReason := .callbackFault
      trace := s.trace ++ [.ret h .fault] })

/-- One tick invokes every registered callback in registration order, each with the same arguments, and
`REPAINT` is the or of all their answers, for every list of answers (R146, R162): the environment here
lets each callback return without issuing commands. That a moment without an input is a `pass` and that a
return is an input are the model's form (log 1, log 27). -/
def Obligations.OneTickCallsEveryCallbackInOrder : Prop :=
  ∀ (s : State) (bs : List Bool) (rest : List Input), AtPhase .pCb s → s.cbi = 0 →
    bs.length = s.cblist.length →
    s.inbox = (bs.flatMap fun b => [Input.pass, Input.ret (.bool b)]) ++ rest →
    Host.Core.run Sys2Proof.core (2 * bs.length) s = .next { s with
      inbox := rest
      cbi := s.cblist.length
      repaint := (s.repaint || bs.any id)
      trace := s.trace ++ ((s.cblist.zip bs).flatMap fun hb =>
        [Event.call hb.1 (.update (leds s.cfg) (stepsPerCycle s.cfg) s.step s.cycle),
         Event.ret hb.1 (.bool hb.2)]) }

/-- `P_PAINT` (R147): the frame is sent if and only if `REPAINT` is set, before the pacing wait. -/
def Obligations.RepaintSendsTheFrameIffRequested : Prop :=
  ∀ s : State, Inv s → AtPhase .pPaint s → s.inbox = [] →
    (s.repaint = false → step s = .next { s with phase := .pPace }) ∧
    (s.repaint = true → ∃ f t, pureFrame s = some f ∧ step s = .next t ∧
      t = { s with cache := t.cache, phase := .pPace, trace := s.trace ++ frameWrites s.cfg f })

/-- `P_PACE` and `P_HOLD` (R148, R155, R197): `K` goes up by one; if the clock already reads the boundary
`T0 + K*TICK` there is no wait, else the scheduler waits for it; a wait ends with the clock at or past
its boundary, or at once when `CANCEL` arrives. That a wait stands in a field between steps is the model's
form (log 8). -/
def Obligations.PacingWaitsForTheBoundary : Prop :=
  (∀ (s : State) (p q : Phase), (p = .pPace ∧ q = .pAdv) ∨ (p = .pHold ∧ q = .pCheck) →
    AtPhase p s → s.inbox = [] → ∃ t, step s = .next t ∧ s.clock ≤ t.clock ∧
      t = { s with
        k := s.k + 1, phase := q, wake := t.wake
        clock := t.clock, clockIn := t.clockIn, draws := t.draws } ∧
      (s.t0 + (s.k + 1) * tickUnits s.cfg ≤ t.clock → t.wake = none) ∧
      (t.clock < s.t0 + (s.k + 1) * tickUnits s.cfg →
        t.wake = some (s.t0 + (s.k + 1) * tickUnits s.cfg))) ∧
  (∀ (s : State) (b : Nat), s.configFault = none → s.calling = none → s.sched = .running →
    s.cancelPending = false → s.wake = some b →
    (s.inbox = [] → ∃ t, step s = .next t ∧ b ≤ t.clock ∧ s.clock ≤ t.clock ∧
      t = { s with wake := none, clock := t.clock, clockIn := t.clockIn, draws := t.draws }) ∧
    (∀ rest, step { s with inbox := .cancel :: rest } =
      .next { s with inbox := rest, wake := none, cancelPending := true }))

/-- `P_ADV` (R149): the step counter goes up to `S - 1`, then wraps to 0 and the cycle counter goes up; the
hold follows a wrap, the next tick follows otherwise; with `S = 1` every tick wraps. -/
def Obligations.StepCounterWrapsIntoTheCycleCounter : Prop :=
  ∀ s : State, AtPhase .pAdv s → s.inbox = [] →
    (s.step + 1 < stepsPerCycle s.cfg →
      step s = .next { s with step := s.step + 1, phase := .pTop }) ∧
    (stepsPerCycle s.cfg ≤ s.step + 1 →
      step s = .next { s with step := 0, cycle := s.cycle + 1, phase := .pHold }) ∧
    (stepsPerCycle s.cfg = 1 →
      step s = .next { s with step := 0, cycle := s.cycle + 1, phase := .pHold })

/-- `P_CHECK` (R156): the cycle limit first, then the deadline, else the next tick; when both hold the
reason is `CycleLimit`. (The field of the first reason is the model's form, log 15.) -/
def Obligations.CycleBoundaryTestsLimitThenDeadline : Prop :=
  ∀ s : State, AtPhase .pCheck s → s.inbox = [] →
    (∀ m, cycleMax s.cfg = some m → m ≤ s.cycle → step s = .next { s with
      sched := .draining, phase := .pShut, exitReason := .cycleLimit, firstReason := .cycleLimit }) ∧
    ((∀ m, cycleMax s.cfg = some m → s.cycle < m) →
      (s.deadline = none → step s = .next { s with phase := .pTop }) ∧
      (∀ d, s.deadline = some d → ∃ t, step s = .next t ∧ s.clock ≤ t.clock ∧
        (d < t.clock → t = { s with
          sched := .draining, phase := .pShut, exitReason := .deadline, firstReason := .deadline
          clock := t.clock, clockIn := t.clockIn, draws := t.draws }) ∧
        (t.clock ≤ d → t = { s with
          phase := .pTop, clock := t.clock, clockIn := t.clockIn, draws := t.draws })))

/-- The cancellation check at the start of every phase of `Running` (R164): when it fires the phase does
not act; the run drains, the reason being `Interrupted` unless one stands. (The field of the first reason is
the model's form, log 15.) -/
def Obligations.PendingCancelStopsEveryPhase : Prop :=
  ∀ s : State, s.configFault = none → s.calling = none → s.sched = .running →
    s.cancelPending = true → s.wake = none → s.inbox = [] →
    (s.exitReason = .noReason → step s = .next { s with
      sched := .draining, phase := .pShut, exitReason := .interrupted, firstReason := .interrupted }) ∧
    (s.exitReason ≠ .noReason → step s = .next { s with
      sched := .draining, phase := .pShut, firstReason := s.exitReason })

/-- The deadline law (R168, which the spec marks as derived): at the top of a tick with `K*TICK > DURATION` the run drains, whatever the
clock's draw, before the callbacks of that tick. -/
def Obligations.DeadlinePassedByTheScheduleDrains : Prop :=
  ∀ (s : State) (d : Nat), Inv s → AtPhase .pTop s → s.inbox = [] → durationUnits s.cfg = some d →
    d < s.k * tickUnits s.cfg →
    ∃ t, step s = .next t ∧ t.sched = .draining ∧ t.exitReason = .deadline ∧ t.phase = .pShut ∧
      t.trace = s.trace ∧ t.step = s.step ∧ t.cycle = s.cycle ∧ t.k = s.k ∧ t.buf = s.buf

/-! ### The drain -/

/-- `P_SHUT` (R158): the shutdown hook is called with `N`; whether it returns or faults the blanking
follows, a fault being recorded as the reason; without a hook the blanking follows at once. That the fault
replaces an earlier reason follows R158's pseudocode (log 15). -/
def Obligations.ShutdownHookNeverStopsTheCleanup : Prop :=
  (∀ s : State, AtDrain .pShut s → s.inbox = [] →
    (s.cfg.shutdownHook = none → step s = .next { s with phase := .pClear }) ∧
    (∀ h, s.cfg.shutdownHook = some h → step s = .next { s with
      calling := some ⟨h, .shutdown (leds s.cfg)⟩
      trace := s.trace ++ [.call h (.shutdown (leds s.cfg))] })) ∧
  (∀ (s : State) (h n : Nat) (rest : List Input), s.calling = some ⟨h, .shutdown n⟩ →
    step { s with inbox := .ret .done :: rest } = .next { s with
      inbox := rest, calling := none, phase := .pClear, trace := s.trace ++ [.ret h .done] } ∧
    step { s with inbox := .ret .fault :: rest } = .next { s with
      inbox := rest, calling := none, phase := .pClear, exitReason := .callbackFault
      trace := s.trace ++ [.ret h .fault] })

/-- Guaranteed cleanup (R159, R160, R225): from the blanking phase of every state of the invariant, two
steps send exactly one frame of black pixels, then exactly one close, then the answer to `START`, and
leave the scheduler `Stopped` with every slot `(0,0,0,0)`. That a frame is sent in one step, the transport
accepting every chunk, is the model's form (log 20, DEDUCED, unsafe; D31's premise). That the answer
`Interrupted` carries the reason recorded first, as R165 and R180 say, and not the `EXIT_REASON` that R160
writes, which differs after a fault of the shutdown hook, is the model's choice (log 15, DEDUCED, unsafe). -/
def Obligations.DrainBlanksClosesAndAnswers : Prop :=
  ∀ s : State, Inv s → AtDrain .pClear s → s.inbox = [] →
    ∃ t, Host.Core.run Sys2Proof.core 2 s = .next t ∧
      t = { s with
        cache := t.cache, buf := List.replicate (leds s.cfg) ⟨0, 0, 0, 0⟩
        sched := .stopped, phase := .pClose, closed := true
        trace := s.trace ++ frameWrites s.cfg (blankFrame s.cfg (leds s.cfg)) ++
          [.txClose, .resp .host (endOfRun s.cancelPending s.firstReason s.exitReason).1
            (endOfRun s.cancelPending s.firstReason s.exitReason).2] }

/-- The response to `START` (R160, R165, R180): `Interrupted` with the reason recorded first if `CANCEL` came,
else `CallbackFault`, else `OK` with the reason; it follows the close, once, and `CLOSED` is set. The reason
recorded first is the one of the entry to the drain, and no later step changes it: a fault of the shutdown
hook replaces `EXIT_REASON` only. That `Interrupted` carries the first reason, as R165 and R180 say, and not
the `EXIT_REASON` that R160 writes, and that it stands in a field of its own, is the model's choice (log 15,
DEDUCED, unsafe). -/
def Obligations.EndOfRunIsAnsweredAfterTheClose : Prop :=
  (∀ s : State, AtDrain .pClose s → s.inbox = [] →
    ∃ st p, step s = .next { s with
      sched := .stopped, closed := true, trace := s.trace ++ [.txClose, .resp .host st p] } ∧
    (s.cancelPending = true → st = .interrupted ∧ p = .exit s.firstReason) ∧
    (s.cancelPending = false → s.exitReason = .callbackFault → st = .callbackFault ∧ p = .empty) ∧
    (s.cancelPending = false → s.exitReason = .cycleLimit ∨ s.exitReason = .deadline →
      st = .ok ∧ p = .exit s.exitReason)) ∧
  (∀ s t : State, Inv s → noResetNext s → step s = .next t →
    (s.sched = .running → t.sched = .draining → t.firstReason = t.exitReason) ∧
    (s.sched = .draining ∨ s.sched = .stopped → t.firstReason = s.firstReason ∧
      (t.exitReason ≠ s.exitReason → t.exitReason = .callbackFault ∧
        s.inbox.head? = some (.ret .fault))))

/-! ### The whole machine -/

/-- The invariant holds after every reset the model accepts, `State.reset` among them (the configuration and
the values of log 4 and log 6 are the model's choice). -/
def Obligations.ResetMeetsTheInvariant : Prop :=
  (∀ c : Cfg, configRefused c = false → Inv (State.construct c)) ∧ Inv State.reset

/-- Every step keeps the invariant, from every state that meets it and whatever the inputs are. (What the
invariant says of the wait, the cache's layout, the first reason and the call is in the model's form, log
8, log 9, log 15, log 27.) -/
def Obligations.EveryStepKeepsTheInvariant : Prop :=
  ∀ s t : State, Inv s → step s = .next t → Inv t

/-- From a state of the invariant no step ends in a fault: every slot a frame or a `GET` reads exists, and
`PHASE` is a phase of its `SCHED` (the two faults are the model's own, log 19). -/
def Obligations.InvariantRulesOutEveryFault : Prop :=
  ∀ (s : State) (f : Fault), Inv s → step s ≠ .fault f

/-- The scheduler's transitions (R34): from a state of the invariant, without a reset, `SCHED` moves only
`Idle → Running → Draining → Stopped`, and `Stopped` stays. -/
def Obligations.SchedulerMovesOnlyForward : Prop :=
  ∀ s t : State, Inv s → noResetNext s → step s = .next t →
    t.sched = s.sched ∨ (s.sched = .idle ∧ t.sched = .running) ∨
    (s.sched = .running ∧ t.sched = .draining) ∨ (s.sched = .draining ∧ t.sched = .stopped)

/-- The configuration, the order and the configuration fault change at a reset only (R16, R32). -/
def Obligations.ConfigurationChangesAtResetOnly : Prop :=
  ∀ s t : State, noResetNext s → step s = .next t →
    t.cfg = s.cfg ∧ t.ord = s.ord ∧ t.configFault = s.configFault

/-- The output trace only grows and the clock never runs backwards (R52, R196). That a reset keeps both is the
model's choice (log 17, DEDUCED). -/
def Obligations.TraceGrowsAndClockNeverRunsBack : Prop :=
  ∀ s t : State, step s = .next t → s.trace <+: t.trace ∧ s.clock ≤ t.clock

/-- The callback list changes, reset apart, only by a `REGCB` of the host in `Idle`, which appends its
handle (R17, R55, R141). -/
def Obligations.CallbackListChangesByRegcbOnly : Prop :=
  ∀ s t : State, noResetNext s → step s = .next t → t.cblist ≠ s.cblist →
    ∃ w h, s.inbox.head? = some (.host w) ∧ decodeCommand w = .ok (.regcb h) ∧ s.sched = .idle ∧
      t.cblist = s.cblist ++ [h]

/-- No instruction touches the transport: whatever a command, a wire row or the event appends to the
trace is no `TxWrite` and no `TxClose` (R110, R116, R161). That a wire row runs alone, on a frame under
assembly and with no transport event, is the model's choice (log 10, DESIGN CHOICE). -/
def Obligations.InstructionsNeverTouchTheTransport : Prop :=
  ∀ (i : Instr) (s t : State), exec i s = .next t →
    ∃ es, t.trace = s.trace ++ es ∧ ∀ e ∈ es, e.onTransport = false

/-- After `Stopped` nothing is sent until a reset (R151, R167): from a state of the invariant a step sends no
chunk and no close and the scheduler stays `Stopped`; and outside a run no step sends anything. That a wire
row run alone sends nothing either is the model's choice (log 10). -/
def Obligations.NothingIsSentOutsideARun : Prop :=
  ∀ s t : State, Inv s → noResetNext s → step s = .next t → runInProgress s.sched = false →
    (∃ es, t.trace = s.trace ++ es ∧ ∀ e ∈ es, e.onTransport = false) ∧
    (s.sched = .stopped → t.sched = .stopped)

/-- Configuration fault (R213): every command word of the host is answered `ConfigurationError` with the
cause and info reset found, legal or not; the scheduler takes no step; `CANCEL` is ignored; a reset
with a legal configuration leaves the condition. A `pass`, and a step that leaves the state as it is, are the
model's form (log 1, log 23). -/
def Obligations.ConfigurationFaultOnlyAnswers : Prop :=
  ∀ (s : State) (e : ConfigError) (rest : List Input), s.configFault = some e →
    (∀ w : CommandWord, step { s with inbox := .host w :: rest } = .next { s with
      inbox := rest, issuer := .host
      trace := s.trace ++ [.resp .host .configurationError (.config e)] }) ∧
    step { s with inbox := [] } = .next { s with inbox := [] } ∧
    step { s with inbox := .pass :: rest } = .next { s with inbox := rest } ∧
    step { s with inbox := .cancel :: rest } = .next { s with inbox := rest } ∧
    (∀ c : Cfg, configRefused c = false → configError c = none →
      ∃ t, step { s with inbox := .reset c :: rest } = .next t ∧ t.configFault = none)

/-- A whole run (R163, R167, and R166, which the spec marks as derived, for an empty callback list): from every `Idle` state of the invariant
with no callbacks, hooks or deadline and a cycle limit `C`, and nothing arriving after the `START` word,
the machine stops by itself; the transport got the initial frame, one blank frame and one close,
in that order; `START` is answered `CycleLimit`; `CYCLE = C` and `K = C*S + C`. That the run ends rests on
the model's transport, which accepts every chunk at once (log 20, DEDUCED, unsafe; D31's premise), and on
its waits, each of which the next move ends (log 8, DESIGN CHOICE, unsafe). -/
def Obligations.RunWithoutCallbacksEndsAtTheCycleLimit : Prop :=
  ∀ (s : State) (limit : Nat), Inv s → s.configFault = none → s.sched = .idle → s.cblist = [] →
    s.cfg.initHook = none → s.cfg.shutdownHook = none → durationUnits s.cfg = none →
    cycleMax s.cfg = some limit → s.inbox = [.host 0x110000000000000000000000] →
    ∃ (n : Nat) (f : List Byte) (t : State), pureFrame s = some f ∧
      Host.Core.run Sys2Proof.core n s = .next t ∧ t.sched = .stopped ∧ t.closed = true ∧
      t.cycle = limit ∧ t.step = 0 ∧ t.k = limit * stepsPerCycle s.cfg + limit ∧
      t.buf = List.replicate (leds s.cfg) ⟨0, 0, 0, 0⟩ ∧
      t.trace = s.trace ++ frameWrites s.cfg f ++
        frameWrites s.cfg (blankFrame s.cfg (leds s.cfg)) ++
        [.txClose, .resp .host .ok (.exit .cycleLimit)]
end

