-- ==== Sys2Proof/Laws/Decode.lean ====
section
/-! SUPPORT. The fields of a packed command word, and a command word from its fields: what the encoding and
decoding statements rest on. -/

namespace Sys2Proof.Laws

theorem append_toNat {m n : Nat} (a : BitVec m) (b : BitVec n) :
    (a ++ b).toNat = a.toNat * 2 ^ n + b.toNat := by
  rw [BitVec.toNat_append, ← Nat.shiftLeft_add_eq_or_of_lt b.isLt, Nat.shiftLeft_eq]

/-- The command word as a number (R61). -/
theorem packCommand_toNat (op : BitVec 8) (idx : BitVec 24) (w1 w2 : Word32) :
    (packCommand op idx w1 w2).toNat =
      op.toNat * 2 ^ 88 + idx.toNat * 2 ^ 64 + w1.toNat * 2 ^ 32 + w2.toNat := by
  unfold packCommand; simp only [append_toNat]; omega

@[simp] theorem opField_pack (op : BitVec 8) (idx : BitVec 24) (w1 w2 : Word32) :
    opField (packCommand op idx w1 w2) = op := by
  apply BitVec.eq_of_toNat_eq
  simp only [opField, BitVec.extractLsb'_toNat, packCommand_toNat, Nat.shiftRight_eq_div_pow]
  have := op.isLt; have := idx.isLt; have := w1.isLt; have := w2.isLt
  omega

@[simp] theorem idxField_pack (op : BitVec 8) (idx : BitVec 24) (w1 w2 : Word32) :
    idxField (packCommand op idx w1 w2) = idx := by
  apply BitVec.eq_of_toNat_eq
  simp only [idxField, BitVec.extractLsb'_toNat, packCommand_toNat, Nat.shiftRight_eq_div_pow]
  have := op.isLt; have := idx.isLt; have := w1.isLt; have := w2.isLt
  omega

@[simp] theorem w1Field_pack (op : BitVec 8) (idx : BitVec 24) (w1 w2 : Word32) :
    w1Field (packCommand op idx w1 w2) = w1 := by
  apply BitVec.eq_of_toNat_eq
  simp only [w1Field, BitVec.extractLsb'_toNat, packCommand_toNat, Nat.shiftRight_eq_div_pow]
  have := op.isLt; have := idx.isLt; have := w1.isLt; have := w2.isLt
  omega

@[simp] theorem w2Field_pack (op : BitVec 8) (idx : BitVec 24) (w1 w2 : Word32) :
    w2Field (packCommand op idx w1 w2) = w2 := by
  apply BitVec.eq_of_toNat_eq
  simp only [w2Field, BitVec.extractLsb'_toNat, packCommand_toNat, Nat.shiftRight_eq_div_pow]
  have := op.isLt; have := idx.isLt; have := w1.isLt; have := w2.isLt
  omega

/-- The narrower fields are parts of `W1` and `W2` (R61, R62). -/
theorem aField_eq (w : CommandWord) : aField w = (w1Field w).extractLsb' 16 16 := by
  apply BitVec.eq_of_toNat_eq
  simp only [aField, w1Field, BitVec.extractLsb'_toNat, Nat.shiftRight_eq_div_pow]
  have := w.isLt
  omega

theorem bField_eq (w : CommandWord) : bField w = (w1Field w).extractLsb' 0 16 := by
  apply BitVec.eq_of_toNat_eq
  simp only [bField, w1Field, BitVec.extractLsb'_toNat, Nat.shiftRight_eq_div_pow]
  have := w.isLt
  omega

theorem cField_eq (w : CommandWord) : cField w = (w2Field w).extractLsb' 16 16 := by
  apply BitVec.eq_of_toNat_eq
  simp only [cField, w2Field, BitVec.extractLsb'_toNat, Nat.shiftRight_eq_div_pow]
  have := w.isLt
  omega

theorem dField_eq (w : CommandWord) : dField w = (w2Field w).extractLsb' 0 16 := by
  apply BitVec.eq_of_toNat_eq
  simp only [dField, w2Field, BitVec.extractLsb'_toNat, Nat.shiftRight_eq_div_pow]
  have := w.isLt
  omega

theorem xField_eq (w : CommandWord) : xField w = (w1Field w).extractLsb' 24 8 := by
  apply BitVec.eq_of_toNat_eq
  simp only [xField, w1Field, BitVec.extractLsb'_toNat, Nat.shiftRight_eq_div_pow]
  have := w.isLt
  omega

theorem rgbField_eq (w : CommandWord) : rgbField w = (w1Field w).extractLsb' 0 24 := by
  apply BitVec.eq_of_toNat_eq
  simp only [rgbField, w1Field, BitVec.extractLsb'_toNat, Nat.shiftRight_eq_div_pow]
  have := w.isLt
  omega

/-- The parts of a concatenation. -/
theorem extractHigh_append {m n : Nat} (a : BitVec m) (b : BitVec n) : (a ++ b).extractLsb' n m = a := by
  apply BitVec.eq_of_toNat_eq
  rw [BitVec.extractLsb'_toNat, append_toNat, Nat.shiftRight_eq_div_pow, Nat.mul_comm,
    Nat.mul_add_div (Nat.two_pow_pos n), Nat.div_eq_of_lt b.isLt, Nat.add_zero, Nat.mod_eq_of_lt a.isLt]

theorem extractLow_append {m n : Nat} (a : BitVec m) (b : BitVec n) : (a ++ b).extractLsb' 0 n = b := by
  apply BitVec.eq_of_toNat_eq
  rw [BitVec.extractLsb'_toNat, append_toNat, Nat.shiftRight_zero, Nat.mul_comm, Nat.mul_add_mod,
    Nat.mod_eq_of_lt b.isLt]

/-- A command word is packed from its four parts (R61). -/
theorem packCommand_fields (w : CommandWord) :
    packCommand (opField w) (idxField w) (w1Field w) (w2Field w) = w := by
  apply BitVec.eq_of_toNat_eq
  rw [packCommand_toNat]
  simp only [opField, idxField, w1Field, w2Field, BitVec.extractLsb'_toNat, Nat.shiftRight_eq_div_pow]
  have := w.isLt
  omega

theorem packCommand_inj {op op' : BitVec 8} {idx idx' : BitVec 24} {w1 w1' w2 w2' : Word32} :
    packCommand op idx w1 w2 = packCommand op' idx' w1' w2' ↔
      op = op' ∧ idx = idx' ∧ w1 = w1' ∧ w2 = w2' := by
  constructor
  · intro h
    exact ⟨by simpa using congrArg opField h, by simpa using congrArg idxField h,
      by simpa using congrArg w1Field h, by simpa using congrArg w2Field h⟩
  · rintro ⟨rfl, rfl, rfl, rfl⟩; rfl

/-- Masking a command word masks its parts (R67). -/
theorem packCommand_and (op op' : BitVec 8) (idx idx' : BitVec 24) (w1 w1' w2 w2' : Word32) :
    packCommand op idx w1 w2 &&& packCommand op' idx' w1' w2' =
      packCommand (op &&& op') (idx &&& idx') (w1 &&& w1') (w2 &&& w2') := by
  simp only [packCommand]
  rw [BitVec.and_append, BitVec.and_append, BitVec.and_append]

/-- A row of the table selects a word by its parts (R67). -/
theorem row_selects_iff (w : CommandWord) (op op' : BitVec 8) (idx idx' : BitVec 24) (w1 w1' w2 w2' : Word32) :
    Row.selects ⟨packCommand op idx w1 w2, packCommand op' idx' w1' w2'⟩ w = true ↔
      opField w &&& op' = op ∧ idxField w &&& idx' = idx ∧ w1Field w &&& w1' = w1 ∧
        w2Field w &&& w2' = w2 := by
  rw [Row.selects, decide_eq_true_iff]
  conv_lhs => rw [← packCommand_fields w, packCommand_and, packCommand_inj]

/-- A two's-complement field gives back an integer in its range (R64). -/
theorem toInt_field16 {v : Int} (h : fitsSigned 15 v = true) : (field16 v).toInt = v := by
  simp only [fitsSigned, Bool.and_eq_true, decide_eq_true_eq] at h
  rw [field16, BitVec.toInt_ofInt, Int.bmod_eq_of_le] <;> omega

theorem field16_toInt (b : BitVec 16) : field16 b.toInt = b := BitVec.ofInt_toInt

theorem fitsSigned_toInt (b : BitVec 16) : fitsSigned 15 b.toInt = true := by
  simp only [fitsSigned, Bool.and_eq_true, decide_eq_true_eq]
  have h1 := b.le_toInt; have h2 := b.toInt_lt
  constructor <;> simpa using ‹_›

end Sys2Proof.Laws
end

