-- ==== Sys2Proof/Laws/State.lean ====
section
/-! SUPPORT. One lemma per field for each shared update of State, so that no later proof unfolds a record
update. -/

namespace Sys2Proof.Laws

open Sys2Proof.Machine

/-! ### emit -/

@[simp] theorem emit_cfg (e : Event) (s : State) : (emit e s).cfg = s.cfg := rfl
@[simp] theorem emit_buf (e : Event) (s : State) : (emit e s).buf = s.buf := rfl
@[simp] theorem emit_ord (e : Event) (s : State) : (emit e s).ord = s.ord := rfl
@[simp] theorem emit_cblist (e : Event) (s : State) : (emit e s).cblist = s.cblist := rfl
@[simp] theorem emit_cache (e : Event) (s : State) : (emit e s).cache = s.cache := rfl
@[simp] theorem emit_sched (e : Event) (s : State) : (emit e s).sched = s.sched := rfl
@[simp] theorem emit_phase (e : Event) (s : State) : (emit e s).phase = s.phase := rfl
@[simp] theorem emit_step (e : Event) (s : State) : (emit e s).step = s.step := rfl
@[simp] theorem emit_cycle (e : Event) (s : State) : (emit e s).cycle = s.cycle := rfl
@[simp] theorem emit_k (e : Event) (s : State) : (emit e s).k = s.k := rfl
@[simp] theorem emit_cbi (e : Event) (s : State) : (emit e s).cbi = s.cbi := rfl
@[simp] theorem emit_t0 (e : Event) (s : State) : (emit e s).t0 = s.t0 := rfl
@[simp] theorem emit_deadline (e : Event) (s : State) : (emit e s).deadline = s.deadline := rfl
@[simp] theorem emit_repaint (e : Event) (s : State) : (emit e s).repaint = s.repaint := rfl
@[simp] theorem emit_cancelPending (e : Event) (s : State) : (emit e s).cancelPending = s.cancelPending := rfl
@[simp] theorem emit_configFault (e : Event) (s : State) : (emit e s).configFault = s.configFault := rfl
@[simp] theorem emit_closed (e : Event) (s : State) : (emit e s).closed = s.closed := rfl
@[simp] theorem emit_exitReason (e : Event) (s : State) : (emit e s).exitReason = s.exitReason := rfl
@[simp] theorem emit_firstReason (e : Event) (s : State) : (emit e s).firstReason = s.firstReason := rfl
@[simp] theorem emit_calling (e : Event) (s : State) : (emit e s).calling = s.calling := rfl
@[simp] theorem emit_wake (e : Event) (s : State) : (emit e s).wake = s.wake := rfl
@[simp] theorem emit_issuer (e : Event) (s : State) : (emit e s).issuer = s.issuer := rfl
@[simp] theorem emit_asm (e : Event) (s : State) : (emit e s).asm = s.asm := rfl
@[simp] theorem emit_clock (e : Event) (s : State) : (emit e s).clock = s.clock := rfl
@[simp] theorem emit_clockIn (e : Event) (s : State) : (emit e s).clockIn = s.clockIn := rfl
@[simp] theorem emit_draws (e : Event) (s : State) : (emit e s).draws = s.draws := rfl
@[simp] theorem emit_inbox (e : Event) (s : State) : (emit e s).inbox = s.inbox := rfl
@[simp] theorem emit_trace (e : Event) (s : State) : (emit e s).trace = s.trace ++ [e] := rfl

/-! ### respond -/

@[simp] theorem respond_cfg (st : Status) (p : Payload) (s : State) : (respond st p s).cfg = s.cfg := rfl
@[simp] theorem respond_buf (st : Status) (p : Payload) (s : State) : (respond st p s).buf = s.buf := rfl
@[simp] theorem respond_ord (st : Status) (p : Payload) (s : State) : (respond st p s).ord = s.ord := rfl
@[simp] theorem respond_cblist (st : Status) (p : Payload) (s : State) : (respond st p s).cblist = s.cblist := rfl
@[simp] theorem respond_cache (st : Status) (p : Payload) (s : State) : (respond st p s).cache = s.cache := rfl
@[simp] theorem respond_sched (st : Status) (p : Payload) (s : State) : (respond st p s).sched = s.sched := rfl
@[simp] theorem respond_phase (st : Status) (p : Payload) (s : State) : (respond st p s).phase = s.phase := rfl
@[simp] theorem respond_step (st : Status) (p : Payload) (s : State) : (respond st p s).step = s.step := rfl
@[simp] theorem respond_cycle (st : Status) (p : Payload) (s : State) : (respond st p s).cycle = s.cycle := rfl
@[simp] theorem respond_k (st : Status) (p : Payload) (s : State) : (respond st p s).k = s.k := rfl
@[simp] theorem respond_cbi (st : Status) (p : Payload) (s : State) : (respond st p s).cbi = s.cbi := rfl
@[simp] theorem respond_t0 (st : Status) (p : Payload) (s : State) : (respond st p s).t0 = s.t0 := rfl
@[simp] theorem respond_deadline (st : Status) (p : Payload) (s : State) : (respond st p s).deadline = s.deadline := rfl
@[simp] theorem respond_repaint (st : Status) (p : Payload) (s : State) : (respond st p s).repaint = s.repaint := rfl
@[simp] theorem respond_cancelPending (st : Status) (p : Payload) (s : State) : (respond st p s).cancelPending = s.cancelPending := rfl
@[simp] theorem respond_configFault (st : Status) (p : Payload) (s : State) : (respond st p s).configFault = s.configFault := rfl
@[simp] theorem respond_closed (st : Status) (p : Payload) (s : State) : (respond st p s).closed = s.closed := rfl
@[simp] theorem respond_exitReason (st : Status) (p : Payload) (s : State) : (respond st p s).exitReason = s.exitReason := rfl
@[simp] theorem respond_firstReason (st : Status) (p : Payload) (s : State) : (respond st p s).firstReason = s.firstReason := rfl
@[simp] theorem respond_calling (st : Status) (p : Payload) (s : State) : (respond st p s).calling = s.calling := rfl
@[simp] theorem respond_wake (st : Status) (p : Payload) (s : State) : (respond st p s).wake = s.wake := rfl
@[simp] theorem respond_issuer (st : Status) (p : Payload) (s : State) : (respond st p s).issuer = s.issuer := rfl
@[simp] theorem respond_asm (st : Status) (p : Payload) (s : State) : (respond st p s).asm = s.asm := rfl
@[simp] theorem respond_clock (st : Status) (p : Payload) (s : State) : (respond st p s).clock = s.clock := rfl
@[simp] theorem respond_clockIn (st : Status) (p : Payload) (s : State) : (respond st p s).clockIn = s.clockIn := rfl
@[simp] theorem respond_draws (st : Status) (p : Payload) (s : State) : (respond st p s).draws = s.draws := rfl
@[simp] theorem respond_inbox (st : Status) (p : Payload) (s : State) : (respond st p s).inbox = s.inbox := rfl
@[simp] theorem respond_trace (st : Status) (p : Payload) (s : State) : (respond st p s).trace = s.trace ++ [.resp s.issuer st p] := rfl

/-! ### readClock -/

@[simp] theorem readClock_cfg (s : State) : (readClock s).cfg = s.cfg := rfl
@[simp] theorem readClock_buf (s : State) : (readClock s).buf = s.buf := rfl
@[simp] theorem readClock_ord (s : State) : (readClock s).ord = s.ord := rfl
@[simp] theorem readClock_cblist (s : State) : (readClock s).cblist = s.cblist := rfl
@[simp] theorem readClock_cache (s : State) : (readClock s).cache = s.cache := rfl
@[simp] theorem readClock_sched (s : State) : (readClock s).sched = s.sched := rfl
@[simp] theorem readClock_phase (s : State) : (readClock s).phase = s.phase := rfl
@[simp] theorem readClock_step (s : State) : (readClock s).step = s.step := rfl
@[simp] theorem readClock_cycle (s : State) : (readClock s).cycle = s.cycle := rfl
@[simp] theorem readClock_k (s : State) : (readClock s).k = s.k := rfl
@[simp] theorem readClock_cbi (s : State) : (readClock s).cbi = s.cbi := rfl
@[simp] theorem readClock_t0 (s : State) : (readClock s).t0 = s.t0 := rfl
@[simp] theorem readClock_deadline (s : State) : (readClock s).deadline = s.deadline := rfl
@[simp] theorem readClock_repaint (s : State) : (readClock s).repaint = s.repaint := rfl
@[simp] theorem readClock_cancelPending (s : State) : (readClock s).cancelPending = s.cancelPending := rfl
@[simp] theorem readClock_configFault (s : State) : (readClock s).configFault = s.configFault := rfl
@[simp] theorem readClock_closed (s : State) : (readClock s).closed = s.closed := rfl
@[simp] theorem readClock_exitReason (s : State) : (readClock s).exitReason = s.exitReason := rfl
@[simp] theorem readClock_firstReason (s : State) : (readClock s).firstReason = s.firstReason := rfl
@[simp] theorem readClock_calling (s : State) : (readClock s).calling = s.calling := rfl
@[simp] theorem readClock_wake (s : State) : (readClock s).wake = s.wake := rfl
@[simp] theorem readClock_issuer (s : State) : (readClock s).issuer = s.issuer := rfl
@[simp] theorem readClock_asm (s : State) : (readClock s).asm = s.asm := rfl
@[simp] theorem readClock_clock (s : State) : (readClock s).clock = s.clock + clockAdvance s := rfl
@[simp] theorem readClock_clockIn (s : State) : (readClock s).clockIn = s.clockIn.tail := rfl
@[simp] theorem readClock_draws (s : State) : (readClock s).draws = s.draws + (if s.clockIn = [] then 1 else 0) := rfl
@[simp] theorem readClock_inbox (s : State) : (readClock s).inbox = s.inbox := rfl
@[simp] theorem readClock_trace (s : State) : (readClock s).trace = s.trace := rfl

/-! ### enterDrain -/

@[simp] theorem enterDrain_cfg (s : State) : (enterDrain s).cfg = s.cfg := rfl
@[simp] theorem enterDrain_buf (s : State) : (enterDrain s).buf = s.buf := rfl
@[simp] theorem enterDrain_ord (s : State) : (enterDrain s).ord = s.ord := rfl
@[simp] theorem enterDrain_cblist (s : State) : (enterDrain s).cblist = s.cblist := rfl
@[simp] theorem enterDrain_cache (s : State) : (enterDrain s).cache = s.cache := rfl
@[simp] theorem enterDrain_sched (s : State) : (enterDrain s).sched = .draining := rfl
@[simp] theorem enterDrain_phase (s : State) : (enterDrain s).phase = .pShut := rfl
@[simp] theorem enterDrain_step (s : State) : (enterDrain s).step = s.step := rfl
@[simp] theorem enterDrain_cycle (s : State) : (enterDrain s).cycle = s.cycle := rfl
@[simp] theorem enterDrain_k (s : State) : (enterDrain s).k = s.k := rfl
@[simp] theorem enterDrain_cbi (s : State) : (enterDrain s).cbi = s.cbi := rfl
@[simp] theorem enterDrain_t0 (s : State) : (enterDrain s).t0 = s.t0 := rfl
@[simp] theorem enterDrain_deadline (s : State) : (enterDrain s).deadline = s.deadline := rfl
@[simp] theorem enterDrain_repaint (s : State) : (enterDrain s).repaint = s.repaint := rfl
@[simp] theorem enterDrain_cancelPending (s : State) : (enterDrain s).cancelPending = s.cancelPending := rfl
@[simp] theorem enterDrain_configFault (s : State) : (enterDrain s).configFault = s.configFault := rfl
@[simp] theorem enterDrain_closed (s : State) : (enterDrain s).closed = s.closed := rfl
@[simp] theorem enterDrain_exitReason (s : State) : (enterDrain s).exitReason = s.exitReason := rfl
@[simp] theorem enterDrain_firstReason (s : State) : (enterDrain s).firstReason = s.firstReason := rfl
@[simp] theorem enterDrain_calling (s : State) : (enterDrain s).calling = s.calling := rfl
@[simp] theorem enterDrain_wake (s : State) : (enterDrain s).wake = s.wake := rfl
@[simp] theorem enterDrain_issuer (s : State) : (enterDrain s).issuer = s.issuer := rfl
@[simp] theorem enterDrain_asm (s : State) : (enterDrain s).asm = s.asm := rfl
@[simp] theorem enterDrain_clock (s : State) : (enterDrain s).clock = s.clock := rfl
@[simp] theorem enterDrain_clockIn (s : State) : (enterDrain s).clockIn = s.clockIn := rfl
@[simp] theorem enterDrain_draws (s : State) : (enterDrain s).draws = s.draws := rfl
@[simp] theorem enterDrain_inbox (s : State) : (enterDrain s).inbox = s.inbox := rfl
@[simp] theorem enterDrain_trace (s : State) : (enterDrain s).trace = s.trace := rfl

/-! ### drainFor -/

@[simp] theorem drainFor_cfg (r : ExitReason) (s : State) : (drainFor r s).cfg = s.cfg := rfl
@[simp] theorem drainFor_buf (r : ExitReason) (s : State) : (drainFor r s).buf = s.buf := rfl
@[simp] theorem drainFor_ord (r : ExitReason) (s : State) : (drainFor r s).ord = s.ord := rfl
@[simp] theorem drainFor_cblist (r : ExitReason) (s : State) : (drainFor r s).cblist = s.cblist := rfl
@[simp] theorem drainFor_cache (r : ExitReason) (s : State) : (drainFor r s).cache = s.cache := rfl
@[simp] theorem drainFor_sched (r : ExitReason) (s : State) : (drainFor r s).sched = .draining := rfl
@[simp] theorem drainFor_phase (r : ExitReason) (s : State) : (drainFor r s).phase = .pShut := rfl
@[simp] theorem drainFor_step (r : ExitReason) (s : State) : (drainFor r s).step = s.step := rfl
@[simp] theorem drainFor_cycle (r : ExitReason) (s : State) : (drainFor r s).cycle = s.cycle := rfl
@[simp] theorem drainFor_k (r : ExitReason) (s : State) : (drainFor r s).k = s.k := rfl
@[simp] theorem drainFor_cbi (r : ExitReason) (s : State) : (drainFor r s).cbi = s.cbi := rfl
@[simp] theorem drainFor_t0 (r : ExitReason) (s : State) : (drainFor r s).t0 = s.t0 := rfl
@[simp] theorem drainFor_deadline (r : ExitReason) (s : State) : (drainFor r s).deadline = s.deadline := rfl
@[simp] theorem drainFor_repaint (r : ExitReason) (s : State) : (drainFor r s).repaint = s.repaint := rfl
@[simp] theorem drainFor_cancelPending (r : ExitReason) (s : State) : (drainFor r s).cancelPending = s.cancelPending := rfl
@[simp] theorem drainFor_configFault (r : ExitReason) (s : State) : (drainFor r s).configFault = s.configFault := rfl
@[simp] theorem drainFor_closed (r : ExitReason) (s : State) : (drainFor r s).closed = s.closed := rfl
@[simp] theorem drainFor_exitReason (r : ExitReason) (s : State) : (drainFor r s).exitReason = r := rfl
@[simp] theorem drainFor_firstReason (r : ExitReason) (s : State) : (drainFor r s).firstReason = r := rfl
@[simp] theorem drainFor_calling (r : ExitReason) (s : State) : (drainFor r s).calling = s.calling := rfl
@[simp] theorem drainFor_wake (r : ExitReason) (s : State) : (drainFor r s).wake = s.wake := rfl
@[simp] theorem drainFor_issuer (r : ExitReason) (s : State) : (drainFor r s).issuer = s.issuer := rfl
@[simp] theorem drainFor_asm (r : ExitReason) (s : State) : (drainFor r s).asm = s.asm := rfl
@[simp] theorem drainFor_clock (r : ExitReason) (s : State) : (drainFor r s).clock = s.clock := rfl
@[simp] theorem drainFor_clockIn (r : ExitReason) (s : State) : (drainFor r s).clockIn = s.clockIn := rfl
@[simp] theorem drainFor_draws (r : ExitReason) (s : State) : (drainFor r s).draws = s.draws := rfl
@[simp] theorem drainFor_inbox (r : ExitReason) (s : State) : (drainFor r s).inbox = s.inbox := rfl
@[simp] theorem drainFor_trace (r : ExitReason) (s : State) : (drainFor r s).trace = s.trace := rfl

/-! ### invoke -/

@[simp] theorem invoke_cfg (h : Nat) (a : CallArgs) (s : State) : (invoke h a s).cfg = s.cfg := rfl
@[simp] theorem invoke_buf (h : Nat) (a : CallArgs) (s : State) : (invoke h a s).buf = s.buf := rfl
@[simp] theorem invoke_ord (h : Nat) (a : CallArgs) (s : State) : (invoke h a s).ord = s.ord := rfl
@[simp] theorem invoke_cblist (h : Nat) (a : CallArgs) (s : State) : (invoke h a s).cblist = s.cblist := rfl
@[simp] theorem invoke_cache (h : Nat) (a : CallArgs) (s : State) : (invoke h a s).cache = s.cache := rfl
@[simp] theorem invoke_sched (h : Nat) (a : CallArgs) (s : State) : (invoke h a s).sched = s.sched := rfl
@[simp] theorem invoke_phase (h : Nat) (a : CallArgs) (s : State) : (invoke h a s).phase = s.phase := rfl
@[simp] theorem invoke_step (h : Nat) (a : CallArgs) (s : State) : (invoke h a s).step = s.step := rfl
@[simp] theorem invoke_cycle (h : Nat) (a : CallArgs) (s : State) : (invoke h a s).cycle = s.cycle := rfl
@[simp] theorem invoke_k (h : Nat) (a : CallArgs) (s : State) : (invoke h a s).k = s.k := rfl
@[simp] theorem invoke_cbi (h : Nat) (a : CallArgs) (s : State) : (invoke h a s).cbi = s.cbi := rfl
@[simp] theorem invoke_t0 (h : Nat) (a : CallArgs) (s : State) : (invoke h a s).t0 = s.t0 := rfl
@[simp] theorem invoke_deadline (h : Nat) (a : CallArgs) (s : State) : (invoke h a s).deadline = s.deadline := rfl
@[simp] theorem invoke_repaint (h : Nat) (a : CallArgs) (s : State) : (invoke h a s).repaint = s.repaint := rfl
@[simp] theorem invoke_cancelPending (h : Nat) (a : CallArgs) (s : State) : (invoke h a s).cancelPending = s.cancelPending := rfl
@[simp] theorem invoke_configFault (h : Nat) (a : CallArgs) (s : State) : (invoke h a s).configFault = s.configFault := rfl
@[simp] theorem invoke_closed (h : Nat) (a : CallArgs) (s : State) : (invoke h a s).closed = s.closed := rfl
@[simp] theorem invoke_exitReason (h : Nat) (a : CallArgs) (s : State) : (invoke h a s).exitReason = s.exitReason := rfl
@[simp] theorem invoke_firstReason (h : Nat) (a : CallArgs) (s : State) : (invoke h a s).firstReason = s.firstReason := rfl
@[simp] theorem invoke_calling (h : Nat) (a : CallArgs) (s : State) : (invoke h a s).calling = some ⟨h, a⟩ := rfl
@[simp] theorem invoke_wake (h : Nat) (a : CallArgs) (s : State) : (invoke h a s).wake = s.wake := rfl
@[simp] theorem invoke_issuer (h : Nat) (a : CallArgs) (s : State) : (invoke h a s).issuer = s.issuer := rfl
@[simp] theorem invoke_asm (h : Nat) (a : CallArgs) (s : State) : (invoke h a s).asm = s.asm := rfl
@[simp] theorem invoke_clock (h : Nat) (a : CallArgs) (s : State) : (invoke h a s).clock = s.clock := rfl
@[simp] theorem invoke_clockIn (h : Nat) (a : CallArgs) (s : State) : (invoke h a s).clockIn = s.clockIn := rfl
@[simp] theorem invoke_draws (h : Nat) (a : CallArgs) (s : State) : (invoke h a s).draws = s.draws := rfl
@[simp] theorem invoke_inbox (h : Nat) (a : CallArgs) (s : State) : (invoke h a s).inbox = s.inbox := rfl
@[simp] theorem invoke_trace (h : Nat) (a : CallArgs) (s : State) : (invoke h a s).trace = s.trace ++ [.call h a] := rfl

/-! ### endCall -/

@[simp] theorem endCall_cfg (h : Nat) (r : Ret) (s : State) : (endCall h r s).cfg = s.cfg := rfl
@[simp] theorem endCall_buf (h : Nat) (r : Ret) (s : State) : (endCall h r s).buf = s.buf := rfl
@[simp] theorem endCall_ord (h : Nat) (r : Ret) (s : State) : (endCall h r s).ord = s.ord := rfl
@[simp] theorem endCall_cblist (h : Nat) (r : Ret) (s : State) : (endCall h r s).cblist = s.cblist := rfl
@[simp] theorem endCall_cache (h : Nat) (r : Ret) (s : State) : (endCall h r s).cache = s.cache := rfl
@[simp] theorem endCall_sched (h : Nat) (r : Ret) (s : State) : (endCall h r s).sched = s.sched := rfl
@[simp] theorem endCall_phase (h : Nat) (r : Ret) (s : State) : (endCall h r s).phase = s.phase := rfl
@[simp] theorem endCall_step (h : Nat) (r : Ret) (s : State) : (endCall h r s).step = s.step := rfl
@[simp] theorem endCall_cycle (h : Nat) (r : Ret) (s : State) : (endCall h r s).cycle = s.cycle := rfl
@[simp] theorem endCall_k (h : Nat) (r : Ret) (s : State) : (endCall h r s).k = s.k := rfl
@[simp] theorem endCall_cbi (h : Nat) (r : Ret) (s : State) : (endCall h r s).cbi = s.cbi := rfl
@[simp] theorem endCall_t0 (h : Nat) (r : Ret) (s : State) : (endCall h r s).t0 = s.t0 := rfl
@[simp] theorem endCall_deadline (h : Nat) (r : Ret) (s : State) : (endCall h r s).deadline = s.deadline := rfl
@[simp] theorem endCall_repaint (h : Nat) (r : Ret) (s : State) : (endCall h r s).repaint = s.repaint := rfl
@[simp] theorem endCall_cancelPending (h : Nat) (r : Ret) (s : State) : (endCall h r s).cancelPending = s.cancelPending := rfl
@[simp] theorem endCall_configFault (h : Nat) (r : Ret) (s : State) : (endCall h r s).configFault = s.configFault := rfl
@[simp] theorem endCall_closed (h : Nat) (r : Ret) (s : State) : (endCall h r s).closed = s.closed := rfl
@[simp] theorem endCall_exitReason (h : Nat) (r : Ret) (s : State) : (endCall h r s).exitReason = s.exitReason := rfl
@[simp] theorem endCall_firstReason (h : Nat) (r : Ret) (s : State) : (endCall h r s).firstReason = s.firstReason := rfl
@[simp] theorem endCall_calling (h : Nat) (r : Ret) (s : State) : (endCall h r s).calling = none := rfl
@[simp] theorem endCall_wake (h : Nat) (r : Ret) (s : State) : (endCall h r s).wake = s.wake := rfl
@[simp] theorem endCall_issuer (h : Nat) (r : Ret) (s : State) : (endCall h r s).issuer = s.issuer := rfl
@[simp] theorem endCall_asm (h : Nat) (r : Ret) (s : State) : (endCall h r s).asm = s.asm := rfl
@[simp] theorem endCall_clock (h : Nat) (r : Ret) (s : State) : (endCall h r s).clock = s.clock := rfl
@[simp] theorem endCall_clockIn (h : Nat) (r : Ret) (s : State) : (endCall h r s).clockIn = s.clockIn := rfl
@[simp] theorem endCall_draws (h : Nat) (r : Ret) (s : State) : (endCall h r s).draws = s.draws := rfl
@[simp] theorem endCall_inbox (h : Nat) (r : Ret) (s : State) : (endCall h r s).inbox = s.inbox := rfl
@[simp] theorem endCall_trace (h : Nat) (r : Ret) (s : State) : (endCall h r s).trace = s.trace ++ [.ret h r] := rfl

/-! ### assembleItem -/

@[simp] theorem assembleItem_cfg (bs : List Byte) (s : State) : (assembleItem bs s).cfg = s.cfg := rfl
@[simp] theorem assembleItem_buf (bs : List Byte) (s : State) : (assembleItem bs s).buf = s.buf := rfl
@[simp] theorem assembleItem_ord (bs : List Byte) (s : State) : (assembleItem bs s).ord = s.ord := rfl
@[simp] theorem assembleItem_cblist (bs : List Byte) (s : State) : (assembleItem bs s).cblist = s.cblist := rfl
@[simp] theorem assembleItem_cache (bs : List Byte) (s : State) : (assembleItem bs s).cache = s.cache := rfl
@[simp] theorem assembleItem_sched (bs : List Byte) (s : State) : (assembleItem bs s).sched = s.sched := rfl
@[simp] theorem assembleItem_phase (bs : List Byte) (s : State) : (assembleItem bs s).phase = s.phase := rfl
@[simp] theorem assembleItem_step (bs : List Byte) (s : State) : (assembleItem bs s).step = s.step := rfl
@[simp] theorem assembleItem_cycle (bs : List Byte) (s : State) : (assembleItem bs s).cycle = s.cycle := rfl
@[simp] theorem assembleItem_k (bs : List Byte) (s : State) : (assembleItem bs s).k = s.k := rfl
@[simp] theorem assembleItem_cbi (bs : List Byte) (s : State) : (assembleItem bs s).cbi = s.cbi := rfl
@[simp] theorem assembleItem_t0 (bs : List Byte) (s : State) : (assembleItem bs s).t0 = s.t0 := rfl
@[simp] theorem assembleItem_deadline (bs : List Byte) (s : State) : (assembleItem bs s).deadline = s.deadline := rfl
@[simp] theorem assembleItem_repaint (bs : List Byte) (s : State) : (assembleItem bs s).repaint = s.repaint := rfl
@[simp] theorem assembleItem_cancelPending (bs : List Byte) (s : State) : (assembleItem bs s).cancelPending = s.cancelPending := rfl
@[simp] theorem assembleItem_configFault (bs : List Byte) (s : State) : (assembleItem bs s).configFault = s.configFault := rfl
@[simp] theorem assembleItem_closed (bs : List Byte) (s : State) : (assembleItem bs s).closed = s.closed := rfl
@[simp] theorem assembleItem_exitReason (bs : List Byte) (s : State) : (assembleItem bs s).exitReason = s.exitReason := rfl
@[simp] theorem assembleItem_firstReason (bs : List Byte) (s : State) : (assembleItem bs s).firstReason = s.firstReason := rfl
@[simp] theorem assembleItem_calling (bs : List Byte) (s : State) : (assembleItem bs s).calling = s.calling := rfl
@[simp] theorem assembleItem_wake (bs : List Byte) (s : State) : (assembleItem bs s).wake = s.wake := rfl
@[simp] theorem assembleItem_issuer (bs : List Byte) (s : State) : (assembleItem bs s).issuer = s.issuer := rfl
@[simp] theorem assembleItem_asm (bs : List Byte) (s : State) : (assembleItem bs s).asm = s.asm ++ bs := rfl
@[simp] theorem assembleItem_clock (bs : List Byte) (s : State) : (assembleItem bs s).clock = s.clock := rfl
@[simp] theorem assembleItem_clockIn (bs : List Byte) (s : State) : (assembleItem bs s).clockIn = s.clockIn := rfl
@[simp] theorem assembleItem_draws (bs : List Byte) (s : State) : (assembleItem bs s).draws = s.draws := rfl
@[simp] theorem assembleItem_inbox (bs : List Byte) (s : State) : (assembleItem bs s).inbox = s.inbox := rfl
@[simp] theorem assembleItem_trace (bs : List Byte) (s : State) : (assembleItem bs s).trace = s.trace := rfl

end Sys2Proof.Laws
end

