-- ==== Sys2Proof/Laws/Ops.lean ====
section
/-! SUPPORT. What each shared operation can do, said once: the buffer, the checks before a command, the
store, frames, and the cache. -/

namespace Sys2Proof.Laws

open Sys2Proof.Machine

/-! ### The buffer -/

theorem read_isSome_iff (m : Memory) (i : Nat) : (m.read i).isSome = true ↔ i < m.length := by
  simp [Memory.read]

theorem read_of_lt {m : Memory} {i : Nat} (h : i < m.length) : m.read i = some m[i] := by
  simp [Memory.read, h]

theorem read_write_same {m : Memory} {i : Nat} (h : i < m.length) (p : Pixel) :
    (m.write i p).read i = some p := by
  simp [Memory.read, Memory.write, h]

theorem read_write_other {m : Memory} {i j : Nat} (h : j ≠ i) (p : Pixel) :
    (m.write i p).read j = m.read j := by
  simp [Memory.read, Memory.write, List.getElem?_set_ne (Ne.symm h)]

@[simp] theorem write_length (m : Memory) (i : Nat) (p : Pixel) : (m.write i p).length = m.length := by
  simp [Memory.write]

@[simp] theorem blank_length (m : Memory) : m.blank.length = m.length := by simp [Memory.blank]

theorem read_blank {m : Memory} {i : Nat} (h : i < m.length) : m.blank.read i = some Pixel.blackOff := by
  simp [Memory.read, Memory.blank, h]

@[simp] theorem rotate_length (m : Memory) (s : Nat) : (m.rotate s).length = m.length := by
  simp [Memory.rotate]

theorem wf_iff (n : Nat) (m : Memory) : Memory.wf n m = true ↔ m.length = n := by simp [Memory.wf]

/-- Every operation on the buffer keeps its form. -/
theorem wf_write {n : Nat} {m : Memory} (h : Memory.wf n m = true) (i : Nat) (p : Pixel) :
    Memory.wf n (m.write i p) = true := by simpa [wf_iff] using h

theorem wf_blank {n : Nat} {m : Memory} (h : Memory.wf n m = true) : Memory.wf n m.blank = true := by
  simpa [wf_iff] using h

theorem wf_rotate {n : Nat} {m : Memory} (h : Memory.wf n m = true) (s : Nat) :
    Memory.wf n (m.rotate s) = true := by simpa [wf_iff] using h

theorem wf_reset : Memory.wf (leds State.reset.cfg) State.reset.buf = true := by decide

/-- Reading a list of slots succeeds when all of them exist, and reads each. -/
theorem readAll_eq {m : Memory} {is : List Nat} (h : ∀ i ∈ is, i < m.length) :
    m.readAll is = some (is.map fun i => (m[i]?).getD Pixel.blackOff) := by
  induction is with
  | nil => rfl
  | cons i is ih =>
    have hi : i < m.length := h i (by simp)
    simp [Memory.readAll, Memory.read, ih (fun j hj => h j (by simp [hj])), hi]

/-- A list of slots that was read: one pixel per slot, each the slot's own. -/
theorem readAll_some {m : Memory} {is : List Nat} {ps : List Pixel} (h : m.readAll is = some ps) :
    ps.map some = is.map m.read := by
  induction is generalizing ps with
  | nil => simp_all [Memory.readAll]
  | cons i is ih =>
    simp only [Memory.readAll] at h
    split at h
    · next p qs hp hq => cases h; simp [hp, ih hq]
    · cases h

/-! ### Errors and the checks before a command -/

@[simp] theorem raise_eq (e : CommandError) (s : State) :
    raise e s = .next { s with trace := s.trace ++ [.resp s.issuer e.status e.info] } := rfl

theorem guarded_ready {cls : CommandClass} {s : State} (h : Ready cls s) (body : Result) :
    guarded cls s body = body := by
  simp [guarded, h.1, h.2]

/-- A command word's checks end in one of three ways. -/
theorem guarded_cases (cls : CommandClass) (s : State) (body : Result) :
    (∃ e, s.configFault = some e ∧ guarded cls s body = raise (.configuration e) s) ∨
    (s.configFault = none ∧ mayIssue cls s = false ∧
      guarded cls s body = raise (.illegalState s.sched) s) ∨
    (Ready cls s ∧ guarded cls s body = body) := by
  unfold guarded Ready
  cases hf : s.configFault with
  | some e => simp
  | none => cases hm : mayIssue cls s <;> simp

/-- The store's two outcomes (R110). -/
theorem storePixel_cases (i : Nat) (p : Pixel) (s : State) :
    (i < leds s.cfg ∧ storePixel i p s = .next (respond .ok .empty { s with buf := s.buf.write i p })) ∨
    (leds s.cfg ≤ i ∧ storePixel i p s = raise (.index i) s) := by
  unfold storePixel
  split
  · exact .inl ⟨‹_›, rfl⟩
  · exact .inr ⟨by omega, rfl⟩

/-! ### The cache -/

theorem find_eq_some {cache : Cache} {p : Pixel} {bs : List Byte} (h : cache.find p = some bs) :
    (p, bs) ∈ cache := by
  simp only [Cache.find, Option.map_eq_some_iff] at h
  obtain ⟨⟨q, b⟩, hf, rfl⟩ := h
  have hq : q = p := by simpa using List.find?_some hf
  exact hq ▸ List.mem_of_find?_eq_some hf

theorem mem_use {cap : Nat} {p : Pixel} {bs : List Byte} {cache : Cache} {e : Pixel × List Byte}
    (h : e ∈ cache.use cap p bs) : e = (p, bs) ∨ e ∈ cache := by
  rcases List.mem_cons.1 (List.mem_of_mem_take h) with h | h
  · exact .inl h
  · exact .inr (List.mem_filter.1 h).1

theorem use_length_le (cap : Nat) (p : Pixel) (bs : List Byte) (cache : Cache) :
    (cache.use cap p bs).length ≤ cap := by
  simp [Cache.use]

/-- With a sound cache the cached encoding is the pure one and the cache stays sound and bounded. -/
theorem encodeCached_sound {c : Cfg} {cap : Nat} {p : Pixel} {cache : Cache}
    (h : ∀ e ∈ cache, e.2 = encodePure c e.1) :
    (encodeCached c cap p cache).1 = encodePure c p ∧
    (∀ e ∈ (encodeCached c cap p cache).2, e.2 = encodePure c e.1) ∧
    (encodeCached c cap p cache).2.length ≤ cap := by
  have hb : (encodeCached c cap p cache).1 = encodePure c p := by
    simp only [encodeCached]
    cases hf : cache.find p with
    | none => rfl
    | some bs => exact h _ (find_eq_some hf)
  refine ⟨hb, fun e he => ?_, use_length_le _ _ _ _⟩
  rcases mem_use he with rfl | he
  · exact hb
  · exact h e he

/-- The same for a whole list of pixels. -/
theorem encodeAll_sound {c : Cfg} {cap : Nat} {ps : List Pixel} {cache : Cache}
    (h : ∀ e ∈ cache, e.2 = encodePure c e.1) (hl : cache.length ≤ cap) :
    (encodeAll c cap ps cache).1 = ps.map (encodePure c) ∧
    (∀ e ∈ (encodeAll c cap ps cache).2, e.2 = encodePure c e.1) ∧
    (encodeAll c cap ps cache).2.length ≤ cap := by
  induction ps generalizing cache with
  | nil => exact ⟨rfl, h, hl⟩
  | cons p ps ih =>
    obtain ⟨h1, h2, h3⟩ := encodeCached_sound (cap := cap) (p := p) h
    obtain ⟨t1, t2, t3⟩ := ih h2 h3
    exact ⟨by simp [encodeAll, h1, t1], t2, t3⟩

/-! ### Frames -/

/-- A rendered frame: the slots were read, and the state differs in the cache only. -/
theorem renderChunks_some {s t : State} {cs : List (List Byte)} (h : renderChunks s = some (cs, t)) :
    ∃ ps, Memory.readAll s.buf s.ord = some ps ∧
      cs = chunks (chunkMax s.cfg)
        (assembleFrame (encodeAll s.cfg (cacheCapacity s.cfg) ps s.cache).1) ∧
      t = { s with cache := (encodeAll s.cfg (cacheCapacity s.cfg) ps s.cache).2 } := by
  simp only [renderChunks, frameLeds, Option.map_map, Option.map_eq_some_iff] at h
  obtain ⟨ps, hp, he⟩ := h
  simp only [Function.comp, Prod.mk.injEq] at he
  exact ⟨ps, hp, he.1.symm, he.2.symm⟩

theorem renderChunks_none {s : State} (h : renderChunks s = none) :
    Memory.readAll s.buf s.ord = none := by
  simpa [renderChunks, frameLeds] using h

/-- A frame sent: the state differs in the cache and in the trace, which grows by the chunks. -/
theorem emitFrame_some {s t : State} (h : emitFrame s = some t) :
    ∃ cs r, renderChunks s = some (cs, r) ∧
      t = { s with cache := r.cache, trace := s.trace ++ cs.map Event.txWrite } := by
  simp only [emitFrame, Option.map_eq_some_iff] at h
  obtain ⟨⟨cs, r⟩, hr, rfl⟩ := h
  obtain ⟨ps, -, -, rfl⟩ := renderChunks_some hr
  exact ⟨cs, _, hr, rfl⟩

theorem afterFrame_next {r : Option State} {go : State → State} {t : State}
    (h : afterFrame r go = .next t) : ∃ u, r = some u ∧ t = go u := by
  cases r with
  | none => cases h
  | some u => cases h; exact ⟨u, rfl, rfl⟩

end Sys2Proof.Laws
end

