-- ==== Sys2Proof/Laws/Step.lean ====
section
/-! SUPPORT. What an instruction, a phase and a step can do, said once: the inversion lemmas that
statements about the whole machine cite instead of unfolding the meanings. -/

namespace Sys2Proof.Laws

open Sys2Proof.Machine

/-! ### Instructions -/

/-- Everything an instruction that answers a next state can have done. -/
inductive ExecEffect (s t : State) : Prop where
  /-- Only a response: an error, or a command that reads. -/
  | answered (st : Status) (p : Payload) (h : t = { s with trace := s.trace ++ [.resp s.issuer st p] })
  /-- The buffer written, its form kept. -/
  | stored (m : Memory) (ready : Ready .buffer s) (len : m.length = s.buf.length)
      (h : t = { s with buf := m, trace := s.trace ++ [.resp s.issuer .ok .empty] })
  /-- One pixel encoded. -/
  | encoded (p : Pixel) (ready : Ready .buffer s)
      (h : t = { s with
        cache := (encodeCached s.cfg (cacheCapacity s.cfg) p s.cache).2
        trace := s.trace ++
          [.resp s.issuer .ok (.led (encodeCached s.cfg (cacheCapacity s.cfg) p s.cache).1)] })
  /-- A frame rendered. -/
  | rendered (cs : List (List Byte)) (r : State) (ready : Ready .buffer s)
      (hr : renderChunks s = some (cs, r))
      (h : t = { s with cache := r.cache, trace := s.trace ++ [.resp s.issuer .ok (.chunks cs)] })
  /-- A callback registered. -/
  | registered (c : Nat) (ready : Ready .setup s)
      (h : t = { s with
        cblist := s.cblist ++ [c], trace := s.trace ++ [.resp s.issuer .ok .empty] })
  /-- A run accepted. -/
  | started (ready : Ready .setup s) (h : t = acceptStart (readClock s))
  /-- A wire item assembled. -/
  | assembled (bs : List Byte) (h : t = { s with asm := s.asm ++ bs })
  /-- The cancellation latched. -/
  | cancelled (run : runInProgress s.sched = true) (ok : s.configFault = none)
      (h : t = { s with cancelPending := true, wake := none })
  /-- Nothing: an ignored event. -/
  | ignored (h : t = s)

/-- A guarded command either only answered, or had its body's effect. -/
theorem guarded_next {cls : CommandClass} {s t : State} {body : Result}
    (h : guarded cls s body = .next t) :
    ExecEffect s t ∨ (Ready cls s ∧ body = .next t) := by
  rcases guarded_cases cls s body with ⟨e, -, he⟩ | ⟨-, -, he⟩ | ⟨hr, he⟩
  · rw [he, raise_eq] at h; cases h; exact .inl (.answered _ _ rfl)
  · rw [he, raise_eq] at h; cases h; exact .inl (.answered _ _ rfl)
  · exact .inr ⟨hr, he ▸ h⟩

theorem storePixel_effect {i : Nat} {p : Pixel} {s t : State} (hr : Ready .buffer s)
    (h : storePixel i p s = .next t) : ExecEffect s t := by
  rcases storePixel_cases i p s with ⟨-, he⟩ | ⟨-, he⟩ <;> rw [he] at h <;> cases h
  · exact .stored _ hr (write_length _ _ _) rfl
  · exact .answered _ _ rfl

/-- The inversion of the dispatch. -/
theorem exec_effect {i : Instr} {s t : State} (h : exec i s = .next t) : ExecEffect s t := by
  cases i with
  | set i r g b br =>
    rcases guarded_next h with h | ⟨hr, h⟩
    · exact h
    · exact storePixel_effect hr h
  | setrgb i x c br =>
    rcases guarded_next h with h | ⟨hr, h⟩
    · exact h
    · split at h
      · cases h; exact .answered _ _ rfl
      · exact storePixel_effect hr h
  | get i =>
    rcases guarded_next h with h | ⟨-, h⟩
    · exact h
    · split at h
      · split at h
        · cases h; exact .answered _ _ rfl
        · cases h
      · cases h; exact .answered _ _ rfl
  | blank =>
    rcases guarded_next h with h | ⟨hr, h⟩
    · exact h
    · cases h; exact .stored _ hr (blank_length _) rfl
  | rotate k =>
    rcases guarded_next h with h | ⟨hr, h⟩
    · exact h
    · cases h; exact .stored _ hr (rotate_length _ _) rfl
  | order =>
    rcases guarded_next h with h | ⟨-, h⟩
    · exact h
    · cases h; exact .answered _ _ rfl
  | render =>
    rcases guarded_next h with h | ⟨hr, h⟩
    · exact h
    · split at h
      · next r he =>
        cases h
        obtain ⟨cs, u⟩ := r
        obtain ⟨ps, -, -, hu⟩ := renderChunks_some he
        exact .rendered cs u hr he (by subst hu; rfl)
      · cases h
  | encode r g b br =>
    rcases guarded_next h with h | ⟨hr, h⟩
    · exact h
    · cases h; exact .encoded ⟨r, g, b, br⟩ hr rfl
  | regcb c =>
    rcases guarded_next h with h | ⟨hr, h⟩
    · exact h
    · cases h; exact .registered c hr rfl
  | start =>
    rcases guarded_next h with h | ⟨hr, h⟩
    · exact h
    · cases h; exact .started hr rfl
  | startFrame => cases h; exact .assembled _ rfl
  | ledCmd hd x y z => cases h; exact .assembled _ rfl
  | endPad => cases h; exact .assembled _ rfl
  | cancel =>
    simp only [exec, execCancel] at h
    split at h
    · next hc =>
      cases h
      simp only [Bool.and_eq_true, Option.isNone_iff_eq_none] at hc
      exact .cancelled hc.1 hc.2 rfl
    · cases h; exact .ignored rfl

/-! ### The scheduler -/

/-- Everything a move of the scheduler that answers a next state can have done. -/
inductive MoveEffect (s t : State) : Prop where
  /-- Nothing: no run, a configuration fault, or an invocation outstanding. -/
  | still (h : t = s)
  /-- The cancellation check fired. -/
  | cancelled (free : s.calling = none) (run : s.sched = .running) (pending : s.cancelPending = true)
      (h : t = drainCancelled { s with wake := none })
  /-- A pacing wait ended. -/
  | woke (free : s.calling = none) (run : s.sched = .running) (notPending : s.cancelPending = false)
      (b : Nat) (hw : s.wake = some b) (h : t = { passBoundary b s with wake := none })
  /-- A phase of `Running`. -/
  | ran (p : Phase) (hp : AtPhase p s) (h : runPhase s = .next t)
  /-- A phase of `Draining`. -/
  | drained (p : Phase) (hp : AtDrain p s) (h : drainPhase s = .next t)

/-- The inversion of the scheduler's move. -/
theorem schedulerMove_effect {s t : State} (h : schedulerMove s = .next t) : MoveEffect s t := by
  unfold schedulerMove at h
  split at h
  · cases h; exact .still rfl
  · next hc =>
    simp only [Bool.or_eq_true, not_or, Option.isSome_iff_ne_none, not_not] at hc
    split at h
    · cases h; exact .still rfl
    · next hs =>
      unfold runMove at h
      split at h
      · next hp => cases h; exact .cancelled hc.1 hs hp rfl
      · next hp =>
        split at h
        · next b hw => cases h; exact .woke hc.1 hs (by simpa using hp) b hw rfl
        · next hw => exact .ran s.phase ⟨hc.2, hc.1, hs, hw, by simpa using hp, rfl⟩ h
    · next hs => exact .drained s.phase ⟨hc.2, hc.1, hs, rfl⟩ h
    · cases h; exact .still rfl

/-- The scheduler's move at a phase of `Running` is that phase. -/
theorem schedulerMove_atPhase {p : Phase} {s : State} (h : AtPhase p s) :
    schedulerMove s = runPhase s := by
  simp [schedulerMove, runMove, h.noFault, h.notCalling, h.running, h.notWaiting, h.notCancelled]

/-- The scheduler's move at a phase of `Draining` is that phase. -/
theorem schedulerMove_atDrain {p : Phase} {s : State} (h : AtDrain p s) :
    schedulerMove s = drainPhase s := by
  simp [schedulerMove, h.noFault, h.notCalling, h.draining]

/-! ### The step -/

/-- With nothing arriving, a step is the scheduler's move. -/
theorem step_idle_inbox {s : State} (h : s.inbox = []) : step s = schedulerMove s := by
  simp [step, advance, h]

/-- With an input arriving, a step takes it. -/
theorem step_input {s : State} {e : Input} {rest : List Input} (h : s.inbox = e :: rest) :
    step s = takeInput e { s with inbox := rest } := by
  simp [step, advance, h]

/-- Everything a step that answers a next state can have done, on the state `u` from whose inbox the input,
if any, was taken. -/
inductive StepEffect (s u t : State) : Prop where
  /-- A command word: the command's effect, or an error's answer. -/
  | command (who : Issuer) (w : CommandWord) (agentCalled : who = .agent → u.calling ≠ none)
      (head : s.inbox.head? = some (match who with | .host => .host w | .agent => .agent w))
      (h : takeCommand who w u = .next t)
  /-- The event or a wire item. -/
  | event (i : Instr) (h : exec i u = .next t)
  /-- The return of the invoked function. -/
  | returned (r : Ret) (inv : Invocation) (hc : u.calling = some inv)
      (h : afterReturn inv.args r (endCall inv.handle r u) = .next t)
  /-- A reset. -/
  | reset (c : Cfg) (ok : configRefused c = false) (head : s.inbox.head? = some (.reset c))
      (h : t = u.reconstruct c)
  /-- The scheduler's move. -/
  | moved (h : schedulerMove u = .next t)

/-- The inversion of the step. -/
theorem step_effect {s t : State} (h : step s = .next t) :
    StepEffect s { s with inbox := s.inbox.tail } t := by
  cases hi : s.inbox with
  | nil =>
    rw [step_idle_inbox hi] at h
    have : ({ s with inbox := ([] : List Input).tail } : State) = s := by
      cases s; simp_all
    rw [this]; exact .moved h
  | cons e rest =>
    rw [step_input hi] at h
    cases e with
    | host w => exact .command .host w (by simp) (by simp [hi]) h
    | agent w =>
      simp only [takeInput] at h
      split at h
      · next hc => exact .command .agent w (fun _ => Option.isSome_iff_ne_none.1 hc) (by simp [hi]) h
      · cases h
    | ret r =>
      simp only [takeInput, takeReturn] at h
      split at h
      · next inv hc => exact .returned r inv hc h
      · cases h
    | cancel => exact .event .cancel h
    | pass => exact .moved h
    | reset c =>
      simp only [takeInput] at h
      split at h
      · cases h
      · next hc => cases h; exact .reset c (by simpa using hc) (by simp [hi]) rfl
    | wire e =>
      simp only [takeInput, takeWire] at h
      split at h
      · cases h
      · cases h
      · split at h
        · next i _ => exact .event i h
        · cases h
      · split at h
        · next i _ => exact .event i h
        · cases h

/-- A command word's effect: an answered error, or an instruction's. -/
theorem takeCommand_effect {who : Issuer} {w : CommandWord} {u t : State}
    (h : takeCommand who w u = .next t) : ExecEffect { u with issuer := who } t := by
  simp only [takeCommand] at h
  split at h
  · cases h; exact .answered _ _ rfl
  · split at h
    · exact exec_effect h
    · cases h; exact .answered _ _ rfl

end Sys2Proof.Laws
end

