-- ==== Sys2Proof/Laws/Invariant.lean ====
section
/-! SUPPORT. What the invariant of Safety.lean speaks of and what it does not, and the frames it
guarantees. -/

namespace Sys2Proof.Laws

open Sys2Proof.Machine

/-- The invariant does not speak of the trace, the issuer, the frame assembler, the inputs or `REPAINT`. -/
theorem inv_outside {s : State} (h : Inv s) (trace : List Event) (issuer : Issuer) (asm : List Byte)
    (inbox : List Input) (repaint : Bool) :
    Inv { s with trace := trace, issuer := issuer, asm := asm, inbox := inbox, repaint := repaint } :=
  ⟨h.1, h.2, h.3, h.4, h.5, h.6, h.7, h.8, h.9, h.10, h.11, h.12, h.13, h.14, h.15, h.16, h.17, h.18, h.19⟩

/-- It is kept when a buffer of the same form, or a sound cache within its bound, replaces the present
one. -/
theorem inv_storage {s : State} (h : Inv s) (m : Memory) (cache : Cache) (len : m.length = s.buf.length)
    (sound : ∀ e ∈ cache, e.2 = encodePure s.cfg e.1) (bound : cache.length ≤ cacheCapacity s.cfg) :
    Inv { s with buf := m, cache := cache } :=
  ⟨h.1, h.2, fun hf => by simpa [wf_iff, len] using h.bufferWhole hf, h.4, h.5, h.6, h.7, h.8, h.9, h.10,
    sound, bound, h.13, h.14, h.15, h.16, h.17, h.18, h.19⟩

/-- An outstanding invocation is in a run (R152). -/
theorem calling_inRun {s : State} (h : Inv s) (hc : s.calling ≠ none) :
    runInProgress s.sched = true := by
  have := h.callFits
  simp only [callFits] at this
  split at this
  · contradiction
  · split at this <;> simp_all [runInProgress]

/-- Blank slots read as black. -/
theorem readAll_blank {m : Memory} {is : List Nat} {ps : List Pixel}
    (h : Memory.readAll m.blank is = some ps) : ps = List.replicate ps.length Pixel.blackOff := by
  induction is generalizing ps with
  | nil => simp only [Memory.readAll, Option.some.injEq] at h; subst h; rfl
  | cons i is ih =>
    simp only [Memory.readAll] at h
    split at h
    · next p qs hp hq =>
      cases h
      have : p = Pixel.blackOff := by
        simp only [Memory.read, Memory.blank] at hp
        obtain ⟨hlt, hp⟩ := List.getElem?_eq_some_iff.1 hp
        simpa using hp.symm
      rw [this, ih hq]; simp [List.replicate_succ]
    · cases h

/-- The encodings of a list of pixels have four bytes each (R71). -/
theorem encodings_length (c : Cfg) (ps : List Pixel) :
    (ps.map (encodePure c)).flatten.length = 4 * ps.length := by
  induction ps with
  | nil => rfl
  | cons p ps ih =>
    have : (encodePure c p).length = 4 := rfl
    rw [List.map_cons, List.flatten_cons, List.length_append, ih, this, List.length_cons]; omega

@[simp] theorem padding_length (n : Nat) : (padding n).length = padCount n := by
  simp [padding, endPadBytes]

/-- A frame whose slots exist is sent whole (R161). -/
theorem emitFrame_of_readAll {s : State} {ps : List Pixel} (h : Inv s)
    (hps : Memory.readAll s.buf s.ord = some ps) :
    emitFrame s = some { s with
      cache := (encodeAll s.cfg (cacheCapacity s.cfg) ps s.cache).2
      trace := s.trace ++ frameWrites s.cfg (assembleFrame (ps.map (encodePure s.cfg))) } := by
  have es := encodeAll_sound (ps := ps) h.cacheSound h.cacheBounded
  simp [emitFrame, renderChunks, frameLeds, hps, es.1, frameWrites]

/-- The members of a set recorded in rising order. -/
theorem mem_insertRising (x y : Int) (l : List Int) : x ∈ insertRising y l ↔ x = y ∨ x ∈ l := by
  induction l with
  | nil => simp [insertRising]
  | cons a l ih => simp only [insertRising]; split; · simp
                   split <;> simp_all; tauto

theorem mem_risingSet (x : Int) (l : List Int) : x ∈ risingSet l ↔ x ∈ l := by
  induction l with
  | nil => simp [risingSet]
  | cons a l ih => rw [risingSet, List.foldr_cons, mem_insertRising]; simp [← ih, risingSet]

end Sys2Proof.Laws
end

