-- ==== Sys2Proof/Laws/PerInstr.lean ====
section
/-! SUPPORT. A statement made for every instruction, one lemma per constructor: the encoding carries the
`OP` value of the instruction's row (spec/30_encoding.md R63), and the wire rows and the event carry
none (R70 to R72, R164). -/

namespace Sys2Proof.Laws.OpcodeField

open Sys2Proof.Laws

/-- The `OP` value of the instruction's row in R63; wire rows and the event have none. -/
def rowOpcode : Instr → Option (BitVec 8)
  | .set _ _ _ _ _ => some 0x01
  | .setrgb _ _ _ _ => some 0x02
  | .get _ => some 0x03
  | .blank => some 0x04
  | .rotate _ => some 0x05
  | .order => some 0x06
  | .render => some 0x07
  | .encode _ _ _ _ => some 0x08
  | .regcb _ => some 0x10
  | .start => some 0x11
  | .startFrame => none
  | .ledCmd _ _ _ _ => none
  | .endPad => none
  | .cancel => none

/-- The `OP` field an encoding carries. -/
def carriedOpcode : Encoding → Option (BitVec 8)
  | .command w => some (opField w)
  | .wireQuad _ => none
  | .wireByte _ => none
  | .event => none

/-- The encoding carries the opcode of the instruction's row. -/
def Statement (i : Instr) : Prop := carriedOpcode (encode i) = rowOpcode i

theorem set (i : Nat) (r g b br : Int) : Statement (.set i r g b br) := by
  simp [Statement, encode, carriedOpcode, rowOpcode]
theorem setrgb (i : Nat) (x : BitVec 8) (c : BitVec 24) (br : Int) : Statement (.setrgb i x c br) := by
  simp [Statement, encode, carriedOpcode, rowOpcode]
theorem get (i : Nat) : Statement (.get i) := by simp [Statement, encode, carriedOpcode, rowOpcode]
theorem blank : Statement .blank := by simp [Statement, encode, carriedOpcode, rowOpcode]
theorem rotate (k : Int) : Statement (.rotate k) := by simp [Statement, encode, carriedOpcode, rowOpcode]
theorem order : Statement .order := by simp [Statement, encode, carriedOpcode, rowOpcode]
theorem render : Statement .render := by simp [Statement, encode, carriedOpcode, rowOpcode]
theorem encode (r g b br : Int) : Statement (.encode r g b br) := by
  simp [Statement, Sys2Proof.encode, carriedOpcode, rowOpcode]
theorem regcb (h : Nat) : Statement (.regcb h) := by
  simp [Statement, Sys2Proof.encode, carriedOpcode, rowOpcode]
theorem start : Statement .start := by simp [Statement, Sys2Proof.encode, carriedOpcode, rowOpcode]
theorem startFrame : Statement .startFrame := rfl
theorem ledCmd (h : BitVec 5) (x y z : Byte) : Statement (.ledCmd h x y z) := rfl
theorem endPad : Statement .endPad := rfl
theorem cancel : Statement .cancel := rfl

end Sys2Proof.Laws.OpcodeField
end

