-- ==== Sys2Proof/Machine/Assembler.lean ====
section
/-! DEFINITION. The assembler of spec/30_encoding.md R78 to R80: one command a line, the
pseudo-instructions and the presets. It is software beside the block: no meaning uses it. -/

namespace Sys2Proof.Machine

/-- Why the assembler refuses a line. -/
inductive AsmError where
  /-- A hex string that is not six hexadecimal digits after an optional `#` (R79, R184). -/
  | malformedColour
  /-- No mnemonic of R78 or pseudo-instruction of R79. -/
  | unknownMnemonic
  /-- Operands that do not fit the mnemonic's syntax (R78). -/
  | badOperands
  /-- An operand outside the range of its field (R64). -/
  | operandOutOfRange
  deriving DecidableEq, Repr

/-- An operand as written: a number, a quoted string, or a name (R78, R79). -/
inductive AsmOperand where
  | number (v : Int)
  | quoted (cs : List Char)
  | name (cs : List Char)
  deriving DecidableEq, Repr

/-- The value of a decimal or hexadecimal digit. -/
def digitValue (ch : Char) : Option Nat :=
  let n := ch.toNat
  if 48 ≤ n ∧ n ≤ 57 then some (n - 48)
  else if 97 ≤ n ∧ n ≤ 102 then some (n - 87)
  else if 65 ≤ n ∧ n ≤ 70 then some (n - 55)
  else none

/-- Digits of a base, the most significant first, after a value already read. -/
def readDigitsFrom (base : Nat) : Nat → List Char → Option Nat
  | acc, [] => some acc
  | acc, ch :: cs =>
    match digitValue ch with
    | some d => if d < base then readDigitsFrom base (acc * base + d) cs else none
    | none => none

/-- At least one digit of the base. -/
def readDigits (base : Nat) (cs : List Char) : Option Nat :=
  if cs = [] then none else readDigitsFrom base 0 cs

/-- A natural number, decimal or with `0x` (R78). -/
def readNatural (cs : List Char) : Option Nat :=
  if cs.take 2 = ['0', 'x'] then readDigits 16 (cs.drop 2) else readDigits 10 cs

/-- A number with an optional minus sign (R78, R81). -/
def readNumber (cs : List Char) : Option Int :=
  if cs.head? = some '-' then (readNatural cs.tail).map fun n => -(n : Int)
  else (readNatural cs).map fun n => (n : Int)

/-- The text without blanks at its two ends. -/
def trimBlanks (cs : List Char) : List Char :=
  ((cs.dropWhile (· = ' ')).reverse.dropWhile (· = ' ')).reverse

/-- The pieces between commas. -/
def splitCommas : List Char → List (List Char)
  | [] => [[]]
  | ch :: cs =>
    if ch = ',' then [] :: splitCommas cs
    else match splitCommas cs with
      | [] => [[ch]]
      | piece :: rest => (ch :: piece) :: rest

/-- One operand as written. -/
def readOperand (cs : List Char) : AsmOperand :=
  if cs.head? = some '"' ∧ cs.getLast? = some '"' then .quoted cs.tail.dropLast
  else match readNumber cs with
    | some v => .number v
    | none => .name cs

/-- The operands after a mnemonic: none, or pieces between commas. -/
def readOperands (cs : List Char) : List AsmOperand :=
  if trimBlanks cs = [] then [] else (splitCommas cs).map fun piece => readOperand (trimBlanks piece)

/-- A hex string `RRGGBB` or `#RRGGBB` (R79). -/
def readHexColour (cs : List Char) : Option (BitVec 24) :=
  let digits := if cs.head? = some '#' then cs.tail else cs
  if digits.length = 6 then (readDigits 16 digits).map (BitVec.ofNat 24) else none

/-- The presets, assembler shorthands only (R80, log 28). -/
def presetPixel (cs : List Char) : Option Pixel :=
  if cs = ['R', 'E', 'D'] then some ⟨255, 0, 0, 100⟩
  else if cs = ['G', 'R', 'E', 'E', 'N'] then some ⟨0, 255, 0, 100⟩
  else if cs = ['W', 'H', 'I', 'T', 'E'] then some ⟨255, 255, 255, 100⟩
  else if cs = ['B', 'L', 'A', 'C', 'K'] then some ⟨0, 0, 0, 0⟩
  else none

/-- The instruction when its operands fit their fields (R64). -/
def inRange (i : Instr) : Except AsmError Instr :=
  if i.wellFormed then .ok i else .error .operandOutOfRange

/-- The instruction with an index operand, which is not negative. -/
def withIndex (v : Int) (f : Nat → Instr) : Except AsmError Instr :=
  if v < 0 then .error .operandOutOfRange else inRange (f v.toNat)

/-- `SETRGB` with a numeric colour `0..0xFFFFFF` (R78). -/
def asmSetrgb (i c br : Int) : Except AsmError Instr :=
  if c < 0 ∨ 2 ^ 24 ≤ c then .error .operandOutOfRange
  else withIndex i fun n => .setrgb n 0 (BitVec.ofNat 24 c.toNat) br

/-- `SETRGB` with a hex string (R79). -/
def asmSetrgbHex (i : Int) (cs : List Char) (br : Int) : Except AsmError Instr :=
  match readHexColour cs with
  | some c => withIndex i fun n => .setrgb n 0 c br
  | none => .error .malformedColour

/-- `SETP i, NAME` expands to `SET` with the preset's fields (R79, R80). -/
def asmSetp (i : Int) (name : List Char) : Except AsmError Instr :=
  match presetPixel name with
  | some p => withIndex i fun n => .set n p.r p.g p.b p.br
  | none => .error .badOperands

/-- A mnemonic of format `Z` (R62, R78). -/
def withoutOperands (ops : List AsmOperand) (i : Instr) : Except AsmError Instr :=
  if ops = [] then .ok i else .error .badOperands

/-- The command of a mnemonic with its operands (R78), pseudo-instructions expanded (R79): the default
brightness of `SETRGB` is 100. -/
def assembleCommand (mn : List Char) (ops : List AsmOperand) : Except AsmError Instr :=
  if mn = ['S', 'E', 'T'] then
    match ops with
    | [.number i, .number r, .number g, .number b, .number br] => withIndex i fun n => .set n r g b br
    | _ => .error .badOperands
  else if mn = ['S', 'E', 'T', 'R', 'G', 'B'] then
    match ops with
    | [.number i, .number c, .number br] => asmSetrgb i c br
    | [.number i, .number c] => asmSetrgb i c 100
    | [.number i, .quoted cs, .number br] => asmSetrgbHex i cs br
    | [.number i, .quoted cs] => asmSetrgbHex i cs 100
    | _ => .error .badOperands
  else if mn = ['S', 'E', 'T', 'P'] then
    match ops with
    | [.number i, .name cs] => asmSetp i cs
    | _ => .error .badOperands
  else if mn = ['G', 'E', 'T'] then
    match ops with
    | [.number i] => withIndex i fun n => .get n
    | _ => .error .badOperands
  else if mn = ['R', 'O', 'T', 'A', 'T', 'E'] then
    match ops with
    | [.number k] => inRange (.rotate k)
    | _ => .error .badOperands
  else if mn = ['E', 'N', 'C', 'O', 'D', 'E'] then
    match ops with
    | [.number r, .number g, .number b, .number br] => inRange (.encode r g b br)
    | _ => .error .badOperands
  else if mn = ['R', 'E', 'G', 'C', 'B'] then
    match ops with
    | [.number h] => withIndex h fun n => .regcb n
    | _ => .error .badOperands
  else if mn = ['B', 'L', 'A', 'N', 'K'] then withoutOperands ops .blank
  else if mn = ['O', 'R', 'D', 'E', 'R'] then withoutOperands ops .order
  else if mn = ['R', 'E', 'N', 'D', 'E', 'R'] then withoutOperands ops .render
  else if mn = ['S', 'T', 'A', 'R', 'T'] then withoutOperands ops .start
  else .error .unknownMnemonic

/-- One line: `;` starts a comment, an empty line is no command (R78). -/
def assembleLine (line : List Char) : Except AsmError (Option Instr) :=
  let text := trimBlanks (line.takeWhile (· ≠ ';'))
  if text = [] then .ok none
  else
    (assembleCommand (text.takeWhile (· ≠ ' ')) (readOperands (text.dropWhile (· ≠ ' ')))).map some

end Sys2Proof.Machine
end

