-- ==== Sys2Proof/Tests/Slice0.lean ====
section
/-! SUPPORT. The model's own tests. Every expected value is from spec/: the worked encodings (R81), the
vectors of spec/95_test_vectors.md (V-..., P1 to P5), or a rule. And the witnesses: for every obligation with
hypotheses, a concrete state and operands that meet all of them together. -/

namespace Sys2Proof.Tests

open Sys2Proof Sys2Proof.Machine

/-! ### Helpers -/

/-- A reading of the next state, if there is one. -/
def after {α : Type} (r : Result) (f : State → α) : Option α :=
  match r with
  | .next t => some (f t)
  | .fault _ => none
  | .refused _ => none

/-- The last event of the trace. -/
def said (r : Result) : Option Event := (after r fun t => t.trace.getLast?).join

/-- An idle block with 4 slots, the fourth vector pixels of V-B in it. -/
def idle : State :=
  { State.reset with
    buf := [⟨255, 0, 0, 100⟩, ⟨0, 255, 0, 100⟩, ⟨0, 0, 255, -1⟩, ⟨-5, 300, 256, 200⟩] }

/-- The block with another configuration, all slots black. -/
def black (c : Cfg) : State := State.construct c

/-- A block in a phase of a run, one callback registered. -/
def running (c : Cfg) (p : Phase) : State := { State.construct c with sched := .running, phase := p, cblist := [7] }

/-- A block in a phase of the drain after the cycle limit. -/
def draining (c : Cfg) (p : Phase) : State :=
  { State.construct c with
    sched := .draining, phase := p, exitReason := .cycleLimit, firstReason := .cycleLimit }

/-- A block whose run is over. -/
def stopped (c : Cfg) : State :=
  { State.construct c with
    sched := .stopped, phase := .pClose, closed := true, exitReason := .cycleLimit
    firstReason := .cycleLimit }

/-- A configuration with hooks and a duration. -/
def hooked : Cfg := { Cfg.atReset with initHook := some 8, shutdownHook := some 9, duration := some 25 }

/-- Mode H. -/
def modeH : Cfg := { Cfg.atReset with mode := .scaleViaHeader }

/-- A configuration with an offending order (V-O6). -/
def gapped : Cfg := { Cfg.atReset with n := 10, lorder := some [(0, 2), (4, 9)] }

/-! ### WellFormed: each check refuses an ill-formed term -/

theorem test_wf_set_index : (Instr.set (2 ^ 24) 0 0 0 0).wellFormed = false := by decide
theorem test_wf_set_red : (Instr.set 0 32768 0 0 0).wellFormed = false := by decide
theorem test_wf_set_green : (Instr.set 0 0 (-32769) 0 0).wellFormed = false := by decide
theorem test_wf_set_blue : (Instr.set 0 0 0 32768 0).wellFormed = false := by decide
theorem test_wf_set_brightness : (Instr.set 0 0 0 0 (-32769)).wellFormed = false := by decide
theorem test_wf_setrgb_index : (Instr.setrgb (2 ^ 24) 0 0 0).wellFormed = false := by decide
theorem test_wf_setrgb_brightness : (Instr.setrgb 0 0 0 32768).wellFormed = false := by decide
theorem test_wf_get_index : (Instr.get (2 ^ 24)).wellFormed = false := by decide
theorem test_wf_rotate_count : (Instr.rotate (2 ^ 31)).wellFormed = false := by decide
theorem test_wf_encode_field : (Instr.encode 0 0 0 32768).wellFormed = false := by decide
theorem test_wf_regcb_handle : (Instr.regcb (2 ^ 16)).wellFormed = false := by decide
theorem test_wf_extremes :
    (Instr.set (2 ^ 24 - 1) (-32768) 32767 (-32768) 32767).wellFormed = true ∧
    (Instr.rotate (-2 ^ 31)).wellFormed = true ∧ (Instr.regcb 65535).wellFormed = true := by decide

/-! ### Decoding: words written out from R61 to R65, R70 to R72; R81; V-D -/

theorem test_decode_set :
    decodeCommand 0b000000010000000000000000000000100000000011111111000000001000000000000000000000000000000000110010
      = .ok (.set 2 255 128 0 50) := by decide
theorem test_decode_set_negative : decodeCommand 0x01000000FFFB012C010000C8 = .ok (.set 0 (-5) 300 256 200) := by
  decide
theorem test_decode_setrgb : decodeCommand 0x0200000100FF800000000064 = .ok (.setrgb 1 0 0xFF8000 100) := by decide
theorem test_decode_setrgb_wide : decodeCommand 0x0200000001FF800000000064 = .ok (.setrgb 0 1 0xFF8000 100) := by
  decide
theorem test_decode_setrgb_c : decodeCommand 0x0200000000FF000000010064 = .error .nonzeroUnusedField := by decide
theorem test_decode_get : decodeCommand 0x030000030000000000000000 = .ok (.get 3) := by decide
theorem test_decode_get_w1 : decodeCommand 0x030000010000000100000000 = .error .nonzeroUnusedField := by decide
theorem test_decode_blank : decodeCommand 0x040000000000000000000000 = .ok .blank := by decide
theorem test_decode_blank_idx : decodeCommand 0x040000010000000000000000 = .error .nonzeroUnusedField := by decide
theorem test_decode_rotate : decodeCommand 0x05000000FFFFFFFE00000000 = .ok (.rotate (-2)) := by decide
theorem test_decode_rotate_least : decodeCommand 0x050000008000000000000000 = .ok (.rotate (-2147483648)) := by decide
theorem test_decode_rotate_w2 : decodeCommand 0x050000000000000100000001 = .error .nonzeroUnusedField := by decide
theorem test_decode_order : decodeCommand 0x060000000000000000000000 = .ok .order := by decide
theorem test_decode_render : decodeCommand 0x070000000000000000000000 = .ok .render := by decide
theorem test_decode_encode : decodeCommand 0x0800000000FF008000000032 = .ok (.encode 255 128 0 50) := by decide
theorem test_decode_encode_idx : decodeCommand 0x0800000100FF008000000032 = .error .nonzeroUnusedField := by decide
theorem test_decode_regcb : decodeCommand 0x100000000000000700000000 = .ok (.regcb 7) := by decide
theorem test_decode_regcb_a : decodeCommand 0x100000000001000700000000 = .error .nonzeroUnusedField := by decide
theorem test_decode_start : decodeCommand 0x110000000000000000000000 = .ok .start := by decide
theorem test_decode_start_w2 : decodeCommand 0x110000000000000000000001 = .error .nonzeroUnusedField := by decide
theorem test_decode_reserved :
    decodeCommand 0 = .error .reservedOpcode ∧
    decodeCommand 0x090000000000000000000000 = .error .reservedOpcode ∧
    decodeCommand 0x120000000000000000000000 = .error .reservedOpcode ∧
    decodeCommand 0xFF0000000000000000000000 = .error .reservedOpcode := by decide
theorem test_decode_wire :
    decodeWireQuad 0x00000000 = .ok .startFrame ∧
    decodeWireQuad 0b11110000111111111000000000000000 = .ok (.ledCmd 16 0xFF 0x80 0x00) ∧
    decodeWireQuad 0xDFFFFFFF = .error .notAWireItem ∧
    decodeWireByte 0x00 = .ok .endPad ∧ decodeWireByte 0x01 = .error .notAWireItem := by decide
theorem test_decode_event : decode .event = .ok .cancel := by decide
theorem test_decode_bytes :
    decodeBytes [0x01, 0x00, 0x00, 0x02, 0x00, 0xFF, 0x00, 0x80, 0x00, 0x00, 0x00, 0x32] =
      .ok (.set 2 255 128 0 50) ∧
    decodeBytes [0x01, 0x00] = .error .badLength := by decide
/-- The encodings of R81, in the other direction. -/
theorem test_encode_words :
    encode (.set 2 255 128 0 50) = .command 0x0100000200FF008000000032 ∧
    encode (.setrgb 1 0 0xFF8000 100) = .command 0x0200000100FF800000000064 ∧
    encode (.rotate (-2)) = .command 0x05000000FFFFFFFE00000000 ∧
    encode (.regcb 7) = .command 0x100000000000000700000000 ∧
    encode (.ledCmd 16 0xFF 0x80 0) = .wireQuad 0xF0FF8000 := by decide
theorem test_table_words :
    decodeTableWord 96 0x070000000000000000000000 = some .render ∧
    decodeTableWord 96 0x010000000000000000000000 = some (.set 0 0 0 0 0) ∧
    decodeTableWord 32 0 = some .startFrame ∧ decodeTableWord 32 0xE0000000 = some (.ledCmd 0 0 0 0) ∧
    decodeTableWord 8 0 = some .endPad ∧ decodeTableWord 0 0 = some .cancel := by decide
/-- No word is selected by two rows of the table (R67): two rows differ in a bit both fix. -/
theorem test_rows_disjoint : commandRows.Pairwise fun a b =>
    a.matchBits &&& (a.mask &&& b.mask) ≠ b.matchBits &&& (a.mask &&& b.mask) := by decide

/-! ### The encoder: V-H, V-C, V-W -/

theorem test_mode_h :
    encodePure modeH ⟨255, 128, 0, 50⟩ = [0xF0, 0xFF, 0x80, 0x00] ∧
    encodePure modeH ⟨300, -5, 256, -5⟩ = [0xE0, 0xFF, 0x00, 0xFF] ∧
    encodePure { modeH with maxb := 1 } ⟨255, 128, 0, 1⟩ = [0xE1, 0xFF, 0x80, 0x00] ∧
    encodePure { modeH with wire := wireOfBits 0x39 } ⟨255, 128, 0, 100⟩ = [0xFF, 0x00, 0x80, 0xFF] := by decide
theorem test_mode_c :
    encodePure Cfg.atReset ⟨5, 3, 1, 50⟩ = [0xFF, 0x02, 0x02, 0x00] ∧
    encodePure { Cfg.atReset with roundTie := .halfAway } ⟨5, 3, 1, 50⟩ = [0xFF, 0x03, 0x02, 0x01] ∧
    encodePure Cfg.atReset ⟨510, -5, 256, 50⟩ = [0xFF, 0xFF, 0x00, 0x80] ∧
    encodePure Cfg.atReset ⟨32767, -32768, 0, -32768⟩ = [0xFF, 0x00, 0xFF, 0x00] := by decide
theorem test_wire_orders :
    ([0x1B, 0x1E, 0x27, 0x36, 0x2D, 0x39] : List (BitVec 6)).map
      (fun v => encodePure { Cfg.atReset with wire := wireOfBits v } ⟨0x11, 0x22, 0x33, 100⟩) =
    [[0xFF, 0x11, 0x22, 0x33], [0xFF, 0x11, 0x33, 0x22], [0xFF, 0x22, 0x11, 0x33],
     [0xFF, 0x22, 0x33, 0x11], [0xFF, 0x33, 0x11, 0x22], [0xFF, 0x33, 0x22, 0x11]] := by decide
theorem test_frame_lengths :
    [1, 4, 15, 16, 17, 32, 33, 144, 1000].map frameLength = [9, 21, 65, 69, 74, 134, 139, 589, 4067] := by decide

/-! ### The logical order and configurations: V-O, V-X -/

theorem test_order_expand : expand [(3, 5), (2, 0)] = [3, 4, 5, 2, 1, 0] := by decide
theorem test_order_offending :
    offending (expand [(0, 2), (4, 9)]) 10 = [3] ∧ offending (expand [(0, 4), (4, 9)]) 10 = [4] ∧
    offending (expand [(0, 4)]) 4 = [4] ∧ offending (expand []) 4 = [0, 1, 2, 3] ∧
    offending (expand [(0, 1), (1, 2)]) 4 = [1, 3] ∧ offending (expand [(-1, 2)]) 3 = [-1] ∧
    offending (expand [(2, 2), (0, 1), (3, 3)]) 4 = [] := by decide
theorem test_check_order :
    configError { Cfg.atReset with n := 0, wire := wireOfBits 0x15, lorder := some [(0, 4)] } = some .ledCount ∧
    configError { Cfg.atReset with wire := wireOfBits 0x15, lorder := some [(0, 4)] } = some .colorOrder ∧
    configError gapped = some (.logicalOrder [3]) := by decide
theorem test_refused_configurations :
    configRefused { Cfg.atReset with maxb := 101 } = true ∧ configRefused { Cfg.atReset with maxb := -1 } = true ∧
    configRefused { Cfg.atReset with steps := 0 } = true ∧
    configRefused { Cfg.atReset with cycleLimit := some 0 } = true ∧
    configRefused { Cfg.atReset with tick := -1 } = true ∧
    configRefused { Cfg.atReset with duration := some (-1) } = true ∧
    configRefused { Cfg.atReset with maxChunk := 0 } = true ∧
    configRefused { Cfg.atReset with cacheCap := -1 } = true ∧
    configRefused { Cfg.atReset with n := 2 ^ 24 + 1 } = true ∧
    configRefused { Cfg.atReset with n := 2 ^ 24, maxb := 0, tick := 0, duration := some 0 } = false := by decide

/-! ### The buffer's commands: V-B, V-D, V-O1, V-R -/

theorem test_set_unclamped :
    after (exec (.set 3 (-5) 300 256 200) (black Cfg.atReset)) (·.buf) =
      some [⟨0, 0, 0, 0⟩, ⟨0, 0, 0, 0⟩, ⟨0, 0, 0, 0⟩, ⟨-5, 300, 256, 200⟩] := by decide
theorem test_set_outside : said (exec (.set 4 1 1 1 1) idle) = some (.resp .host .indexError (.index 4)) := by decide
theorem test_setrgb_stores :
    after (exec (.setrgb 1 0 0xFF8000 100) idle) (·.buf[1]?) = some (some ⟨255, 128, 0, 100⟩) := by decide
/-- V-D16: the colour is examined before the index. -/
theorem test_setrgb_value_first :
    said (exec (.setrgb 4 1 0xFF8000 100) idle) = some (.resp .host .valueError (.word1 0x01FF8000)) := by decide
theorem test_get_unclamped :
    said (exec (.get 3) idle) = some (.resp .host .ok (.pixel ⟨-5, 300, 256, 200⟩)) := by decide
theorem test_get_outside : said (exec (.get 4) idle) = some (.resp .host .indexError (.index 4)) := by decide
theorem test_blank : after (exec .blank idle) (·.buf) = some (List.replicate 4 ⟨0, 0, 0, 0⟩) := by decide
/-- V-B steps 8 and 11: `ROTATE 1` and `ROTATE -7` give the same buffer. -/
theorem test_rotate_plus :
    after (exec (.rotate 1) idle) (·.buf) =
      some [⟨-5, 300, 256, 200⟩, ⟨255, 0, 0, 100⟩, ⟨0, 255, 0, 100⟩, ⟨0, 0, 255, -1⟩] ∧
    after (exec (.rotate (-7)) idle) (·.buf) = after (exec (.rotate 1) idle) (·.buf) := by decide
theorem test_rotate_minus :
    after (exec (.rotate 1) { idle with cfg := { Cfg.atReset with rotateDir := .minusOne } }) (·.buf) =
      some [⟨0, 255, 0, 100⟩, ⟨0, 0, 255, -1⟩, ⟨-5, 300, 256, 200⟩, ⟨255, 0, 0, 100⟩] := by decide
theorem test_order :
    said (exec .order (black { Cfg.atReset with n := 6, lorder := some [(3, 5), (2, 0)] })) =
      some (.resp .host .ok (.order [3, 4, 5, 2, 1, 0])) := by decide
/-- P1, V-R2 with `MAX_CHUNK = 8`. -/
theorem test_render_chunks :
    said (exec .render { black { Cfg.atReset with wire := wireOfBits 0x27, maxChunk := 8 } with
      buf := [⟨255, 0, 0, 100⟩, ⟨255, 128, 0, 100⟩, ⟨255, 128, 0, 50⟩, ⟨0, 0, 255, 10⟩] }) =
      some (.resp .host .ok (.chunks [[0, 0, 0, 0, 0xFF, 0, 0xFF, 0], [0xFF, 0x80, 0xFF, 0, 0xFF, 0x40, 0x80, 0],
        [0xFF, 0, 0, 0x1A, 0]])) := by decide
/-- V-R5: the order applied. -/
theorem test_render_order :
    said (exec .render { black { modeH with n := 6, lorder := some [(3, 5), (2, 0)] } with
      buf := [⟨10, 0, 0, 100⟩, ⟨20, 0, 0, 100⟩, ⟨30, 0, 0, 100⟩, ⟨40, 0, 0, 100⟩, ⟨50, 0, 0, 100⟩, ⟨60, 0, 0, 100⟩] }) =
      some (.resp .host .ok (.chunks [[0, 0, 0, 0, 0xFF, 0x28, 0, 0, 0xFF, 0x32, 0, 0, 0xFF, 0x3C, 0, 0,
        0xFF, 0x1E, 0, 0, 0xFF, 0x14, 0, 0, 0xFF, 0x0A, 0, 0, 0]])) := by decide
/-- P1 line 7. -/
theorem test_encode :
    said (exec (.encode 255 128 0 50) (black { Cfg.atReset with wire := wireOfBits 0x27 })) =
      some (.resp .host .ok (.led [0xFF, 0x40, 0x80, 0x00])) := by decide
/-- R38: the pixel used last comes first, the least recently used one is evicted. -/
theorem test_cache_lru :
    (Cache.use 2 ⟨3, 0, 0, 0⟩ [3] (Cache.use 2 ⟨1, 0, 0, 0⟩ [1] [(⟨2, 0, 0, 0⟩, [2]), (⟨1, 0, 0, 0⟩, [1])])) =
      [(⟨3, 0, 0, 0⟩, [3]), (⟨1, 0, 0, 0⟩, [1])] := by decide

/-! ### Set-up, start, cancellation: R141, V-S, V-X -/

theorem test_regcb_order :
    after (exec (.regcb 3) { idle with cblist := [7] }) (·.cblist) = some [7, 3] := by decide
theorem test_regcb_stopped :
    said (exec (.regcb 7) (stopped Cfg.atReset)) = some (.resp .host .illegalState (.sched .stopped)) := by decide
/-- P4: `T0` and `DEADLINE` from the clock. -/
theorem test_start_accepts :
    after (exec .start { black hooked with clockIn := [1000] })
      (fun t => (t.sched, t.phase, t.t0, t.deadline, t.trace)) =
      some (.running, .pInit, 1000, some 1025, []) := by decide
/-- V-X4. -/
theorem test_start_config_fault :
    said (exec .start (black gapped)) =
      some (.resp .host .configurationError (.config (.logicalOrder [3]))) := by decide
theorem test_cancel_wait :
    after (exec .cancel { running Cfg.atReset .pAdv with wake := some 10 })
      (fun t => (t.cancelPending, t.wake)) = some (true, none) := by decide
theorem test_cancel_idle : after (exec .cancel idle) (· == idle) = some true := by decide

/-! ### The wire rows: R70 to R72 -/

theorem test_start_frame : after (exec .startFrame idle) (·.asm) = some [0, 0, 0, 0] := by decide
theorem test_led_cmd :
    after (exec (.ledCmd 16 0xFF 0x80 0) { idle with asm := [0] }) (·.asm) = some [0, 0xF0, 0xFF, 0x80, 0] := by decide
theorem test_end_pad : after (exec .endPad { idle with asm := [7] }) (·.asm) = some [7, 0] := by decide

/-! ### Steps: R191, R186, the phases, P3 to P5 -/

/-- V-X5: configuration fault comes before the decoder. -/
theorem test_step_config_fault :
    said (step { black gapped with inbox := [.host 0] }) =
      some (.resp .host .configurationError (.config (.logicalOrder [3]))) := by decide
theorem test_step_illegal :
    said (step { idle with inbox := [.host 0x040000010000000000000000] }) =
      some (.resp .host .illegalCommand (.command 0x040000010000000000000000)) := by decide
/-- R186: a host command in a run. -/
theorem test_step_host_in_run :
    said (step { running Cfg.atReset .pCb with inbox := [.host 0x040000000000000000000000] }) =
      some (.resp .host .illegalState (.sched .running)) := by decide
/-- V-S8: a callback issues `START`. -/
theorem test_step_callback_start :
    said (step { running Cfg.atReset .pCb with
      calling := some ⟨7, .update 4 3 0 0⟩, inbox := [.agent 0x110000000000000000000000] }) =
      some (.resp .agent .illegalState (.sched .running)) := by decide
/-- P3: callback 7 writes a slot. -/
theorem test_step_callback_set :
    after (step { running Cfg.atReset .pCb with
      calling := some ⟨7, .update 4 3 0 0⟩, inbox := [.agent 0x010000000001000000000064] })
      (fun t => (t.buf[0]?, t.trace)) = some (some ⟨1, 0, 0, 100⟩, [.resp .agent .ok .empty]) := by decide
/-- P3: the first frame, then the call of callback 7. -/
theorem test_step_first_frame :
    after (step (running { Cfg.atReset with n := 2 } .pFirst)) (fun t => (t.phase, t.trace)) =
      some (.pTop, [.txWrite [0, 0, 0, 0, 0xFF, 0, 0, 0, 0xFF, 0, 0, 0, 0]]) := by decide
theorem test_step_call :
    said (step { running Cfg.atReset .pCb with step := 2, cycle := 1 }) = some (.call 7 (.update 4 3 2 1)) := by decide
/-- V-S10: a faulting callback drains. -/
theorem test_step_callback_fault :
    after (step { running Cfg.atReset .pCb with calling := some ⟨7, .update 4 3 1 0⟩, inbox := [.ret .fault] })
      (fun t => (t.sched, t.phase, t.exitReason)) = some (.draining, .pShut, .callbackFault) := by decide
/-- P3: the wait of the first tick. -/
theorem test_step_pace :
    after (step { running Cfg.atReset .pPace with t0 := 1000, clock := 1000, clockIn := [3] })
      (fun t => (t.k, t.phase, t.wake, t.clock)) = some (1, .pAdv, some 1010, 1003) := by decide
theorem test_step_pace_late :
    after (step { running Cfg.atReset .pPace with t0 := 1000, clock := 1000, clockIn := [10] })
      (fun t => (t.k, t.phase, t.wake)) = some (1, .pAdv, none) := by decide
/-- P4c: a wait that returns at 36. -/
theorem test_step_wait_ends :
    after (step { running Cfg.atReset .pAdv with wake := some 30, clock := 20, clockIn := [6] })
      (fun t => (t.clock, t.wake, t.phase)) = some (36, none, .pAdv) := by decide
theorem test_step_wrap :
    after (step { running Cfg.atReset .pAdv with step := 2, cycle := 1 })
      (fun t => (t.step, t.cycle, t.phase)) = some (0, 2, .pHold) := by decide
/-- P4: 30 is past 25, P4b: 25 is not. -/
theorem test_step_deadline :
    after (step { running hooked .pTop with deadline := some 25, clock := 30, clockIn := [0] })
      (fun t => (t.sched, t.exitReason)) = some (.draining, .deadline) ∧
    after (step { running hooked .pTop with deadline := some 25, clock := 25, clockIn := [0] })
      (fun t => (t.sched, t.phase)) = some (.running, .pCb) := by decide
/-- V-S16: the limit is looked at before the deadline. -/
theorem test_step_limit_first :
    after (step { running hooked .pCheck with cycle := 2, deadline := some 25, clock := 99 })
      (fun t => (t.sched, t.exitReason)) = some (.draining, .cycleLimit) := by decide
/-- P5: `CANCEL` is honoured at `P_ADV`, which does not act. -/
theorem test_step_cancelled :
    after (step { running Cfg.atReset .pAdv with step := 1, cancelPending := true })
      (fun t => (t.sched, t.phase, t.exitReason, t.step)) = some (.draining, .pShut, .interrupted, 1) := by decide
/-- P5: the last frame is blank, in mode C. -/
theorem test_step_clear :
    after (step { draining { Cfg.atReset with n := 2 } .pClear with buf := [⟨200, 100, 50, 100⟩, ⟨1, 2, 3, 4⟩] })
      (fun t => (t.buf, t.trace)) =
      some ([⟨0, 0, 0, 0⟩, ⟨0, 0, 0, 0⟩], [.txWrite [0, 0, 0, 0, 0xFF, 0, 0, 0, 0xFF, 0, 0, 0, 0]]) := by decide
/-- V-S14: `CANCEL` during the drain, reason `CycleLimit`. -/
theorem test_step_close :
    after (step { draining Cfg.atReset .pClose with cancelPending := true })
      (fun t => (t.sched, t.closed, t.trace)) =
      some (.stopped, true, [.txClose, .resp .host .interrupted (.exit .cycleLimit)]) := by decide
/-- R158, R165, R180: a shutdown hook's fault replaces `EXIT_REASON`; the answer after a `CANCEL` has the
reason recorded first, without one it is `CallbackFault`. -/
theorem test_step_shutdown_fault :
    after (step { draining hooked .pShut with calling := some ⟨9, .shutdown 4⟩, inbox := [.ret .fault] })
      (fun t => (t.phase, t.exitReason, t.firstReason)) = some (.pClear, .callbackFault, .cycleLimit) ∧
    said (step { draining hooked .pClose with exitReason := .callbackFault, cancelPending := true }) =
      some (.resp .host .interrupted (.exit .cycleLimit)) ∧
    said (step { draining hooked .pClose with exitReason := .callbackFault }) =
      some (.resp .host .callbackFault .empty) := by decide
/-- V-X6: reset during a run emits nothing. -/
theorem test_step_reset :
    after (step { running Cfg.atReset .pCb with calling := some ⟨7, .update 4 3 0 0⟩, inbox := [.reset modeH] })
      (fun t => (t.sched, t.calling, t.cblist, t.trace, t.cfg == modeH)) =
      some (.idle, none, [], [], true) := by decide
/-- The word placed for the next step is run by it, as the first instruction after reset. -/
theorem test_fetch_word :
    said (step (State.reset.withFetchWord 96 0x060000000000000000000000)) =
      some (.resp .host .ok (.order [0, 1, 2, 3])) ∧
    after (step (State.reset.withFetchWord 32 0xF0FF8000)) (·.asm) = some [0xF0, 0xFF, 0x80, 0] ∧
    after (step (State.reset.withFetchWord 8 0)) (·.asm) = some [0] ∧
    after (step (State.reset.withFetchWord 0 0)) (· == State.reset) = some true := by decide

/-! ### The assembler: R78 to R81 -/

/-- R81: `SET 0, -5, 300, 256, 200`. -/
theorem test_assemble_set :
    assembleLine ['S', 'E', 'T', ' ', '0', ',', ' ', '-', '5', ',', ' ', '3', '0', '0', ',', '2', '5', '6', ',',
      ' ', '2', '0', '0', ' ', ';', ' ', 'x'] = .ok (some (.set 0 (-5) 300 256 200)) := by decide
/-- R79: the hex string and the default brightness. -/
theorem test_assemble_hex :
    assembleLine ['S', 'E', 'T', 'R', 'G', 'B', ' ', '1', ',', ' ', '"', '#', 'F', 'F', '8', '0', '0', '0', '"'] =
      .ok (some (.setrgb 1 0 0xFF8000 100)) := by decide
theorem test_assemble_malformed :
    assembleLine ['S', 'E', 'T', 'R', 'G', 'B', ' ', '1', ',', ' ', '"', 'F', 'F', '8', '"'] =
      .error .malformedColour := by decide
/-- R80, G4: a preset. -/
theorem test_assemble_preset :
    assembleLine ['S', 'E', 'T', 'P', ' ', '2', ',', ' ', 'G', 'R', 'E', 'E', 'N'] =
      .ok (some (.set 2 0 255 0 100)) := by decide
theorem test_assemble_plain :
    assembleLine ['R', 'E', 'N', 'D', 'E', 'R'] = .ok (some .render) ∧ assembleLine [';', 'x'] = .ok none := by decide

/-! ### Witnesses: concrete states of the invariant -/

/-- A state without an invocation, wait or cache entry meets the invariant when its plain fields do. -/
theorem inv_plain {s : State} (calling : s.calling = none) (wake : s.wake = none) (cache : s.cache = [])
    (h : configRefused s.cfg = false ∧ s.configFault = configError s.cfg ∧
      (s.configFault = none → Memory.wf (leds s.cfg) s.buf = true) ∧
      (s.configFault = none → s.ord = orderTable s.cfg) ∧ (s.configFault ≠ none → s.sched = .idle) ∧
      (runInProgress s.sched = true → phaseOf s.phase = s.sched))
    (h' : s.step < stepsPerCycle s.cfg ∧ s.cbi ≤ s.cblist.length ∧ (s.closed = true ↔ s.sched = .stopped) ∧
      (s.cancelPending = true → s.sched ≠ .idle) ∧ (s.sched = .running → s.exitReason = .noReason) ∧
      (s.sched = .draining ∨ s.sched = .stopped → s.exitReason ≠ .noReason) ∧
      (s.sched = .draining ∨ s.sched = .stopped →
        s.firstReason ≠ .noReason ∧ (s.exitReason = s.firstReason ∨ s.exitReason = .callbackFault)) ∧
      (runInProgress s.sched = true → s.deadline = (durationUnits s.cfg).map fun d => s.t0 + d) ∧
      (s.sched = .running → s.wake = none → s.cancelPending = false →
        s.t0 + s.k * tickUnits s.cfg ≤ s.clock)) : Inv s := by
  obtain ⟨a, b, c, d, e, f⟩ := h
  obtain ⟨g, i, j, k, l, m, f', n, o⟩ := h'
  exact ⟨a, b, c, d, e, f, by simp [callFits, calling], by simp [wakeFits, wake], g, i,
    by simp [cacheSound, cache], by simp [cache], j, k, l, m, f', n, o⟩

theorem inv_idle : Inv idle := inv_plain rfl rfl rfl (by decide) (by decide)
theorem inv_running_first : Inv (running Cfg.atReset .pFirst) := inv_plain rfl rfl rfl (by decide) (by decide)
theorem inv_running_paint : Inv (running Cfg.atReset .pPaint) := inv_plain rfl rfl rfl (by decide) (by decide)
theorem inv_draining_clear : Inv (draining Cfg.atReset .pClear) := inv_plain rfl rfl rfl (by decide) (by decide)
theorem inv_stopped : Inv (stopped Cfg.atReset) := inv_plain rfl rfl rfl (by decide) (by decide)
theorem inv_faulty : Inv (black gapped) := inv_plain rfl rfl rfl (by decide) (by decide)

/-- A state at the top of a tick past its deadline: `K * TICK = 30 > 25`. -/
def late : State :=
  { running hooked .pTop with k := 3, step := 2, clock := 30, deadline := some 25 }

theorem inv_late : Inv late := inv_plain rfl rfl rfl (by decide) (by decide)

theorem ready_idle : Ready .buffer idle := ⟨rfl, rfl⟩
theorem ready_callback :
    Ready .buffer { running Cfg.atReset .pCb with calling := some ⟨7, .update 4 3 0 0⟩, issuer := .agent } :=
  ⟨rfl, rfl⟩

/-! ### Witnesses: encodings and the encoder -/

theorem witness_DecodeInvertsEncode :
    (Instr.set (2 ^ 24 - 1) (-32768) 32767 (-32768) 32767).wellFormed = true ∧
    (Instr.ledCmd 31 255 0 255).wellFormed = true ∧ Instr.cancel.wellFormed = true := by decide
theorem witness_EncodeInvertsDecode :
    decode (.command 0x01FFFFFF80007FFF80007FFF) = .ok (.set 16777215 (-32768) 32767 (-32768) 32767) ∧
    decode (.wireQuad 0xFFFFFFFF) = .ok (.ledCmd 31 255 255 255) := by decide
theorem witness_CommandDecodesIffExactlyOneRowSelects :
    opField 0x090000000000000000000000 ∉
      ([0x01, 0x02, 0x03, 0x04, 0x05, 0x06, 0x07, 0x08, 0x10, 0x11] : List (BitVec 8)) ∧
    idle.configFault = none ∧
    (commandRows.filter fun r => r.selects 0x090000000000000000000000) = [] ∧
    (commandRows.filter fun r => r.selects 0x040000010000000000000000) = [] ∧
    (commandRows.filter fun r => r.selects 0x040000000000000000000000).length = 1 := by decide
theorem witness_ByteStringsDecodeMostSignificantFirst :
    (Instr.rotate (-2 ^ 31)).wellFormed = true ∧ Instr.rotate (-2 ^ 31) ≠ .cancel := by decide
/-- R96: 2.5, a tie, under both rules, and the least denominator. -/
theorem witness_RoundingPrimitivesAreExact :
    (0 : Int) < 1 ∧ (0 : Int) < 10000 ∧ (17 : Int) ≤ 2 * 16 ∧
    2 * |roundNearest .halfEven 25000 10000 * 10000 - 25000| = 10000 ∧
    2 * |roundNearest .halfAway (-25000) 10000 * 10000 - (-25000)| = 10000 := by decide
theorem witness_HeaderFieldOfScaleViaHeader :
    modeH.mode = .scaleViaHeader ∧ modeH.maxb = 100 ∧ (0 : Int) < 1 * modeH.maxb ∧
    (0 : Int) * modeH.maxb ≤ 0 ∧ (10000 : Int) ≤ 100 * modeH.maxb := by decide
theorem witness_LedCommandHoldsHeaderAndPlacedColours :
    wireBijective Cfg.atReset.wire = true ∧ wireBijective (wireOfBits 0x39) = true := by decide
/-- The fields -1, 0, 255 and 256 at scale 1, in both modes: below, at and above the range; and 2.5, a tie
(V-C4), under both rules. -/
theorem witness_ColourValuesOfTheTwoModes :
    modeH.mode = .scaleViaHeader ∧ Cfg.atReset.mode = .scaleViaColor ∧
    [-1, 0, 255, 256].map (colourValue modeH 100) = [0, 0, 255, 255] ∧
    [-1, 0, 255, 256].map (colourValue Cfg.atReset 100) = [0, 0, 255, 255] ∧
    2 * |(2 : Int) * 10000 - 5 * 50 * Cfg.atReset.maxb| = 10000 ∧ Cfg.atReset.roundTie = .halfEven ∧
    colourValue Cfg.atReset 50 5 = 2 ∧
    colourValue { Cfg.atReset with roundTie := .halfAway } 50 5 = 3 := by decide
theorem witness_EncoderPropertiesForChecking :
    modeH.mode = .scaleViaHeader ∧ Cfg.atReset.mode = .scaleViaColor ∧ Cfg.atReset.maxb = 100 ∧
    (⟨255, 128, 0, 0⟩ : Pixel).br = 0 ∧
    (⟨1, 2, 3, 96⟩ : Pixel).br * modeH.maxb ≤ (⟨1, 2, 3, 97⟩ : Pixel).br * modeH.maxb := by decide
theorem witness_ExactlySixWireOrdersAreLegal :
    0 < Cfg.atReset.n ∧ (0x15 : BitVec 6) ∉ ([0x1B, 0x1E, 0x27, 0x36, 0x2D, 0x39] : List (BitVec 6)) ∧
    wireBijective (wireOfBits 0x15) = false ∧ wireBijective (wireOfBits 0x1B) = true := by decide

/-! ### Witnesses: frames -/

/-- V-R2 with `MAX_CHUNK` 20 and 21: two chunks and one. -/
theorem witness_ChunksCutTheFrameExactly :
    1 ≤ 20 ∧ 1 ≤ (List.replicate 21 (0 : Byte)).length ∧
    (chunks 20 (List.replicate 21 0)).map List.length = [20, 1] ∧
    (chunks 21 (List.replicate 21 0)).map List.length = [21] := by decide
theorem witness_FrameAddressMap : Inv idle ∧ idle.configFault = none ∧ 3 < leds idle.cfg :=
  ⟨inv_idle, rfl, by decide⟩
theorem witness_RenderAnswersThePureFrame : Inv idle ∧ Ready .buffer idle := ⟨inv_idle, ready_idle⟩
theorem witness_EncodeAnswersEncodePure :
    cacheSound idle ∧ Ready .buffer idle ∧ 1 ≤ cacheCapacity idle.cfg :=
  ⟨inv_idle.cacheSound, ready_idle, by decide⟩
theorem witness_CacheContentsNeverShow :
    (Instr.encode 1 2 3 0).commandClass.isSome = true ∧ cacheSound idle ∧
    cacheSound { idle with cache := [(⟨1, 2, 3, 0⟩, [0xFF, 0, 0, 0])] } ∧
    ∃ t, exec (.encode 1 2 3 0) idle = .next t := by
  refine ⟨rfl, inv_idle.cacheSound, ?_, _, rfl⟩
  intro e he
  rw [List.mem_singleton.1 he]; decide

/-! ### Witnesses: the logical order and reset -/

theorem witness_LegalOrderIsAPermutation :
    configError Cfg.atReset = none ∧ Cfg.atReset.lorder = none ∧ 3 < leds Cfg.atReset ∧
    configError { Cfg.atReset with lorder := some [(3, 0)] } = none := by decide
theorem witness_RangesRunBothWays :
    (2 : Int) ≤ 2 ∧ (2 : Int) < 3 ∧ expandRange 2 2 = [2] ∧ expandRange 3 2 = [3, 2] ∧
    expandRange 2 3 = [2, 3] := by decide
theorem witness_OffendingIndicesAreExactlyNamed :
    0 < gapped.n ∧ wireBijective gapped.wire = true ∧ gapped.lorder = some [(0, 2), (4, 9)] ∧
    offending (expand [(0, 2), (4, 9)]) (leds gapped) ≠ [] ∧ offending (expand [(3, 0)]) 4 = [] := by decide
theorem witness_ResetValues :
    configRefused Cfg.atReset = false ∧ configError Cfg.atReset = none ∧
    configRefused gapped = false ∧ configError gapped ≠ none := by decide

/-! ### Witnesses: commands -/

theorem witness_SetStoresOneSlot :
    Ready .buffer idle ∧ Memory.wf (leds idle.cfg) idle.buf = true ∧ 3 < leds idle.cfg ∧ leds idle.cfg ≤ 4 :=
  ⟨ready_idle, by decide⟩
theorem witness_SetrgbStoresTheDecomposedColour :
    Ready .buffer idle ∧ Memory.wf (leds idle.cfg) idle.buf = true ∧ 3 < leds idle.cfg ∧ leds idle.cfg ≤ 4 ∧
    (0xFF : BitVec 8) ≠ 0 :=
  ⟨ready_idle, by decide⟩
theorem witness_GetAnswersTheSlotAsStored :
    Ready .buffer idle ∧ Memory.wf (leds idle.cfg) idle.buf = true ∧ 3 < leds idle.cfg ∧ leds idle.cfg ≤ 4 :=
  ⟨ready_idle, by decide⟩
theorem witness_BlankClearsEverySlot :
    Ready .buffer idle ∧ Memory.wf (leds idle.cfg) idle.buf = true ∧ 3 < leds idle.cfg ∧ leds idle.cfg ≤ 4 :=
  ⟨ready_idle, by decide⟩
/-- `N = 4`, `ROTATE -7`: slot 3 goes to slot 0. -/
theorem witness_RotateMovesEverySlot :
    Ready .buffer idle ∧ Memory.wf (leds idle.cfg) idle.buf = true ∧ 0 < leds idle.cfg ∧
    3 < leds idle.cfg ∧ (0 : Int) = (3 + (-7)) % (leds idle.cfg : Int) :=
  ⟨ready_idle, by decide⟩
theorem witness_RotateBackRestoresTheBuffer :
    Ready .buffer idle ∧ Memory.wf (leds idle.cfg) idle.buf = true ∧ 0 < leds idle.cfg ∧
    (-8 : Int) = (-2) * (leds idle.cfg : Int) :=
  ⟨ready_idle, by decide⟩
theorem witness_OrderAnswersTheConfiguredOrder : Inv idle ∧ Ready .buffer idle := ⟨inv_idle, ready_idle⟩
theorem witness_RegcbAppendsInIdleOnly :
    idle.configFault = none ∧ idle.sched = .idle ∧ idle.issuer = .host ∧
    (stopped Cfg.atReset).configFault = none ∧ (stopped Cfg.atReset).sched ≠ .idle := by decide
theorem witness_StartIsAcceptedInIdleOnly :
    Ready .setup idle ∧ (stopped Cfg.atReset).configFault = none ∧ (stopped Cfg.atReset).sched ≠ .idle ∧
    (black gapped).configFault = some (.logicalOrder [3]) :=
  ⟨⟨rfl, rfl⟩, by decide⟩
theorem witness_CancelIsLatchedInARunOnly :
    (running Cfg.atReset .pAdv).configFault = none ∧ (running Cfg.atReset .pAdv).sched = .running ∧
    (draining Cfg.atReset .pClear).sched = .draining ∧ idle.sched = .idle ∧
    (stopped Cfg.atReset).sched = .stopped ∧ (black gapped).configFault ≠ none ∧
    ({ draining Cfg.atReset .pClear with cancelPending := true } : State).cancelPending = true ∧
    ({ draining Cfg.atReset .pClear with cancelPending := true } : State).wake = none := by decide
theorem witness_CommandsAnswerOnceAndErrorsChangeNothing :
    (Instr.set 4 1 1 1 1).commandClass.isSome = true ∧ (∃ t, exec (.set 4 1 1 1 1) idle = .next t) ∧
    Instr.start.commandClass.isSome = true ∧ (∃ t, exec .start idle = .next t) :=
  ⟨rfl, ⟨_, rfl⟩, rfl, ⟨_, rfl⟩⟩
theorem witness_ChecksInOrderOfPriority :
    (black gapped).configFault = some (.logicalOrder [3]) ∧ idle.configFault = none ∧
    decodeCommand 0 = .error .reservedOpcode ∧
    decodeCommand 0x110000000000000000000000 = .ok .start ∧ Instr.start.commandClass = some .setup ∧
    mayIssue .setup { stopped Cfg.atReset with issuer := .host } = false ∧
    Ready .buffer { idle with issuer := .host } ∧
    decodeCommand 0x0200000401FF800000000064 = .ok (.setrgb 4 1 0xFF8000 100) ∧
    decodeCommand 0x0200000400FF800000000064 = .ok (.setrgb 4 0 0xFF8000 100) ∧
    decodeCommand 0x030000040000000000000000 = .ok (.get 4) ∧ leds idle.cfg ≤ 4 :=
  ⟨rfl, rfl, by decide, by decide, rfl, by decide, ⟨rfl, rfl⟩, by decide⟩
theorem witness_ChecksInOrderOfPriority_reset :
    (0 : Int) ≤ 0 ∧ (0 : Int) < 1 ∧ wireBijective (wireOfBits 0x15) = false ∧
    wireBijective Cfg.wireRGB = true := by decide
theorem witness_OnlyTheTablesIssuersMayCommand :
    idle.configFault = none ∧ Instr.start.commandClass = some .setup ∧
    mayIssue .setup (stopped Cfg.atReset) = false ∧ mayIssue .buffer (stopped Cfg.atReset) = true := by decide
theorem witness_StepRunsTheDecodedInstruction :
    idle.configFault = none ∧ idle.calling = none ∧
    decodeCommand 0x110000000000000000000000 = .ok .start ∧
    ({ running Cfg.atReset .pCb with calling := some ⟨7, .update 4 3 0 0⟩ } : State).calling ≠ none ∧
    decodeWireQuad 0xE0000000 = .ok (.ledCmd 0 0 0 0) ∧ decodeWireByte 0 = .ok .endPad := by decide

/-! ### Witnesses: the phases -/

theorem at_running (c : Cfg) (p : Phase) (h : configError c = none) : AtPhase p (running c p) :=
  ⟨h, rfl, rfl, rfl, rfl, rfl⟩
theorem at_draining (c : Cfg) (p : Phase) (h : configError c = none) : AtDrain p (draining c p) :=
  ⟨h, rfl, rfl, rfl⟩

theorem witness_InitHookThenTheFirstFrame :
    AtPhase .pInit (running Cfg.atReset .pInit) ∧ Cfg.atReset.initHook = none ∧
    AtPhase .pInit (running hooked .pInit) ∧ hooked.initHook = some 8 ∧
    ({ running hooked .pInit with calling := some ⟨8, .init 4⟩ } : State).calling = some ⟨8, .init 4⟩ ∧
    Inv (running Cfg.atReset .pFirst) ∧ AtPhase .pFirst (running Cfg.atReset .pFirst) ∧
    (running Cfg.atReset .pFirst).inbox = [] :=
  ⟨at_running _ _ (by decide), rfl, at_running _ _ (by decide), rfl, rfl, inv_running_first,
    at_running _ _ (by decide), rfl⟩
/-- The clock at the deadline and one past it. -/
theorem witness_TopOfTickTestsTheDeadline :
    AtPhase .pTop (running Cfg.atReset .pTop) ∧ (running Cfg.atReset .pTop).inbox = [] ∧
    (running Cfg.atReset .pTop).deadline = none ∧
    AtPhase .pTop { running hooked .pTop with deadline := some 25, clock := 25, clockIn := [0] } ∧
    after (step { running hooked .pTop with deadline := some 25, clock := 25, clockIn := [0] }) (·.clock) = some 25 ∧
    after (step { running hooked .pTop with deadline := some 25, clock := 25, clockIn := [1] }) (·.clock) = some 26 :=
  ⟨at_running _ _ (by decide), rfl, rfl, ⟨by decide, rfl, rfl, rfl, rfl, rfl⟩, by decide, by decide⟩
theorem witness_CallbackPhaseCallsAndCollects :
    AtPhase .pCb (running Cfg.atReset .pCb) ∧ (running Cfg.atReset .pCb).inbox = [] ∧
    (running Cfg.atReset .pCb).cblist[(running Cfg.atReset .pCb).cbi]? = some 7 ∧
    AtPhase .pCb { running Cfg.atReset .pCb with cbi := 1 } ∧ [7].length ≤ 1 ∧
    ({ running Cfg.atReset .pCb with calling := some ⟨7, .update 4 3 0 0⟩ } : State).calling =
      some ⟨7, .update 4 3 0 0⟩ :=
  ⟨at_running _ _ (by decide), rfl, rfl, ⟨by decide, rfl, rfl, rfl, rfl, rfl⟩, by decide, rfl⟩
theorem witness_OneTickCallsEveryCallbackInOrder :
    AtPhase .pCb { running Cfg.atReset .pCb with
      cblist := [7, 3], inbox := [.pass, .ret (.bool false), .pass, .ret (.bool true)] } ∧
    [false, true].length = [7, 3].length ∧
    [Input.pass, .ret (.bool false), .pass, .ret (.bool true)] =
      ([false, true].flatMap fun b => [Input.pass, Input.ret (.bool b)]) ++ [] :=
  ⟨⟨by decide, rfl, rfl, rfl, rfl, rfl⟩, by decide⟩
theorem witness_RepaintSendsTheFrameIffRequested :
    Inv (running Cfg.atReset .pPaint) ∧ AtPhase .pPaint (running Cfg.atReset .pPaint) ∧
    (running Cfg.atReset .pPaint).inbox = [] ∧ (running Cfg.atReset .pPaint).repaint = false ∧
    Inv { running Cfg.atReset .pPaint with repaint := true } ∧
    AtPhase .pPaint { running Cfg.atReset .pPaint with repaint := true } :=
  ⟨inv_running_paint, at_running _ _ (by decide), rfl, rfl, Laws.inv_outside inv_running_paint _ _ _ _ true,
    ⟨by decide, rfl, rfl, rfl, rfl, rfl⟩⟩
theorem witness_PacingWaitsForTheBoundary :
    AtPhase .pPace (running Cfg.atReset .pPace) ∧ AtPhase .pHold (running Cfg.atReset .pHold) ∧
    (running Cfg.atReset .pHold).inbox = [] ∧
    after (step { running Cfg.atReset .pHold with clockIn := [9] }) (·.wake) = some (some 10) ∧
    after (step { running Cfg.atReset .pHold with clockIn := [10] }) (·.wake) = some none ∧
    ({ running Cfg.atReset .pAdv with wake := some 10 } : State).wake = some 10 ∧
    ({ running Cfg.atReset .pAdv with wake := some 10 } : State).cancelPending = false ∧
    ({ running Cfg.atReset .pAdv with wake := some 10 } : State).configFault = none :=
  ⟨at_running _ _ (by decide), at_running _ _ (by decide), rfl, by decide, by decide, rfl, rfl, by decide⟩
/-- `S = 3` with `STEP` 1 and 2, and `S = 1`. -/
theorem witness_StepCounterWrapsIntoTheCycleCounter :
    AtPhase .pAdv { running Cfg.atReset .pAdv with step := 1 } ∧ 1 + 1 < stepsPerCycle Cfg.atReset ∧
    AtPhase .pAdv { running Cfg.atReset .pAdv with step := 2 } ∧ stepsPerCycle Cfg.atReset ≤ 2 + 1 ∧
    AtPhase .pAdv (running { Cfg.atReset with steps := 1 } .pAdv) ∧
    stepsPerCycle { Cfg.atReset with steps := 1 } = 1 :=
  ⟨⟨by decide, rfl, rfl, rfl, rfl, rfl⟩, by decide, ⟨by decide, rfl, rfl, rfl, rfl, rfl⟩, by decide,
    at_running _ _ (by decide), by decide⟩
/-- `CYCLE_LIMIT = 2` with `CYCLE` 2 and 1, without and with a deadline, and unbounded. -/
theorem witness_CycleBoundaryTestsLimitThenDeadline :
    AtPhase .pCheck { running Cfg.atReset .pCheck with cycle := 2 } ∧ cycleMax Cfg.atReset = some 2 ∧
    AtPhase .pCheck { running Cfg.atReset .pCheck with cycle := 1 } ∧
    (∀ m, cycleMax Cfg.atReset = some m → 1 < m) ∧
    AtPhase .pCheck { running hooked .pCheck with cycle := 1, deadline := some 25, clock := 26, clockIn := [0] } ∧
    cycleMax { Cfg.atReset with cycleLimit := none } = none :=
  ⟨⟨by decide, rfl, rfl, rfl, rfl, rfl⟩, by decide, ⟨by decide, rfl, rfl, rfl, rfl, rfl⟩,
    by intro m h; simp [cycleMax, Cfg.atReset] at h; omega, ⟨by decide, rfl, rfl, rfl, rfl, rfl⟩, rfl⟩
theorem witness_PendingCancelStopsEveryPhase :
    ({ running Cfg.atReset .pAdv with cancelPending := true } : State).configFault = none ∧
    ({ running Cfg.atReset .pAdv with cancelPending := true } : State).calling = none ∧
    ({ running Cfg.atReset .pAdv with cancelPending := true } : State).wake = none ∧
    ({ running Cfg.atReset .pAdv with cancelPending := true } : State).inbox = [] ∧
    ({ running Cfg.atReset .pAdv with cancelPending := true } : State).exitReason = .noReason ∧
    ({ running Cfg.atReset .pAdv with exitReason := .deadline } : State).exitReason ≠ .noReason := by decide
theorem witness_DeadlinePassedByTheScheduleDrains :
    Inv late ∧ AtPhase .pTop late ∧ late.inbox = [] ∧ durationUnits late.cfg = some 25 ∧
    25 < late.k * tickUnits late.cfg :=
  ⟨inv_late, ⟨by decide, rfl, rfl, rfl, rfl, rfl⟩, rfl, by decide, by decide⟩

/-! ### Witnesses: the drain and the whole machine -/

theorem witness_ShutdownHookNeverStopsTheCleanup :
    AtDrain .pShut (draining Cfg.atReset .pShut) ∧ Cfg.atReset.shutdownHook = none ∧
    AtDrain .pShut (draining hooked .pShut) ∧ hooked.shutdownHook = some 9 ∧
    (draining hooked .pShut).inbox = [] ∧
    ({ draining hooked .pShut with calling := some ⟨9, .shutdown 4⟩ } : State).calling =
      some ⟨9, .shutdown 4⟩ :=
  ⟨at_draining _ _ (by decide), rfl, at_draining _ _ (by decide), rfl, rfl, rfl⟩
theorem witness_DrainBlanksClosesAndAnswers :
    Inv (draining Cfg.atReset .pClear) ∧ AtDrain .pClear (draining Cfg.atReset .pClear) ∧
    (draining Cfg.atReset .pClear).inbox = [] :=
  ⟨inv_draining_clear, at_draining _ _ (by decide), rfl⟩
theorem witness_EndOfRunIsAnsweredAfterTheClose :
    AtDrain .pClose (draining Cfg.atReset .pClose) ∧ (draining Cfg.atReset .pClose).inbox = [] ∧
    (draining Cfg.atReset .pClose).exitReason = .cycleLimit ∧
    AtDrain .pClose { draining Cfg.atReset .pClose with cancelPending := true } ∧
    AtDrain .pClose { draining Cfg.atReset .pClose with exitReason := .callbackFault } :=
  ⟨at_draining _ _ (by decide), rfl, rfl, ⟨by decide, rfl, rfl, rfl⟩, ⟨by decide, rfl, rfl, rfl⟩⟩
/-- Its second part: a step into the drain. -/
theorem witness_EndOfRunIsAnsweredAfterTheClose_entry :
    Inv late ∧ noResetNext late ∧ late.sched = .running ∧
    after (step { late with clockIn := [0] }) (fun t => (t.sched, t.firstReason)) = some (.draining, .deadline) ∧
    Inv { late with clockIn := [0] } :=
  ⟨inv_late, by simp [noResetNext, late, running, State.construct], rfl, by decide,
    inv_plain rfl rfl rfl (by decide) (by decide)⟩
/-- Its second part: a step in the drain that changes `EXIT_REASON`. -/
theorem witness_EndOfRunIsAnsweredAfterTheClose_fault :
    Inv { draining hooked .pShut with
      deadline := some 25, calling := some ⟨9, .shutdown 4⟩, inbox := [.ret .fault] } ∧
    (∃ t, step { draining hooked .pShut with
      deadline := some 25, calling := some ⟨9, .shutdown 4⟩, inbox := [.ret .fault] } = .next t ∧
      t.exitReason ≠ .cycleLimit) :=
  ⟨⟨by decide, by decide, by decide, by decide, by decide, by decide, ⟨rfl, rfl⟩, trivial, by decide, by decide,
    (by intro e he; cases he), by decide, by decide, by decide, by decide, by decide, by decide, by decide,
    by decide⟩, _, rfl, by decide⟩
theorem witness_ResetMeetsTheInvariant :
    configRefused Cfg.atReset = false ∧ configRefused gapped = false := by decide
theorem witness_EveryStepKeepsTheInvariant :
    Inv (draining Cfg.atReset .pClear) ∧ (∃ t, step (draining Cfg.atReset .pClear) = .next t) ∧
    Inv (black gapped) ∧ (∃ t, step (black gapped) = .next t) :=
  ⟨inv_draining_clear, ⟨_, rfl⟩, inv_faulty, ⟨_, rfl⟩⟩
theorem witness_InvariantRulesOutEveryFault : Inv idle ∧ Inv late := ⟨inv_idle, inv_late⟩
/-- A step of each kind: into a run, into the drain, to the end, and none. -/
theorem witness_SchedulerMovesOnlyForward :
    (Inv { idle with inbox := [.host 0x110000000000000000000000] } ∧
      noResetNext { idle with inbox := [.host 0x110000000000000000000000] } ∧
      ∃ t, step { idle with inbox := [.host 0x110000000000000000000000] } = .next t ∧ t.sched = .running) ∧
    (∃ t, step { running Cfg.atReset .pAdv with cancelPending := true } = .next t ∧ t.sched = .draining) ∧
    (∃ t, step (draining Cfg.atReset .pClose) = .next t ∧ t.sched = .stopped) :=
  ⟨⟨Laws.inv_outside inv_idle _ _ _ _ _, by simp [noResetNext, Input.isReset], _, rfl, rfl⟩,
    ⟨_, rfl, rfl⟩, ⟨_, rfl, rfl⟩⟩
theorem witness_ConfigurationChangesAtResetOnly :
    noResetNext idle ∧ ∃ t, step idle = .next t := ⟨by simp [noResetNext, idle, State.reset, State.construct], _, rfl⟩
theorem witness_TraceGrowsAndClockNeverRunsBack :
    ∃ t, step (draining Cfg.atReset .pClose) = .next t ∧ t.trace ≠ [] := ⟨_, rfl, by decide⟩
theorem witness_CallbackListChangesByRegcbOnly :
    noResetNext { idle with inbox := [.host 0x100000000000000700000000] } ∧
    ∃ t, step { idle with inbox := [.host 0x100000000000000700000000] } = .next t ∧ t.cblist ≠ idle.cblist :=
  ⟨by simp [noResetNext, Input.isReset], _, rfl, by decide⟩
theorem witness_InstructionsNeverTouchTheTransport :
    ∃ t, exec .render idle = .next t ∧ t.trace ≠ idle.trace := ⟨_, rfl, by decide⟩
theorem witness_NothingIsSentOutsideARun :
    Inv (stopped Cfg.atReset) ∧ noResetNext (stopped Cfg.atReset) ∧
    runInProgress (stopped Cfg.atReset).sched = false ∧ (stopped Cfg.atReset).sched = .stopped ∧
    ∃ t, step (stopped Cfg.atReset) = .next t :=
  ⟨inv_stopped, by simp [noResetNext, stopped, State.construct], rfl, rfl, _, rfl⟩
theorem witness_ConfigurationFaultOnlyAnswers :
    (black gapped).configFault = some (.logicalOrder [3]) ∧ configRefused Cfg.atReset = false ∧
    configError Cfg.atReset = none := by decide
theorem witness_RunWithoutCallbacksEndsAtTheCycleLimit :
    Inv { idle with inbox := [.host 0x110000000000000000000000] } ∧ idle.configFault = none ∧
    idle.sched = .idle ∧ idle.cblist = [] ∧ idle.cfg.initHook = none ∧ idle.cfg.shutdownHook = none ∧
    durationUnits idle.cfg = none ∧ cycleMax idle.cfg = some 2 :=
  ⟨Laws.inv_outside inv_idle _ _ _ _ _, by decide⟩

end Sys2Proof.Tests
end

section
/-! The rounding primitives of the model's arithmetic (spec/00_scope.md R8, spec/40_encoder.md R96). -/

namespace Sys2Proof.Laws

open Sys2Proof.Machine

/-! ### `ceil_div` (R8) -/

/-- The defining property of the least integer not below `a / d`. -/
theorem ceilDiv_le_iff {a d q : Int} (hd : 0 < d) : ceilDiv a d ≤ q ↔ a ≤ q * d := by
  calc ceilDiv a d ≤ q
    _ ↔ -q ≤ (-a) / d := neg_le
    _ ↔ -q * d ≤ -a := Int.le_ediv_iff_mul_le hd
    _ ↔ a ≤ q * d := by rw [neg_mul, neg_le_neg_iff]

theorem le_ceilDiv_mul {a d : Int} (hd : 0 < d) : a ≤ ceilDiv a d * d :=
  (ceilDiv_le_iff hd).1 le_rfl

/-! ### `round_nearest` (R8, R96) -/

/-- The answer is the floor when the remainder is at most half of `den`, its successor when it is at
least half; the tie rule chooses only where both hold. -/
theorem roundNearest_floor_or_succ (tie : RoundTie) (num den : Int) :
    (roundNearest tie num den = num / den ∧ 2 * (num % den) ≤ den) ∨
    (roundNearest tie num den = num / den + 1 ∧ den ≤ 2 * (num % den)) := by
  unfold roundNearest
  rcases lt_trichotomy (2 * (num % den)) den with hlow | htie | hhigh
  · simp [hlow, hlow.le]
  · cases tie <;> simp only [htie, lt_irrefl, if_false] <;> split <;> simp
  · simp [hhigh, hhigh.le, hhigh.not_gt]

theorem roundNearest_halfEven_of_tie {num den : Int} (htie : 2 * (num % den) = den) :
    roundNearest .halfEven num den =
      if num / den % 2 = 0 then num / den else num / den + 1 := by
  simp [roundNearest, htie]

theorem roundNearest_halfAway_of_tie {num den : Int} (htie : 2 * (num % den) = den) :
    roundNearest .halfAway num den = if 0 ≤ num then num / den + 1 else num / den := by
  simp [roundNearest, htie]

/-- The signed error of the answer: minus the remainder below half, the rest of `den` above. -/
theorem roundNearest_mul_sub (tie : RoundTie) (num den : Int) :
    (roundNearest tie num den * den - num = -(num % den) ∧ 2 * (num % den) ≤ den) ∨
    (roundNearest tie num den * den - num = den - num % den ∧ den ≤ 2 * (num % den)) := by
  have hdiv : num / den * den + num % den = num := Int.ediv_mul_add_emod num den
  rcases roundNearest_floor_or_succ tie num den with ⟨hfloor, hle⟩ | ⟨hsucc, hge⟩
  · exact .inl ⟨by rw [hfloor]; omega, hle⟩
  · exact .inr ⟨by rw [hsucc, add_one_mul]; omega, hge⟩

/-- Twice the distance from the quotient, times `den`. No integer is nearer than half a unit. -/
theorem two_mul_abs_roundNearest_sub_le (tie : RoundTie) {num den : Int} (hden : 0 < den) :
    2 * |roundNearest tie num den * den - num| ≤ den := by
  have hnonneg : 0 ≤ num % den := Int.emod_nonneg num hden.ne'
  have hlt : num % den < den := Int.emod_lt_of_pos num hden
  rcases roundNearest_mul_sub tie num den with ⟨herr, hle⟩ | ⟨herr, hge⟩
  · rwa [herr, abs_neg, abs_of_nonneg hnonneg]
  · rw [herr, abs_of_pos (by omega)]
    omega

/-- An error of half a unit comes from the exact tie only. -/
theorem two_mul_emod_eq_of_abs_roundNearest_sub (tie : RoundTie) {num den : Int} (hden : 0 < den)
    (hhalf : 2 * |roundNearest tie num den * den - num| = den) : 2 * (num % den) = den := by
  have hnonneg : 0 ≤ num % den := Int.emod_nonneg num hden.ne'
  have hlt : num % den < den := Int.emod_lt_of_pos num hden
  rcases roundNearest_mul_sub tie num den with ⟨herr, -⟩ | ⟨herr, -⟩
  · rwa [herr, abs_neg, abs_of_nonneg hnonneg] at hhalf
  · rw [herr, abs_of_pos (by omega)] at hhalf
    omega

theorem roundNearest_halfEven_even_of_tie {num den : Int} (htie : 2 * (num % den) = den) :
    roundNearest .halfEven num den % 2 = 0 := by
  rw [roundNearest_halfEven_of_tie htie]
  split
  · assumption
  · omega

theorem abs_lt_abs_roundNearest_halfAway_of_tie {num den : Int} (hden : 0 < den)
    (htie : 2 * (num % den) = den) : |num| < |roundNearest .halfAway num den * den| := by
  have hdiv : num / den * den + num % den = num := Int.ediv_mul_add_emod num den
  rw [roundNearest_halfAway_of_tie htie]
  split
  case isTrue hnum =>
    have hout : num < (num / den + 1) * den := by rw [add_one_mul]; omega
    rwa [abs_of_nonneg hnum, abs_of_nonneg (hnum.trans hout.le)]
  case isFalse hnum =>
    have hneg : num < 0 := not_le.1 hnum
    have hout : num / den * den < num := by omega
    rwa [abs_of_neg hneg, abs_of_neg (hout.trans hneg), neg_lt_neg_iff]

/-- Settles O6: `ceil_div` by its defining property, `round_nearest` by the error its two possible
answers leave, and each tie rule at the exact tie. -/
theorem roundingPrimitivesAreExact : Obligations.RoundingPrimitivesAreExact := by
  refine ⟨fun a d hd => ⟨le_ceilDiv_mul hd, fun q => (ceilDiv_le_iff hd).2⟩,
    fun tie num den hden => ⟨two_mul_abs_roundNearest_sub_le tie hden, fun hhalf => ?_⟩⟩
  have htie := two_mul_emod_eq_of_abs_roundNearest_sub tie hden hhalf
  constructor
  · rintro rfl
    exact roundNearest_halfEven_even_of_tie htie
  · rintro rfl
    exact abs_lt_abs_roundNearest_halfAway_of_tie hden htie

end Sys2Proof.Laws
end

section
/-! The cache never shows in what an instruction does (spec/10_state.md R38, spec/40_encoder.md R100). -/

namespace Sys2Proof.Laws

open Sys2Proof.Machine

/-- A result with the contents of the cache forgotten. -/
def withoutCache : Result → Result
  | .next t => .next { t with cache := [] }
  | .fault f => .fault f
  | .refused r => .refused r

/-- Equal up to the cache: the same outcome, and next states that agree on every other field. -/
theorem exists_next_of_withoutCache_eq {r : Result} {t : State}
    (h : withoutCache r = withoutCache (.next t)) :
    ∃ u, r = .next u ∧ { u with cache := t.cache } = t := by
  cases r with
  | next u =>
    have heq : ({ u with cache := [] } : State) = { t with cache := [] } := Host.Outcome.next.inj h
    exact ⟨u, rfl, congrArg (fun v : State => { v with cache := t.cache }) heq⟩
  | fault f => cases h
  | refused f => cases h

/-- A command its issuer may not give now answers `IllegalState` (R186). -/
theorem guarded_illegal {cls : CommandClass} {s : State} (hfault : s.configFault = none)
    (hmay : mayIssue cls s = false) (body : Result) :
    guarded cls s body = raise (.illegalState s.sched) s := by
  simp [guarded, hfault, hmay]

theorem withoutCache_guarded {body body' : Result} (cls : CommandClass) (s : State) (other : Cache)
    (h : withoutCache body' = withoutCache body) :
    withoutCache (guarded cls { s with cache := other } body') =
      withoutCache (guarded cls s body) := by
  rcases guarded_cases cls s body with ⟨e, hfault, heq⟩ | ⟨hfault, hmay, heq⟩ | ⟨hready, heq⟩
  · rw [heq]
    simp [guarded, hfault, withoutCache]
  · rw [heq, guarded_illegal (s := { s with cache := other }) hfault hmay]
    rfl
  · rw [heq, guarded_ready (s := { s with cache := other }) hready, h]

theorem withoutCache_storePixel (i : Nat) (p : Pixel) (s : State) (other : Cache) :
    withoutCache (storePixel i p { s with cache := other }) = withoutCache (storePixel i p s) := by
  unfold storePixel
  split <;> rfl

/-- The encodings of a list of pixels are the pure ones, whatever the capacity of a sound cache. -/
theorem encodeAll_fst_of_sound {c : Cfg} {cap : Nat} {ps : List Pixel} {cache : Cache}
    (h : ∀ e ∈ cache, e.2 = encodePure c e.1) :
    (encodeAll c cap ps cache).1 = ps.map (encodePure c) := by
  induction ps generalizing cache with
  | nil => rfl
  | cons p ps ih =>
    obtain ⟨hhead, hsound, -⟩ := encodeCached_sound (cap := cap) (p := p) h
    simp [encodeAll, hhead, ih hsound]

/-- With a sound cache the chunks of a frame are those of the pure frame. -/
theorem renderChunks_of_sound {s : State} (h : cacheSound s) :
    renderChunks s = (Memory.readAll s.buf s.ord).map fun ps =>
      (chunks (chunkMax s.cfg) (assembleFrame (ps.map (encodePure s.cfg))),
        { s with cache := (encodeAll s.cfg (cacheCapacity s.cfg) ps s.cache).2 }) := by
  simp [renderChunks, frameLeds, Function.comp_def, encodeAll_fst_of_sound h]

theorem withoutCache_execRender {s : State} {other : Cache} (hs : cacheSound s)
    (hother : cacheSound { s with cache := other }) :
    withoutCache (execRender { s with cache := other }) = withoutCache (execRender s) := by
  refine withoutCache_guarded .buffer s other ?_
  rw [renderChunks_of_sound hs, renderChunks_of_sound hother]
  cases Memory.readAll s.buf s.ord <;> rfl

theorem withoutCache_execEncode (r g b br : Int) {s : State} {other : Cache} (hs : cacheSound s)
    (hother : cacheSound { s with cache := other }) :
    withoutCache (execEncode r g b br { s with cache := other }) =
      withoutCache (execEncode r g b br s) := by
  refine withoutCache_guarded .buffer s other ?_
  obtain ⟨hpure, -, -⟩ := encodeCached_sound (cap := cacheCapacity s.cfg) (p := ⟨r, g, b, br⟩) hs
  obtain ⟨hpure', -, -⟩ := encodeCached_sound (cap := cacheCapacity s.cfg) (p := ⟨r, g, b, br⟩) hother
  simp only [hpure, hpure']
  rfl

/-- Two sound caches make no difference to an instruction but in the cache itself. -/
theorem withoutCache_exec (i : Instr) {s : State} {other : Cache} (hs : cacheSound s)
    (hother : cacheSound { s with cache := other }) :
    withoutCache (exec i { s with cache := other }) = withoutCache (exec i s) := by
  cases i with
  | set i r g b br => exact withoutCache_guarded _ _ _ (withoutCache_storePixel _ _ _ _)
  | setrgb i x c br =>
    refine withoutCache_guarded _ _ _ ?_
    split
    · rfl
    · exact withoutCache_storePixel _ _ _ _
  | get i =>
    refine withoutCache_guarded _ _ _ ?_
    split
    · cases s.buf.read i <;> rfl
    · rfl
  | blank => exact withoutCache_guarded _ _ _ rfl
  | rotate k => exact withoutCache_guarded _ _ _ rfl
  | order => exact withoutCache_guarded _ _ _ rfl
  | render => exact withoutCache_execRender hs hother
  | encode r g b br => exact withoutCache_execEncode r g b br hs hother
  | regcb h => exact withoutCache_guarded _ _ _ rfl
  | start => exact withoutCache_guarded _ _ _ rfl
  | startFrame => rfl
  | ledCmd h x y z => rfl
  | endPad => rfl
  | cancel =>
    simp only [exec, execCancel]
    split <;> rfl

/-- Settles O16: the two executions are equal with the cache forgotten, since a sound cache answers what
`encode_pure` computes. -/
theorem cacheContentsNeverShow : Obligations.CacheContentsNeverShow := by
  intro i s t other _ hs hother hexec
  exact exists_next_of_withoutCache_eq (hexec ▸ withoutCache_exec i hs hother)

end Sys2Proof.Laws
end

section
/-! The logical order of a configuration that raises no error (spec/20_memory.md R49, R50). -/

namespace Sys2Proof.Laws

open Sys2Proof.Machine

/-- An expansion with no offending index holds each index of [0,N) exactly once and nothing else (R49). -/
theorem exact_of_offending_eq_nil {e : List Int} {n : Nat} (h : offending e n = []) :
    e.Nodup ∧ ∀ x : Int, x ∈ e ↔ 0 ≤ x ∧ x < n := by
  have hnot (x : Int) : x ∉ missing e n ∧ x ∉ duplicatedOrOutside e n := by
    have hx : x ∉ offending e n := by simp [h]
    simpa [offending, mem_risingSet] using hx
  have hmember (x : Int) (hx : x ∈ e) : e.count x ≤ 1 ∧ 0 ≤ x ∧ x < n := by
    have := (hnot x).2
    simp only [duplicatedOrOutside, List.mem_filter, hx, true_and, Bool.or_eq_true,
      decide_eq_true_eq] at this
    omega
  refine ⟨List.nodup_iff_count_le_one.2 fun x => ?_, fun x => ⟨fun hx => (hmember x hx).2, fun hx => ?_⟩⟩
  · by_cases hx : x ∈ e
    · exact (hmember x hx).1
    · simp [List.count_eq_zero_of_not_mem hx]
  · by_contra hout
    refine (hnot x).1 (List.mem_filter.2 ⟨List.mem_map.2 ⟨x.toNat, ?_, ?_⟩, by simpa using hout⟩)
    · exact List.mem_range.2 (by omega)
    · omega

/-- A configuration with no error has no offending index in its range list (R49, R211). -/
theorem offending_eq_nil_of_configError {c : Cfg} {ranges : List (Int × Int)}
    (h : configError c = none) (hranges : c.lorder = some ranges) :
    offending (expand ranges) (leds c) = [] := by
  unfold configError at h
  split at h
  · cases h
  · split at h
    · cases h
    · simp only [orderError, hranges] at h
      split at h
      · assumption
      · cases h

/-- The indices of an exact expansion, as naturals, are 0 to N-1 in some order. -/
theorem map_toNat_perm_range {e : List Int} {n : Nat} (hnodup : e.Nodup)
    (hmem : ∀ x : Int, x ∈ e ↔ 0 ≤ x ∧ x < n) : (e.map Int.toNat).Perm (List.range n) := by
  have hinj : (e.map Int.toNat).Nodup := hnodup.map_on fun x hx y hy hxy => by
    have := (hmem x).1 hx
    have := (hmem y).1 hy
    omega
  refine (List.perm_ext_iff_of_nodup hinj List.nodup_range).2 fun i => ?_
  rw [List.mem_range, List.mem_map]
  constructor
  · rintro ⟨x, hx, rfl⟩
    have := (hmem x).1 hx
    omega
  · exact fun hi => ⟨i, (hmem i).2 (by omega), by simp⟩

/-- Settles O19: without a range list `ORD` is 0 to N-1 itself; with one, no index of the expansion offends. -/
theorem legalOrderIsAPermutation : Obligations.LegalOrderIsAPermutation := by
  intro c hc
  cases hranges : c.lorder with
  | none =>
    have hord : orderTable c = List.range (leds c) := by simp [orderTable, hranges]
    exact ⟨hord ▸ .rfl, fun _ j hj => by simp [hord, hj]⟩
  | some ranges =>
    have hord : orderTable c = (expand ranges).map Int.toNat := by simp [orderTable, hranges]
    obtain ⟨hnodup, hmem⟩ :=
      exact_of_offending_eq_nil (offending_eq_nil_of_configError hc hranges)
    exact ⟨hord ▸ map_toNat_perm_range hnodup hmem, fun h => nomatch h⟩

end Sys2Proof.Laws
end

section
/-! What the phases and the return of an invoked function can do, said once (spec/42_scheduler.md R143
to R160), beside the inversion lemmas of Laws/Step.lean. -/

namespace Sys2Proof.Laws

open Sys2Proof.Machine

/-! ### The phases of Running (R143 to R156) -/

/-- The clock is read for the deadline test, or the state is as it was (R196). -/
theorem readForDeadline_cases (s : State) : readForDeadline s = s ∨ readForDeadline s = readClock s := by
  unfold readForDeadline
  split
  · exact .inr rfl
  · exact .inl rfl

/-- Everything a phase of `Running` that answers a next state can have done. Each case says what the
invariant needs of it. -/
inductive RunEffect (s t : State) : Prop where
  /-- A hook or callback called, by the phase it belongs to. -/
  | called (h : Nat) (args : CallArgs) (fits : s.sched = .running → callFits (invoke h args s))
      (ht : t = invoke h args s)
  /-- The next phase of `Running`, the counters within their bounds, the clock read or not. -/
  | advanced (v : State) (hv : v = s ∨ v = readClock s) (q : Phase) (hq : phaseOf q = .running)
      (step cycle cbi : Nat) (repaint : Bool)
      (hstep : step ≤ v.step ∨ step < stepsPerCycle v.cfg) (hcbi : cbi ≤ v.cbi)
      (ht : t = { v with phase := q, step := step, cycle := cycle, cbi := cbi, repaint := repaint })
  /-- A frame sent, and the next phase of `Running`. -/
  | framed (v : State) (hv : emitFrame s = some v) (q : Phase) (hq : phaseOf q = .running)
      (ht : t = { v with phase := q })
  /-- A pacing wait begun or passed over. -/
  | paced (q : Phase) (hq : q = .pAdv ∨ q = .pCheck) (ht : t = paceTo q s)
  /-- The drain entered with a reason, the clock read or not. -/
  | stopped (v : State) (hv : v = s ∨ v = readClock s) (r : ExitReason) (hr : r ≠ .noReason)
      (ht : t = drainFor r v)

/-- A next phase that leaves the counters and `REPAINT` as they are. -/
theorem RunEffect.passed {s t v : State} (hv : v = s ∨ v = readClock s) (q : Phase)
    (hq : phaseOf q = .running) (ht : t = { v with phase := q }) : RunEffect s t :=
  .advanced v hv q hq v.step v.cycle v.cbi v.repaint (.inl le_rfl) le_rfl ht

theorem phaseInit_effect {s t : State} (hp : s.phase = .pInit) (h : phaseInit s = .next t) :
    RunEffect s t := by
  unfold phaseInit at h
  split at h
  · next c _ =>
    cases h
    exact .called c (.init (leds s.cfg)) (fun hs => ⟨hs, hp⟩) rfl
  · cases h
    exact .passed (.inl rfl) .pFirst rfl rfl

theorem phaseTop_effect {s t : State} (h : phaseTop s = .next t) : RunEffect s t := by
  simp only [phaseTop] at h
  split at h
  · cases h
    exact .stopped _ (readForDeadline_cases s) .deadline nofun rfl
  · cases h
    exact .advanced _ (readForDeadline_cases s) .pCb rfl _ _ 0 false (.inl le_rfl) (Nat.zero_le _) rfl

theorem phaseCb_effect {s t : State} (hp : s.phase = .pCb) (h : phaseCb s = .next t) :
    RunEffect s t := by
  unfold phaseCb at h
  split at h
  · next c hc =>
    cases h
    have hlt : s.cbi < s.cblist.length := (List.getElem?_eq_some_iff.1 hc).1
    exact .called c (.update (leds s.cfg) (stepsPerCycle s.cfg) s.step s.cycle)
      (fun hs => ⟨hs, hp, hlt⟩) rfl
  · cases h
    exact .passed (.inl rfl) .pPaint rfl rfl

theorem phasePaint_effect {s t : State} (h : phasePaint s = .next t) : RunEffect s t := by
  unfold phasePaint at h
  split at h
  · obtain ⟨v, hv, rfl⟩ := afterFrame_next h
    exact .framed v hv .pPace rfl rfl
  · cases h
    exact .passed (.inl rfl) .pPace rfl rfl

theorem phaseAdv_effect {s t : State} (h : phaseAdv s = .next t) : RunEffect s t := by
  unfold phaseAdv at h
  split at h
  · next hlt =>
    cases h
    exact .advanced s (.inl rfl) .pTop rfl _ _ _ _ (.inr hlt) le_rfl rfl
  · cases h
    exact .advanced s (.inl rfl) .pHold rfl 0 _ _ _ (.inl (Nat.zero_le _)) le_rfl rfl

theorem phaseCheck_effect {s t : State} (h : phaseCheck s = .next t) : RunEffect s t := by
  simp only [phaseCheck] at h
  split at h
  · cases h
    exact .stopped s (.inl rfl) .cycleLimit nofun rfl
  · split at h
    · cases h
      exact .stopped _ (readForDeadline_cases s) .deadline nofun rfl
    · cases h
      exact .passed (readForDeadline_cases s) .pTop rfl rfl

/-- The inversion of the phases of `Running`. -/
theorem runPhase_effect {s t : State} (h : runPhase s = .next t) : RunEffect s t := by
  unfold runPhase at h
  split at h
  · next hp => exact phaseInit_effect hp h
  · obtain ⟨v, hv, rfl⟩ := afterFrame_next h
    exact .framed v hv .pTop rfl rfl
  · exact phaseTop_effect h
  · next hp => exact phaseCb_effect hp h
  · exact phasePaint_effect h
  · cases h
    exact .paced .pAdv (.inl rfl) rfl
  · exact phaseAdv_effect h
  · cases h
    exact .paced .pCheck (.inr rfl) rfl
  · exact phaseCheck_effect h
  all_goals cases h

/-! ### The phases of Draining (R158 to R160) -/

/-- Everything a phase of `Draining` that answers a next state can have done. -/
inductive DrainEffect (s t : State) : Prop where
  /-- The shutdown hook called. -/
  | called (h n : Nat) (hp : s.phase = .pShut) (ht : t = invoke h (.shutdown n) s)
  /-- No shutdown hook. -/
  | passed (ht : t = { s with phase := .pClear })
  /-- The blank frame sent. -/
  | cleared (v : State) (hv : emitFrame { s with buf := s.buf.blank } = some v)
      (ht : t = { v with phase := .pClose })
  /-- The transport closed and `START` answered. -/
  | closed (es : List Event)
      (ht : t = { s with trace := s.trace ++ es, closed := true, sched := .stopped })

/-- The inversion of the phases of `Draining`. -/
theorem drainPhase_effect {s t : State} (h : drainPhase s = .next t) : DrainEffect s t := by
  unfold drainPhase at h
  split at h
  · next hp =>
    unfold phaseShut at h
    split at h
    · cases h
      exact .called _ _ hp rfl
    · cases h
      exact .passed rfl
  · obtain ⟨v, hv, rfl⟩ := afterFrame_next h
    exact .cleared v hv rfl
  · cases h
    exact .closed [.txClose, _] (by simp only [emit, List.append_assoc]; rfl)
  all_goals cases h

/-! ### The return of an invoked function (R143, R146, R158) -/

/-- Everything the return of an invoked function that answers a next state can have done, on the state in
which the invocation is over. -/
inductive ReturnEffect (args : CallArgs) (s t : State) : Prop where
  /-- The init hook is done. -/
  | initialised (n : Nat) (ha : args = .init n) (ht : t = { s with phase := .pFirst })
  /-- A callback answered, and the next one follows. -/
  | collected (n m st cy : Nat) (ha : args = .update n m st cy) (repaint : Bool)
      (ht : t = { s with repaint := repaint, cbi := s.cbi + 1, phase := .pCb })
  /-- The init hook or a callback faulted. -/
  | faulted (ha : ∀ n, args ≠ .shutdown n) (ht : t = drainFor .callbackFault s)
  /-- The shutdown hook is over, its fault recorded. -/
  | shutDown (n : Nat) (ha : args = .shutdown n) (e : ExitReason)
      (he : e = s.exitReason ∨ e = .callbackFault)
      (ht : t = { s with exitReason := e, phase := .pClear })

/-- The inversion of the return. -/
theorem afterReturn_effect {args : CallArgs} {r : Ret} {s t : State}
    (h : afterReturn args r s = .next t) : ReturnEffect args s t := by
  unfold afterReturn at h
  split at h <;> cases h
  · exact .initialised _ rfl rfl
  · exact .faulted nofun rfl
  · exact .collected _ _ _ _ rfl _ rfl
  · exact .faulted nofun rfl
  · exact .shutDown _ rfl _ (.inl rfl) rfl
  · exact .shutDown _ rfl _ (.inr rfl) rfl

end Sys2Proof.Laws
end

section
/-! What every step but a reset leaves as it is, and where the scheduler can go (spec/10_state.md R16, R17,
R32, R34). -/

namespace Sys2Proof.Laws

open Sys2Proof.Machine

/-! ### The pieces a phase is made of -/

/-- A frame sent changes the cache and the trace only (R161). -/
theorem emitFrame_frame {s t : State} (h : emitFrame s = some t) :
    t = { s with cache := t.cache, trace := t.trace } := by
  obtain ⟨cs, r, -, rfl⟩ := emitFrame_some h
  rfl

/-- A pacing wait (R148, R155, R197): none when the clock reads the boundary, else one for it. -/
theorem paceTo_cases (q : Phase) (s : State) :
    (s.t0 + (s.k + 1) * tickUnits s.cfg ≤ s.clock + clockAdvance s ∧
      paceTo q s = readClock { s with k := s.k + 1, phase := q }) ∨
    paceTo q s = { readClock { s with k := s.k + 1, phase := q } with
      wake := some (s.t0 + (s.k + 1) * tickUnits s.cfg) } := by
  simp only [paceTo]
  split
  · next hle => exact .inl ⟨hle, rfl⟩
  · exact .inr rfl

/-- The set-up commands are the host's in `Idle` (R186). -/
theorem ready_setup_iff {s : State} :
    Ready .setup s ↔ s.configFault = none ∧ s.issuer = .host ∧ s.sched = .idle := by
  cases hwho : s.issuer <;> simp [Ready, mayIssue, hwho]

/-! ### What is fixed by reset and by the set-up (R16, R17, R32) -/

/-- The configuration, what reset made of it, and the callback list are the same. -/
structure SameSetup (s t : State) : Prop where
  cfg : t.cfg = s.cfg
  ord : t.ord = s.ord
  configFault : t.configFault = s.configFault
  cblist : t.cblist = s.cblist

theorem RunEffect.sameSetup {s t : State} (h : RunEffect s t) : SameSetup s t := by
  cases h with
  | called _ _ _ ht => exact ht ▸ ⟨rfl, rfl, rfl, rfl⟩
  | advanced v hv _ _ _ _ _ _ _ _ ht =>
    subst ht
    rcases hv with rfl | rfl <;> exact ⟨rfl, rfl, rfl, rfl⟩
  | framed v hv _ _ ht => rw [ht, emitFrame_frame hv]; exact ⟨rfl, rfl, rfl, rfl⟩
  | paced q _ ht =>
    subst ht
    rcases paceTo_cases q s with ⟨-, ht⟩ | ht <;> rw [ht] <;> exact ⟨rfl, rfl, rfl, rfl⟩
  | stopped v hv _ _ ht =>
    subst ht
    rcases hv with rfl | rfl <;> exact ⟨rfl, rfl, rfl, rfl⟩

theorem DrainEffect.sameSetup {s t : State} (h : DrainEffect s t) : SameSetup s t := by
  cases h with
  | called _ _ _ ht => exact ht ▸ ⟨rfl, rfl, rfl, rfl⟩
  | passed ht => exact ht ▸ ⟨rfl, rfl, rfl, rfl⟩
  | cleared v hv ht => rw [ht, emitFrame_frame hv]; exact ⟨rfl, rfl, rfl, rfl⟩
  | closed _ ht => exact ht ▸ ⟨rfl, rfl, rfl, rfl⟩

theorem ReturnEffect.sameSetup {args : CallArgs} {s t : State} (h : ReturnEffect args s t) :
    SameSetup s t := by
  cases h with
  | initialised _ _ ht => exact ht ▸ ⟨rfl, rfl, rfl, rfl⟩
  | collected _ _ _ _ _ _ ht => exact ht ▸ ⟨rfl, rfl, rfl, rfl⟩
  | faulted _ ht => exact ht ▸ ⟨rfl, rfl, rfl, rfl⟩
  | shutDown _ _ _ _ ht => exact ht ▸ ⟨rfl, rfl, rfl, rfl⟩

theorem schedulerMove_sameSetup {s t : State} (h : schedulerMove s = .next t) : SameSetup s t := by
  cases schedulerMove_effect h with
  | still ht => exact ht ▸ ⟨rfl, rfl, rfl, rfl⟩
  | cancelled _ _ _ ht => exact ht ▸ ⟨rfl, rfl, rfl, rfl⟩
  | woke _ _ _ _ _ ht => exact ht ▸ ⟨rfl, rfl, rfl, rfl⟩
  | ran _ _ h => exact (runPhase_effect h).sameSetup
  | drained _ _ h => exact (drainPhase_effect h).sameSetup

theorem takeReturn_sameSetup {r : Ret} {s t : State} (h : takeReturn r s = .next t) : SameSetup s t := by
  unfold takeReturn at h
  split at h
  · have := (afterReturn_effect h).sameSetup
    exact ⟨this.cfg, this.ord, this.configFault, this.cblist⟩
  · cases h

/-- An instruction keeps the configuration and what reset made of it. -/
theorem ExecEffect.sameConfiguration {s t : State} (h : ExecEffect s t) :
    t.cfg = s.cfg ∧ t.ord = s.ord ∧ t.configFault = s.configFault := by
  cases h with
  | answered _ _ ht => exact ht ▸ ⟨rfl, rfl, rfl⟩
  | stored _ _ _ ht => exact ht ▸ ⟨rfl, rfl, rfl⟩
  | encoded _ _ ht => exact ht ▸ ⟨rfl, rfl, rfl⟩
  | rendered _ _ _ _ ht => exact ht ▸ ⟨rfl, rfl, rfl⟩
  | registered _ _ ht => exact ht ▸ ⟨rfl, rfl, rfl⟩
  | started _ ht => exact ht ▸ ⟨rfl, rfl, rfl⟩
  | assembled _ ht => exact ht ▸ ⟨rfl, rfl, rfl⟩
  | cancelled _ _ ht => exact ht ▸ ⟨rfl, rfl, rfl⟩
  | ignored ht => exact ht ▸ ⟨rfl, rfl, rfl⟩

/-- Settles O54, by the inversion of the step: no command, event, return or move touches the three. -/
theorem configurationChangesAtResetOnly : Obligations.ConfigurationChangesAtResetOnly := by
  intro s t hnoReset hstep
  cases step_effect hstep with
  | command _ _ _ _ h => exact (takeCommand_effect h).sameConfiguration
  | event _ h => exact (exec_effect h).sameConfiguration
  | returned _ _ _ h =>
    have := (afterReturn_effect h).sameSetup
    exact ⟨this.cfg, this.ord, this.configFault⟩
  | reset c _ hhead _ => exact absurd (hnoReset _ hhead) nofun
  | moved h =>
    have := schedulerMove_sameSetup h
    exact ⟨this.cfg, this.ord, this.configFault⟩

/-! ### The callback list (R17, R141) -/

/-- A guarded command keeps the callback list when its body does. -/
theorem guarded_cblist {cls : CommandClass} {s t : State} {body : Result}
    (h : guarded cls s body = .next t) (hbody : body = .next t → t.cblist = s.cblist) :
    t.cblist = s.cblist := by
  rcases guarded_cases cls s body with ⟨e, -, heq⟩ | ⟨-, -, heq⟩ | ⟨-, heq⟩
  · cases heq.symm.trans h; rfl
  · cases heq.symm.trans h; rfl
  · exact hbody (heq.symm.trans h)

theorem storePixel_cblist {i : Nat} {p : Pixel} {s t : State} (h : storePixel i p s = .next t) :
    t.cblist = s.cblist := by
  rcases storePixel_cases i p s with ⟨-, heq⟩ | ⟨-, heq⟩ <;> cases heq.symm.trans h <;> rfl

/-- An instruction changes the callback list only as a `REGCB` of the host in `Idle`, by its handle. -/
theorem exec_cblist {i : Instr} {s t : State} (h : exec i s = .next t) :
    t.cblist = s.cblist ∨
      ∃ c, i = .regcb c ∧ Ready .setup s ∧ t.cblist = s.cblist ++ [c] := by
  cases i with
  | regcb c =>
    rcases guarded_cases .setup s (.next (respond .ok .empty { s with cblist := s.cblist ++ [c] }))
      with ⟨e, -, heq⟩ | ⟨-, -, heq⟩ | ⟨hready, heq⟩
    · cases heq.symm.trans h; exact .inl rfl
    · cases heq.symm.trans h; exact .inl rfl
    · cases heq.symm.trans h; exact .inr ⟨c, rfl, hready, rfl⟩
  | set i r g b br => exact .inl (guarded_cblist h storePixel_cblist)
  | setrgb i x c br =>
    refine .inl (guarded_cblist h fun hbody => ?_)
    split at hbody
    · cases hbody; rfl
    · exact storePixel_cblist hbody
  | get i =>
    refine .inl (guarded_cblist h fun hbody => ?_)
    split at hbody
    · split at hbody <;> cases hbody
      rfl
    · cases hbody; rfl
  | render =>
    refine .inl (guarded_cblist h fun hbody => ?_)
    split at hbody
    · next r hr =>
      cases hbody
      obtain ⟨ps, -, -, hcache⟩ := renderChunks_some (cs := r.1) (t := r.2) hr
      simp [hcache]
    · cases hbody
  | blank => exact .inl (guarded_cblist h fun hbody => by cases hbody; rfl)
  | rotate k => exact .inl (guarded_cblist h fun hbody => by cases hbody; rfl)
  | order => exact .inl (guarded_cblist h fun hbody => by cases hbody; rfl)
  | encode r g b br => exact .inl (guarded_cblist h fun hbody => by cases hbody; rfl)
  | start => exact .inl (guarded_cblist h fun hbody => by cases hbody; rfl)
  | startFrame => cases h; exact .inl rfl
  | ledCmd hd x y z => cases h; exact .inl rfl
  | endPad => cases h; exact .inl rfl
  | cancel =>
    simp only [exec, execCancel] at h
    split at h <;> cases h <;> exact .inl rfl

theorem takeCommand_cblist {who : Issuer} {w : CommandWord} {s t : State}
    (h : takeCommand who w s = .next t) :
    t.cblist = s.cblist ∨ ∃ c, who = .host ∧ decodeCommand w = .ok (.regcb c) ∧ s.sched = .idle ∧
      t.cblist = s.cblist ++ [c] := by
  simp only [takeCommand] at h
  split at h
  · cases h
    exact .inl rfl
  · split at h
    · next i hdecode =>
      refine (exec_cblist h).imp id ?_
      rintro ⟨c, rfl, hready, hlist⟩
      obtain ⟨-, hwho, hidle⟩ := ready_setup_iff.1 hready
      exact ⟨c, hwho, hdecode, hidle, hlist⟩
    · cases h
      exact .inl rfl

/-- The wire words are no commands (R70 to R72). -/
theorem decodeWireQuad_commandClass {w : Word32} {i : Instr} (h : decodeWireQuad w = .ok i) :
    i.commandClass = none := by
  unfold decodeWireQuad at h
  split at h
  · cases h; rfl
  · split at h <;> cases h
    rfl

theorem decodeWireByte_commandClass {w : Byte} {i : Instr} (h : decodeWireByte w = .ok i) :
    i.commandClass = none := by
  unfold decodeWireByte at h
  split at h <;> cases h
  rfl

theorem exec_cblist_of_commandClass_none {i : Instr} {s t : State} (hi : i.commandClass = none)
    (h : exec i s = .next t) : t.cblist = s.cblist := by
  rcases exec_cblist h with hlist | ⟨c, rfl, -⟩
  · exact hlist
  · cases hi

theorem takeWire_cblist {e : Encoding} {s t : State} (h : takeWire e s = .next t) :
    t.cblist = s.cblist := by
  cases e with
  | command w => cases h
  | event => cases h
  | wireQuad w =>
    simp only [takeWire] at h
    split at h
    · next i hi => exact exec_cblist_of_commandClass_none (decodeWireQuad_commandClass hi) h
    · cases h
  | wireByte w =>
    simp only [takeWire] at h
    split at h
    · next i hi => exact exec_cblist_of_commandClass_none (decodeWireByte_commandClass hi) h
    · cases h

theorem takeInput_cblist {e : Input} {s t : State} (hnoReset : e.isReset = false)
    (h : takeInput e s = .next t) :
    t.cblist = s.cblist ∨ ∃ w c, e = .host w ∧ decodeCommand w = .ok (.regcb c) ∧ s.sched = .idle ∧
      t.cblist = s.cblist ++ [c] := by
  cases e with
  | host w =>
    refine (takeCommand_cblist h).imp id ?_
    rintro ⟨c, -, hregcb⟩
    exact ⟨w, c, rfl, hregcb⟩
  | agent w =>
    simp only [takeInput] at h
    split at h
    · rcases takeCommand_cblist h with hlist | ⟨c, hwho, -⟩
      · exact .inl hlist
      · cases hwho
    · cases h
  | ret r => exact .inl (takeReturn_sameSetup h).cblist
  | cancel => exact .inl (exec_cblist_of_commandClass_none (i := .cancel) rfl h)
  | pass => exact .inl (schedulerMove_sameSetup h).cblist
  | reset c => cases hnoReset
  | wire e => exact .inl (takeWire_cblist h)

/-- Settles O56: of the inputs only a word of the host that decodes to `REGCB` changes the list. -/
theorem callbackListChangesByRegcbOnly : Obligations.CallbackListChangesByRegcbOnly := by
  intro s t hnoReset hstep hchanged
  cases hinbox : s.inbox with
  | nil =>
    rw [step_idle_inbox hinbox] at hstep
    exact absurd (schedulerMove_sameSetup hstep).cblist hchanged
  | cons e rest =>
    rw [step_input hinbox] at hstep
    have he : e.isReset = false := hnoReset e (by simp [hinbox])
    obtain ⟨w, c, rfl, hregcb⟩ := (takeInput_cblist he hstep).resolve_left hchanged
    exact ⟨w, c, rfl, hregcb⟩

/-! ### The scheduler's transitions (R34) -/

theorem RunEffect.sched {s t : State} (h : RunEffect s t) :
    t.sched = s.sched ∨ t.sched = .draining := by
  cases h with
  | called _ _ _ ht => exact ht ▸ .inl rfl
  | advanced v hv _ _ _ _ _ _ _ _ ht =>
    subst ht
    rcases hv with rfl | rfl <;> exact .inl rfl
  | framed v hv _ _ ht => rw [ht, emitFrame_frame hv]; exact .inl rfl
  | paced q _ ht =>
    subst ht
    rcases paceTo_cases q s with ⟨-, ht⟩ | ht <;> rw [ht] <;> exact .inl rfl
  | stopped _ _ _ _ ht => exact ht ▸ .inr rfl

theorem DrainEffect.sched {s t : State} (h : DrainEffect s t) :
    t.sched = s.sched ∨ t.sched = .stopped := by
  cases h with
  | called _ _ _ ht => exact ht ▸ .inl rfl
  | passed ht => exact ht ▸ .inl rfl
  | cleared v hv ht => rw [ht, emitFrame_frame hv]; exact .inl rfl
  | closed _ ht => exact ht ▸ .inr rfl

/-- A return can enter the drain only when the function is not the shutdown hook. -/
theorem ReturnEffect.sched {args : CallArgs} {s t : State} (h : ReturnEffect args s t) :
    t.sched = s.sched ∨ (∀ n, args ≠ .shutdown n) ∧ t.sched = .draining := by
  cases h with
  | initialised _ _ ht => exact ht ▸ .inl rfl
  | collected _ _ _ _ _ _ ht => exact ht ▸ .inl rfl
  | faulted ha ht => exact ht ▸ .inr ⟨ha, rfl⟩
  | shutDown _ _ _ _ ht => exact ht ▸ .inl rfl

theorem ExecEffect.sched {s t : State} (h : ExecEffect s t) :
    t.sched = s.sched ∨ s.sched = .idle ∧ t.sched = .running := by
  cases h with
  | answered _ _ ht => exact ht ▸ .inl rfl
  | stored _ _ _ ht => exact ht ▸ .inl rfl
  | encoded _ _ ht => exact ht ▸ .inl rfl
  | rendered _ _ _ _ ht => exact ht ▸ .inl rfl
  | registered _ _ ht => exact ht ▸ .inl rfl
  | started hready ht => exact .inr ⟨(ready_setup_iff.1 hready).2.2, ht ▸ rfl⟩
  | assembled _ ht => exact ht ▸ .inl rfl
  | cancelled _ _ ht => exact ht ▸ .inl rfl
  | ignored ht => exact ht ▸ .inl rfl

theorem schedulerMove_sched {s t : State} (h : schedulerMove s = .next t) :
    t.sched = s.sched ∨ s.sched = .running ∧ t.sched = .draining ∨
      s.sched = .draining ∧ t.sched = .stopped := by
  cases schedulerMove_effect h with
  | still ht => exact ht ▸ .inl rfl
  | cancelled _ hrun _ ht => exact .inr (.inl ⟨hrun, ht ▸ rfl⟩)
  | woke _ _ _ _ _ ht => exact ht ▸ .inl rfl
  | ran _ hp h =>
    exact (runPhase_effect h).sched.imp id fun ht => .inl ⟨hp.running, ht⟩
  | drained _ hp h =>
    exact (drainPhase_effect h).sched.imp id fun ht => .inr ⟨hp.draining, ht⟩

/-- The init hook and the callbacks are invoked in `Running` only (R143, R146). -/
theorem running_of_calling {s : State} {inv : Invocation} (h : callFits s)
    (hcalling : s.calling = some inv) (hargs : ∀ n, inv.args ≠ .shutdown n) : s.sched = .running := by
  simp only [callFits, hcalling] at h
  split at h
  · exact h.1
  · exact h.1
  · next n ha => exact absurd ha (hargs n)

/-- Settles O53, by the inversion of the step; a return's entry to the drain is from `Running` by the
invariant's clause on the invocation. -/
theorem schedulerMovesOnlyForward : Obligations.SchedulerMovesOnlyForward := by
  intro s t hinv hnoReset hstep
  cases step_effect hstep with
  | command _ _ _ _ h => exact (takeCommand_effect h).sched.imp id .inl
  | event _ h => exact (exec_effect h).sched.imp id .inl
  | returned _ _ hcalling h =>
    refine (afterReturn_effect h).sched.imp id ?_
    rintro ⟨hargs, ht⟩
    exact .inr (.inl ⟨running_of_calling hinv.callFits hcalling hargs, ht⟩)
  | reset c _ hhead _ => exact absurd (hnoReset _ hhead) nofun
  | moved h => exact (schedulerMove_sched h).imp id .inr

end Sys2Proof.Laws
end

section
/-! Every step keeps the invariant: one lemma for each piece a step is made of, then the effects of
instructions, phases and returns. -/

namespace Sys2Proof.Laws

open Sys2Proof.Machine

/-! ### What the invariant says of particular states -/

/-- A wait is in `Running`, after a pacing phase (R148, R155). -/
theorem wake_eq_none {s : State} (h : Inv s)
    (hnot : s.sched = .running → s.phase ≠ .pAdv ∧ s.phase ≠ .pCheck) : s.wake = none := by
  have hfits := h.wakeFits
  unfold wakeFits at hfits
  split at hfits
  · assumption
  · obtain ⟨hrun, hphase, -⟩ := hfits
    obtain ⟨hadv, hcheck⟩ := hnot hrun
    exact absurd hphase (by simp [hadv, hcheck])

/-- Nothing is outstanding in `Idle`. -/
theorem idle_free {s : State} (h : Inv s) (hidle : s.sched = .idle) :
    s.calling = none ∧ s.wake = none ∧ s.cancelPending = false := by
  refine ⟨?_, wake_eq_none h (by simp [hidle]), ?_⟩
  · by_contra hcalling
    simpa [hidle, runInProgress] using calling_inRun h hcalling
  · by_contra hpending
    exact h.cancelInRun (by simpa using hpending) hidle

theorem callFits_of_none {s : State} (h : s.calling = none) : callFits s := by
  simp [callFits, h]

theorem wakeFits_of_none {s : State} (h : s.wake = none) : wakeFits s := by
  simp [wakeFits, h]

/-! ### The pieces a step is made of -/

/-- Kept when the clock goes on. -/
theorem inv_clock {s : State} (h : Inv s) (clock : Nat) (clockIn : List Nat) (draws : Nat)
    (hle : s.clock ≤ clock) : Inv { s with clock := clock, clockIn := clockIn, draws := draws } :=
  { h with clockReached := fun hrun hwake hpending => (h.clockReached hrun hwake hpending).trans hle }

theorem inv_readClock {s : State} (h : Inv s) : Inv (readClock s) :=
  inv_clock h _ _ _ (Nat.le_add_right _ _)

/-- Kept by a wait's end, when the clock has reached the boundary or the run is cancelled. -/
theorem inv_wakeOver {s : State} (h : Inv s)
    (hreached : s.sched = .running → s.cancelPending = false →
      s.t0 + s.k * tickUnits s.cfg ≤ s.clock) : Inv { s with wake := none } :=
  { h with
    wakeFits := trivial
    clockReached := fun hrun _ hpending => hreached hrun hpending }

/-- Kept by the latching of `CANCEL` in a run (R164). -/
theorem inv_cancel {s : State} (h : Inv s) (hrun : runInProgress s.sched = true) :
    Inv { s with cancelPending := true, wake := none } :=
  { h with
    wakeFits := trivial
    cancelInRun := fun _ (hidle : s.sched = .idle) => by simp [hidle, runInProgress] at hrun
    clockReached := fun _ _ hpending => nomatch hpending }

/-- Kept by a call that belongs to its phase. -/
theorem inv_invoke {s : State} (h : Inv s) {handle : Nat} {args : CallArgs}
    (hfits : callFits (invoke handle args s)) : Inv (invoke handle args s) :=
  { h with callFits := hfits }

theorem inv_endCall {s : State} (h : Inv s) (handle : Nat) (r : Ret) : Inv (endCall handle r s) :=
  { h with callFits := trivial }

/-- Kept by the counters within their bounds. -/
theorem inv_counters {s : State} (h : Inv s) (hcalling : s.calling = none) (step cycle cbi : Nat)
    (repaint : Bool) (hstep : step < stepsPerCycle s.cfg) (hcbi : cbi ≤ s.cblist.length) :
    Inv { s with step := step, cycle := cycle, cbi := cbi, repaint := repaint } :=
  { h with
    callFits := callFits_of_none hcalling
    stepBelow := hstep
    cbiBelow := hcbi }

/-- Kept by the next phase of the same `SCHED`. -/
theorem inv_phase {s : State} (h : Inv s) (hcalling : s.calling = none) (hwake : s.wake = none)
    (q : Phase) (hq : phaseOf q = s.sched) : Inv { s with phase := q } :=
  { h with
    phaseFits := fun _ => hq
    callFits := callFits_of_none hcalling
    wakeFits := wakeFits_of_none hwake }

/-- Kept by the entry to the drain from `Running`, with a reason (R157, R193). -/
theorem inv_drainFor {s : State} (h : Inv s) (hrun : s.sched = .running) (hcalling : s.calling = none)
    (hwake : s.wake = none) {r : ExitReason} (hr : r ≠ .noReason) : Inv (drainFor r s) :=
  { h with
    faultIdle := fun hfault => by simpa [hrun] using h.faultIdle hfault
    phaseFits := fun _ => rfl
    callFits := callFits_of_none hcalling
    wakeFits := wakeFits_of_none hwake
    closedStopped := by simpa [hrun] using h.closedStopped
    cancelInRun := fun _ => nofun
    reasonRunning := nofun
    reasonDraining := fun _ => hr
    firstKept := fun _ => ⟨hr, .inl rfl⟩
    deadlineFixed := fun _ => h.deadlineFixed (by simp [hrun, runInProgress])
    clockReached := nofun }

/-- Kept by the cache a rendered frame leaves (R38, R116). -/
theorem inv_renderChunks {s r : State} {cs : List (List Byte)} (h : Inv s)
    (hr : renderChunks s = some (cs, r)) : Inv { s with cache := r.cache } := by
  obtain ⟨ps, -, -, rfl⟩ := renderChunks_some hr
  obtain ⟨-, hsound, hbound⟩ := encodeAll_sound (ps := ps) h.cacheSound h.cacheBounded
  exact inv_storage h s.buf _ rfl hsound hbound

/-- Kept by a frame sent and the next phase of the same `SCHED` (R161). -/
theorem inv_framed {s v : State} (h : Inv s) (hv : emitFrame s = some v) (hcalling : s.calling = none)
    (hwake : s.wake = none) (q : Phase) (hq : phaseOf q = s.sched) : Inv { v with phase := q } := by
  obtain ⟨cs, r, hr, rfl⟩ := emitFrame_some hv
  have hsent := inv_outside (inv_renderChunks h hr) (s.trace ++ cs.map Event.txWrite)
    s.issuer s.asm s.inbox s.repaint
  exact inv_phase hsent hcalling hwake q hq

/-- Kept by a pacing wait, begun or passed over (R148, R155). -/
theorem inv_paceTo {s : State} (h : Inv s) (hrun : s.sched = .running) (hcalling : s.calling = none)
    (hwake : s.wake = none) (hpending : s.cancelPending = false) {q : Phase}
    (hq : q = .pAdv ∨ q = .pCheck) : Inv (paceTo q s) := by
  have hphase : phaseOf q = s.sched := by rcases hq with rfl | rfl <;> exact hrun.symm
  rcases paceTo_cases q s with ⟨hle, ht⟩ | ht <;> rw [ht]
  · exact { h with
      phaseFits := fun _ => hphase
      callFits := callFits_of_none hcalling
      wakeFits := wakeFits_of_none hwake
      clockReached := fun _ _ _ => hle }
  · exact { h with
      phaseFits := fun _ => hphase
      callFits := callFits_of_none hcalling
      wakeFits := ⟨hrun, hq, hpending, rfl⟩
      clockReached := nofun }

/-- Kept by the acceptance of `START` (R142). -/
theorem inv_acceptStart {s : State} (h : Inv s) (hidle : s.sched = .idle)
    (hfault : s.configFault = none) : Inv (acceptStart s) := by
  obtain ⟨hcalling, hwake, -⟩ := idle_free h hidle
  have hopen : s.closed = false := by simpa [hidle] using h.closedStopped
  exact { h with
    faultIdle := fun hne => absurd hfault hne
    phaseFits := fun _ => rfl
    callFits := callFits_of_none hcalling
    wakeFits := wakeFits_of_none hwake
    stepBelow := Nat.zero_lt_of_lt h.stepBelow
    closedStopped := by simp [acceptStart, hopen]
    cancelInRun := fun _ => nofun
    reasonRunning := fun _ => rfl
    reasonDraining := nofun
    firstKept := nofun
    deadlineFixed := fun _ => rfl
    clockReached := fun _ _ _ => by simp [acceptStart] }

/-- Kept by the close of the run (R160). -/
theorem inv_close {s : State} (h : Inv s) (hdrain : s.sched = .draining) (hcalling : s.calling = none)
    (trace : List Event) : Inv { s with trace := trace, closed := true, sched := .stopped } := by
  have hwake : s.wake = none := wake_eq_none h (by simp [hdrain])
  exact { h with
    faultIdle := fun hfault => by simpa [hdrain] using h.faultIdle hfault
    phaseFits := nofun
    callFits := callFits_of_none hcalling
    wakeFits := wakeFits_of_none hwake
    closedStopped := by simp
    cancelInRun := fun _ => nofun
    reasonRunning := nofun
    reasonDraining := fun _ => h.reasonDraining (.inl hdrain)
    firstKept := fun _ => h.firstKept (.inl hdrain)
    deadlineFixed := nofun
    clockReached := nofun }

/-- Kept by a fault of the shutdown hook, recorded in `EXIT_REASON` alone (R158). -/
theorem inv_shutdownFault {s : State} (h : Inv s) (hdrain : s.sched = .draining) :
    Inv { s with exitReason := .callbackFault } :=
  { h with
    reasonRunning := fun hrun => by simp [hdrain] at hrun
    reasonDraining := fun _ => nofun
    firstKept := fun hs => ⟨(h.firstKept hs).1, .inr rfl⟩ }

/-- The state after a reset the model accepts (R211). -/
theorem inv_reconstruct {c : Cfg} (hc : configRefused c = false) (s : State) : Inv (s.reconstruct c) where
  configMeant := hc
  faultFound := rfl
  bufferWhole hfault := by
    have hfault : configError c = none := hfault
    simp [State.reconstruct, State.construct, hfault, wf_iff]
  orderKept hfault := by
    have hfault : configError c = none := hfault
    simp [State.reconstruct, State.construct, hfault]
  faultIdle _ := rfl
  phaseFits := nofun
  callFits := trivial
  wakeFits := trivial
  stepBelow := by
    simp only [configRefused, Bool.or_eq_false_iff, decide_eq_false_iff_not] at hc
    simp only [State.reconstruct, State.construct, stepsPerCycle]
    omega
  cbiBelow := le_rfl
  cacheSound := nofun
  cacheBounded := Nat.zero_le _
  closedStopped := ⟨nofun, nofun⟩
  cancelInRun := nofun
  reasonRunning := nofun
  reasonDraining := nofun
  firstKept := nofun
  deadlineFixed := nofun
  clockReached := nofun

/-! ### Instructions, phases and returns -/

/-- Every instruction keeps the invariant. -/
theorem ExecEffect.inv {s t : State} (he : ExecEffect s t) (h : Inv s) : Inv t := by
  cases he with
  | answered st p ht => exact ht ▸ inv_outside h _ s.issuer s.asm s.inbox s.repaint
  | stored m _ hlen ht =>
    exact ht ▸ inv_outside (inv_storage h m s.cache hlen h.cacheSound h.cacheBounded)
      _ s.issuer s.asm s.inbox s.repaint
  | encoded p _ ht =>
    obtain ⟨-, hsound, hbound⟩ :=
      encodeCached_sound (cap := cacheCapacity s.cfg) (p := p) h.cacheSound
    exact ht ▸ inv_outside (inv_storage h s.buf _ rfl hsound hbound) _ s.issuer s.asm s.inbox s.repaint
  | rendered cs r _ hr ht =>
    exact ht ▸ inv_outside (inv_renderChunks h hr) _ s.issuer s.asm s.inbox s.repaint
  | registered c hready ht =>
    obtain ⟨-, -, hidle⟩ := ready_setup_iff.1 hready
    subst ht
    exact { h with
      callFits := callFits_of_none (idle_free h hidle).1
      cbiBelow := h.cbiBelow.trans (by simp) }
  | started hready ht =>
    obtain ⟨hfault, -, hidle⟩ := ready_setup_iff.1 hready
    exact ht ▸ inv_acceptStart (inv_readClock h) hidle hfault
  | assembled bs ht => exact ht ▸ inv_outside h s.trace s.issuer _ s.inbox s.repaint
  | cancelled hrun _ ht => exact ht ▸ inv_cancel h hrun
  | ignored ht => exact ht ▸ h

/-- Every phase of `Running` keeps the invariant; a reading of the clock leaves the state at its phase. -/
theorem RunEffect.inv {p : Phase} {s t : State} (he : RunEffect s t) (hp : AtPhase p s) (h : Inv s) :
    Inv t := by
  have hread (v : State) (hv : v = s ∨ v = readClock s) : Inv v ∧ AtPhase p v := by
    rcases hv with rfl | rfl
    · exact ⟨h, hp⟩
    · exact ⟨inv_readClock h, hp.1, hp.2, hp.3, hp.4, hp.5, hp.6⟩
  cases he with
  | called _ _ hfits ht => exact ht ▸ inv_invoke h (hfits hp.running)
  | advanced v hv q hq step cycle cbi repaint hstep hcbi ht =>
    obtain ⟨hinv, hat⟩ := hread v hv
    have hbelow : step < stepsPerCycle v.cfg := hstep.elim (fun hle => hle.trans_lt hinv.stepBelow) id
    have hcount := inv_counters hinv hat.notCalling step cycle cbi repaint hbelow (hcbi.trans hinv.cbiBelow)
    exact ht ▸ inv_phase hcount hat.notCalling hat.notWaiting q (hq.trans hat.running.symm)
  | framed v hv q hq ht =>
    exact ht ▸ inv_framed h hv hp.notCalling hp.notWaiting q (hq.trans hp.running.symm)
  | paced q hq ht =>
    exact ht ▸ inv_paceTo h hp.running hp.notCalling hp.notWaiting hp.notCancelled hq
  | stopped v hv r hr ht =>
    obtain ⟨hinv, hat⟩ := hread v hv
    exact ht ▸ inv_drainFor hinv hat.running hat.notCalling hat.notWaiting hr

/-- Every phase of `Draining` keeps the invariant; no wait is outstanding there. -/
theorem DrainEffect.inv {p : Phase} {s t : State} (he : DrainEffect s t) (hp : AtDrain p s) (h : Inv s) :
    Inv t := by
  have hwake : s.wake = none := wake_eq_none h (by simp [hp.draining])
  cases he with
  | called _ _ hshut ht => exact ht ▸ inv_invoke h ⟨hp.draining, hshut⟩
  | passed ht => exact ht ▸ inv_phase h hp.notCalling hwake .pClear hp.draining.symm
  | cleared v hv ht =>
    have hblank := inv_storage h s.buf.blank s.cache (blank_length _) h.cacheSound h.cacheBounded
    exact ht ▸ inv_framed hblank hv hp.notCalling hwake .pClose hp.draining.symm
  | closed es ht => exact ht ▸ inv_close h hp.draining hp.notCalling _

theorem schedulerMove_inv {s t : State} (h : Inv s) (hmove : schedulerMove s = .next t) : Inv t := by
  cases schedulerMove_effect hmove with
  | still ht => exact ht ▸ h
  | cancelled hcalling hrun hpending ht =>
    have hfree := inv_wakeOver h fun _ hnot => by simp [hpending] at hnot
    have hreason : s.exitReason = .noReason := h.reasonRunning hrun
    exact ht ▸ inv_drainFor hfree hrun hcalling rfl (by simp [hreason, interruptReason])
  | woke _ hrun _ b hwake ht =>
    have hfits := h.wakeFits
    simp only [wakeFits, hwake] at hfits
    obtain ⟨-, -, -, hb⟩ := hfits
    have hpassed : Inv (passBoundary b s) :=
      inv_readClock (inv_clock h _ s.clockIn s.draws (le_max_left _ _))
    refine ht ▸ inv_wakeOver hpassed fun _ _ => ?_
    calc s.t0 + s.k * tickUnits s.cfg
      _ = b := hb.symm
      _ ≤ max s.clock b := le_max_right _ _
      _ ≤ (passBoundary b s).clock := Nat.le_add_right _ _
  | ran _ hp hphase => exact (runPhase_effect hphase).inv hp h
  | drained _ hp hphase => exact (drainPhase_effect hphase).inv hp h

/-- A return keeps the invariant: the outstanding invocation says where the scheduler stands. -/
theorem afterReturn_inv {s t : State} {inv : Invocation} {r : Ret} (h : Inv s)
    (hcalling : s.calling = some inv) (hret : afterReturn inv.args r (endCall inv.handle r s) = .next t) :
    Inv t := by
  have hfits := h.callFits
  simp only [callFits, hcalling] at hfits
  have hover := inv_endCall h inv.handle r
  cases afterReturn_effect hret with
  | initialised n ha ht =>
    simp only [ha] at hfits
    obtain ⟨hrun, hphase⟩ := hfits
    have hwake : s.wake = none := wake_eq_none h (by simp [hphase])
    exact ht ▸ inv_phase hover rfl hwake .pFirst hrun.symm
  | collected n m st cy ha repaint ht =>
    simp only [ha] at hfits
    obtain ⟨hrun, hphase, hlt⟩ := hfits
    have hwake : s.wake = none := wake_eq_none h (by simp [hphase])
    have hcount := inv_counters hover rfl s.step s.cycle (s.cbi + 1) repaint h.stepBelow hlt
    exact ht ▸ inv_phase hcount rfl hwake .pCb hrun.symm
  | faulted ha ht =>
    have hrun : s.sched = .running := running_of_calling h.callFits hcalling ha
    have hwake : s.wake = none := wake_eq_none h fun _ => by
      split at hfits
      · simp [hfits.2]
      · simp [hfits.2.1]
      · next n hn => exact absurd hn (ha n)
    exact ht ▸ inv_drainFor hover hrun rfl hwake nofun
  | shutDown n ha e he ht =>
    simp only [ha] at hfits
    obtain ⟨hdrain, -⟩ := hfits
    have hwake : s.wake = none := wake_eq_none h (by simp [hdrain])
    rw [ht]
    rcases he with rfl | rfl
    · exact inv_phase hover rfl hwake .pClear hdrain.symm
    · exact inv_phase (inv_shutdownFault hover hdrain) rfl hwake .pClear hdrain.symm

/-- Settles O51, by the inversion of the step: a command, an event, a return, a reset and a move each keep
the invariant. -/
theorem everyStepKeepsTheInvariant : Obligations.EveryStepKeepsTheInvariant := by
  intro s t h hstep
  have htaken : Inv { s with inbox := s.inbox.tail } :=
    inv_outside h s.trace s.issuer s.asm s.inbox.tail s.repaint
  cases step_effect hstep with
  | command who _ _ _ hcmd =>
    exact (takeCommand_effect hcmd).inv
      (inv_outside htaken s.trace who s.asm s.inbox.tail s.repaint)
  | event _ hexec => exact (exec_effect hexec).inv htaken
  | returned _ _ hcalling hret => exact afterReturn_inv htaken hcalling hret
  | reset c hc _ ht => exact ht ▸ inv_reconstruct hc _
  | moved hmove => exact schedulerMove_inv htaken hmove

end Sys2Proof.Laws
end

section
/-! Encoding then decoding, as words and as byte strings, the most significant byte first (spec/20_memory.md
R42, spec/30_encoding.md R61 to R72). -/

namespace Sys2Proof.Laws

/-! ### The words (R61 to R65, R70 to R72) -/

theorem packPair_high (hi lo : BitVec 16) : (packPair hi lo).extractLsb' 16 16 = hi :=
  extractHigh_append hi lo

theorem packPair_low (hi lo : BitVec 16) : (packPair hi lo).extractLsb' 0 16 = lo :=
  extractLow_append hi lo

/-- The four 16-bit fields of a packed word are the halves of its last two parts (R61). -/
@[simp] theorem aField_pack (op : BitVec 8) (idx : BitVec 24) (hi lo : BitVec 16) (w2 : Word32) :
    aField (packCommand op idx (packPair hi lo) w2) = hi := by
  rw [aField_eq, w1Field_pack, packPair_high]

@[simp] theorem bField_pack (op : BitVec 8) (idx : BitVec 24) (hi lo : BitVec 16) (w2 : Word32) :
    bField (packCommand op idx (packPair hi lo) w2) = lo := by
  rw [bField_eq, w1Field_pack, packPair_low]

@[simp] theorem cField_pack (op : BitVec 8) (idx : BitVec 24) (w1 : Word32) (hi lo : BitVec 16) :
    cField (packCommand op idx w1 (packPair hi lo)) = hi := by
  rw [cField_eq, w2Field_pack, packPair_high]

@[simp] theorem dField_pack (op : BitVec 8) (idx : BitVec 24) (w1 : Word32) (hi lo : BitVec 16) :
    dField (packCommand op idx w1 (packPair hi lo)) = lo := by
  rw [dField_eq, w2Field_pack, packPair_low]

@[simp] theorem xField_pack (op : BitVec 8) (idx : BitVec 24) (x : BitVec 8) (c : BitVec 24)
    (w2 : Word32) : xField (packCommand op idx (x ++ c) w2) = x := by
  rw [xField_eq, w1Field_pack]
  exact extractHigh_append x c

@[simp] theorem rgbField_pack (op : BitVec 8) (idx : BitVec 24) (x : BitVec 8) (c : BitVec 24)
    (w2 : Word32) : rgbField (packCommand op idx (x ++ c) w2) = c := by
  rw [rgbField_eq, w1Field_pack]
  exact extractLow_append x c

/-- An unsigned field gives back a natural in its range (R64). -/
theorem toNat_ofNat_of_fits {w v : Nat} (h : fitsUnsigned w v = true) : (BitVec.ofNat w v).toNat = v :=
  Nat.mod_eq_of_lt (of_decide_eq_true h)

/-- The 32-bit two's-complement field of `ROTATE` (R64). -/
theorem toInt_field32 {k : Int} (h : fitsSigned 31 k = true) : (BitVec.ofInt 32 k).toInt = k := by
  simp only [fitsSigned, Bool.and_eq_true, decide_eq_true_eq] at h
  rw [BitVec.toInt_ofInt, Int.bmod_eq_of_le] <;> omega

/-- The part of a word that holds a given number. -/
theorem extractLsb'_eq_of_toNat {m n lo : Nat} {w : BitVec m} {v : BitVec n}
    (h : w.toNat / 2 ^ lo % 2 ^ n = v.toNat) : w.extractLsb' lo n = v :=
  BitVec.eq_of_toNat_eq (by rw [BitVec.extractLsb'_toNat, Nat.shiftRight_eq_div_pow, h])

/-- The LED command's parts stand where the decoder reads them, and its marker tells it from the start
frame (R70, R71). -/
theorem decodeWireQuad_ledCmd (h : BitVec 5) (x y z : Byte) :
    decodeWireQuad ((0b111 : BitVec 3) ++ h ++ x ++ y ++ z) = .ok (.ledCmd h x y z) := by
  generalize hw : (0b111 : BitVec 3) ++ h ++ x ++ y ++ z = w
  have hnum : w.toNat =
      (((7 * 2 ^ 5 + h.toNat) * 2 ^ 8 + x.toNat) * 2 ^ 8 + y.toNat) * 2 ^ 8 + z.toNat := by
    simp only [← hw, append_toNat]
    rfl
  have := h.isLt; have := x.isLt; have := y.isLt; have := z.isLt
  have hmarker : w.extractLsb' 29 3 = 0b111 := extractLsb'_eq_of_toNat (by change _ = 7; omega)
  have hh : w.extractLsb' 24 5 = h := extractLsb'_eq_of_toNat (by omega)
  have hx : w.extractLsb' 16 8 = x := extractLsb'_eq_of_toNat (by omega)
  have hy : w.extractLsb' 8 8 = y := extractLsb'_eq_of_toNat (by omega)
  have hz : w.extractLsb' 0 8 = z := extractLsb'_eq_of_toNat (by omega)
  have hne : w ≠ 0 := by
    rintro rfl
    cases hmarker
  simp only [decodeWireQuad, hne, if_false, hmarker, if_true, hh, hx, hy, hz]

/-- The decoder gives back every well-formed instruction (R61 to R65, R70 to R72). -/
theorem decode_encode {i : Instr} (h : i.wellFormed = true) : decode (encode i) = .ok i := by
  cases i with
  | set i r g b br =>
    simp only [Instr.wellFormed, fitsPixel, Bool.and_eq_true] at h
    obtain ⟨hi, ⟨⟨hr, hg⟩, hb⟩, hbr⟩ := h
    simp [encode, decode, decodeCommand, toNat_ofNat_of_fits hi, toInt_field16, *]
  | setrgb i x c br =>
    simp only [Instr.wellFormed, Bool.and_eq_true] at h
    obtain ⟨hi, hbr⟩ := h
    simp [encode, decode, decodeCommand, whenUnusedZero, toNat_ofNat_of_fits hi, toInt_field16, *]
  | get i =>
    simp [encode, decode, decodeCommand, whenUnusedZero, toNat_ofNat_of_fits h]
  | blank => rfl
  | rotate k =>
    simp [encode, decode, decodeCommand, whenUnusedZero, toInt_field32 h]
  | order => rfl
  | render => rfl
  | encode r g b br =>
    simp only [Instr.wellFormed, fitsPixel, Bool.and_eq_true] at h
    obtain ⟨⟨⟨hr, hg⟩, hb⟩, hbr⟩ := h
    simp [encode, decode, decodeCommand, whenUnusedZero, toInt_field16, *]
  | regcb c =>
    simp [encode, decode, decodeCommand, whenUnusedZero, toNat_ofNat_of_fits h]
  | start => rfl
  | startFrame => rfl
  | ledCmd h x y z => exact decodeWireQuad_ledCmd _ _ _ _
  | endPad => rfl
  | cancel => rfl

/-! ### The bytes (R42) -/

@[simp] theorem toBytes_length (n v : Nat) : (toBytes n v).length = n := by
  induction n with
  | zero => rfl
  | succ n ih => simp [toBytes, ih]

/-- Reading on from `acc` shifts it by the bytes read and adds their number. -/
theorem foldl_toBytes (n v acc : Nat) :
    (toBytes n v).foldl (fun acc b => acc * 256 + b.toNat) acc = acc * 256 ^ n + v % 256 ^ n := by
  induction n generalizing acc with
  | zero => simp [toBytes, Nat.mod_one]
  | succ n ih =>
    rw [toBytes, List.foldl_cons, ih, BitVec.toNat_ofNat, Nat.mod_pow_succ (b := 256)]
    ring

theorem ofBytes_toBytes {n v : Nat} (h : v < 256 ^ n) : ofBytes (toBytes n v) = v := by
  rw [ofBytes, foldl_toBytes, Nat.zero_mul, Nat.zero_add, Nat.mod_eq_of_lt h]

/-- The byte decoder reads the serialisation of a word as that word; the event has none. -/
theorem decodeBytes_bytes {e : Encoding} (h : e ≠ .event) : decodeBytes e.bytes = decode e := by
  cases e with
  | command w =>
    have hw : ofBytes (toBytes 12 w.toNat) = w.toNat := ofBytes_toBytes w.isLt
    simp [decodeBytes, Encoding.bytes, decode, hw]
  | wireQuad w =>
    have hw : ofBytes (toBytes 4 w.toNat) = w.toNat := ofBytes_toBytes w.isLt
    simp [decodeBytes, Encoding.bytes, decode, hw]
  | wireByte w => simp [decodeBytes, Encoding.bytes, decode, ofBytes]
  | event => exact absurd rfl h

theorem encode_eq_event_iff {i : Instr} : encode i = .event ↔ i = .cancel := by
  cases i <;> simp [encode]

/-- Settles O5: the bytes of a word decode as the word does, and the word to its instruction. -/
theorem byteStringsDecodeMostSignificantFirst : Obligations.ByteStringsDecodeMostSignificantFirst := by
  intro i hwf hcancel
  calc decodeBytes (encode i).bytes
    _ = decode (encode i) := decodeBytes_bytes (mt encode_eq_event_iff.1 hcancel)
    _ = .ok i := decode_encode hwf

end Sys2Proof.Laws
end

section
/-! A frame as `encode_pure` gives it: that it exists, its length and its address map (spec/20_memory.md
R47). -/

namespace Sys2Proof.Laws

open Sys2Proof.Machine

/-- The end padding's count is not negative (R72). -/
theorem padCount_eq_ceilDiv (n : Nat) : (padCount n : Int) = ceilDiv n 16 := by
  have hn : (n : Int) ≤ ceilDiv n 16 * 16 := le_ceilDiv_mul (by norm_num)
  have hnonneg : 0 ≤ ceilDiv (n : Int) 16 := by omega
  exact Int.toNat_of_nonneg hnonneg

theorem assembleFrame_encodings_length (c : Cfg) (ps : List Pixel) :
    (assembleFrame (ps.map (encodePure c))).length = frameLength ps.length := by
  rw [assembleFrame, List.length_append, List.length_append, encodings_length, padding_length,
    List.length_map]
  rfl

/-- Bytes 0 to 3 are the start frame (R70). -/
theorem assembleFrame_take_four (leds : List (List Byte)) :
    (assembleFrame leds).take 4 = startFrameBytes := by
  simp [assembleFrame, startFrameBytes]

/-- Behind the start frame come the LED commands, then the padding (R73). -/
theorem assembleFrame_drop_four_add (leds : List (List Byte)) (i : Nat) :
    (assembleFrame leds).drop (4 + i) = (leds.flatten ++ padding leds.length).drop i := by
  simp [assembleFrame, startFrameBytes, Nat.add_comm 4 i]

/-- Every byte of the end padding is 0 (R72). -/
theorem eq_zero_of_mem_padding {n : Nat} {b : Byte} (h : b ∈ padding n) : b = 0 := by
  rw [padding, endPadBytes, List.flatten_replicate_singleton] at h
  exact List.eq_of_mem_replicate h

/-- Of pieces of four bytes laid end to end, piece `j` is at `4 * j`, whatever follows. -/
theorem take_drop_encodings (c : Cfg) {ps : List Pixel} {j : Nat} {p : Pixel} (h : ps[j]? = some p)
    (rest : List Byte) :
    (((ps.map (encodePure c)).flatten ++ rest).drop (4 * j)).take 4 = encodePure c p := by
  induction ps generalizing j with
  | nil => simp at h
  | cons q qs ih =>
    have hfour : (encodePure c q).length = 4 := rfl
    rw [List.map_cons, List.flatten_cons, List.append_assoc]
    cases j with
    | zero =>
      cases h
      exact List.take_left' hfour
    | succ j =>
      rw [Nat.mul_succ, Nat.add_comm, ← List.drop_drop, List.drop_left' hfour]
      exact ih h

/-- With no configuration fault `ORD` is a permutation of 0 to N-1 (R16, R50). -/
theorem ord_perm_range {s : State} (h : Inv s) (hfault : s.configFault = none) :
    s.ord.Perm (List.range (leds s.cfg)) := by
  have hnoError : configError s.cfg = none := h.faultFound ▸ hfault
  exact h.orderKept hfault ▸ (legalOrderIsAPermutation s.cfg hnoError).1

/-- With no configuration fault every slot `ORD` names exists, so a frame's pixels can be read (R47). -/
theorem readAll_ord {s : State} (h : Inv s) (hfault : s.configFault = none) :
    ∃ ps, Memory.readAll s.buf s.ord = some ps ∧ ps.length = leds s.cfg := by
  have hperm := ord_perm_range h hfault
  have hbuf : s.buf.length = leds s.cfg := (wf_iff _ _).1 (h.bufferWhole hfault)
  have hread := readAll_eq (m := s.buf) fun i hi => by
    simpa [hbuf] using hperm.mem_iff.1 hi
  exact ⟨_, hread, by simpa using hperm.length_eq⟩

/-- A pixel that was read came from the slot at its place in the list. -/
theorem slot_of_readAll {m : Memory} {is : List Nat} {ps : List Pixel} (h : m.readAll is = some ps)
    {j : Nat} {p : Pixel} (hp : ps[j]? = some p) : ∃ i, is[j]? = some i ∧ m.read i = some p := by
  have hslot : (is[j]?).map m.read = some (some p) := by
    rw [← List.getElem?_map, ← readAll_some h, List.getElem?_map, hp, Option.map_some]
  exact Option.map_eq_some_iff.1 hslot

/-- Settles O13: under the invariant the slots of `ORD` are read, and their frame is the start frame, the
encodings laid end to end, and the padding. -/
theorem frameAddressMap : Obligations.FrameAddressMap := by
  intro s h hfault
  obtain ⟨ps, hps, hlength⟩ := readAll_ord h hfault
  refine ⟨assembleFrame (ps.map (encodePure s.cfg)), by rw [pureFrame, hps]; rfl, ?_,
    assembleFrame_take_four _, fun j hj => ?_, fun b hb => ?_⟩
  · rw [assembleFrame_encodings_length, hlength, ← padCount_eq_ceilDiv]
    simp [frameLength]
  · have hp : ps[j]? = some ps[j] := List.getElem?_eq_getElem (hlength ▸ hj)
    obtain ⟨i, hi, hread⟩ := slot_of_readAll hps hp
    refine ⟨i, ps[j], hi, hread, ?_⟩
    rw [assembleFrame_drop_four_add]
    exact take_drop_encodings s.cfg hp _
  · have hleds : (ps.map (encodePure s.cfg)).flatten.length = 4 * leds s.cfg := by
      rw [encodings_length, hlength]
    rw [assembleFrame_drop_four_add, List.drop_left' hleds] at hb
    exact eq_zero_of_mem_padding hb

end Sys2Proof.Laws
end

section
/-! The logical order: the expansion of the range list and its validation (spec/20_memory.md R48, R49). -/

namespace Sys2Proof.Laws

open Sys2Proof.Machine

/-! ### The expansion (R48) -/

/-- An ascending run, as a map over its offsets counted in the naturals. -/
theorem expandRange_of_le {a b : Int} (h : a ≤ b) :
    expandRange a b = (List.range (b - a + 1).toNat).map fun d : Nat => a + (d : Int) := by
  simp [expandRange, h, ← List.map_eq_flatMap]

/-- A descending run, in the same way. -/
theorem expandRange_of_lt {a b : Int} (h : b < a) :
    expandRange a b = (List.range (a - b + 1).toNat).map fun d : Nat => a - (d : Int) := by
  simp [expandRange, h.not_ge, ← List.map_eq_flatMap]

theorem expandRange_ascending {a b : Int} (h : a ≤ b) :
    ((expandRange a b).length : Int) = b - a + 1 ∧
      ∀ d : Nat, (d : Int) ≤ b - a → (expandRange a b)[d]? = some (a + d) := by
  rw [expandRange_of_le h]
  refine ⟨?_, fun d hd => ?_⟩
  · rw [List.length_map, List.length_range]; omega
  · rw [List.getElem?_map, List.getElem?_range (by omega), Option.map_some]

theorem expandRange_descending {a b : Int} (h : b < a) :
    ((expandRange a b).length : Int) = a - b + 1 ∧
      ∀ d : Nat, (d : Int) ≤ a - b → (expandRange a b)[d]? = some (a - d) := by
  rw [expandRange_of_lt h]
  refine ⟨?_, fun d hd => ?_⟩
  · rw [List.length_map, List.length_range]; omega
  · rw [List.getElem?_map, List.getElem?_range (by omega), Option.map_some]

/-- Settles O20: the two directions of one range, and the expansion of a list by its definition. -/
theorem rangesRunBothWays : Obligations.RangesRunBothWays :=
  ⟨fun _ _ => ⟨expandRange_ascending, expandRange_descending⟩, rfl, fun _ _ => List.flatMap_cons⟩

/-! ### The validation (R49) -/

theorem mem_missing {e : List Int} {n : Nat} {x : Int} :
    x ∈ missing e n ↔ 0 ≤ x ∧ x < n ∧ x ∉ e := by
  rw [missing, List.mem_filter, decide_eq_true_iff, ← and_assoc]
  refine and_congr_left' ⟨fun h => ?_, fun ⟨hlow, hhigh⟩ => ?_⟩
  · obtain ⟨i, hi, rfl⟩ := List.mem_map.1 h
    have := List.mem_range.1 hi
    omega
  · exact List.mem_map.2 ⟨x.toNat, List.mem_range.2 (by omega), Int.toNat_of_nonneg hlow⟩

/-- A duplicated index occurs, so the list need be named for the outside ones only. -/
theorem mem_duplicatedOrOutside {e : List Int} {n : Nat} {x : Int} :
    x ∈ duplicatedOrOutside e n ↔ 1 < e.count x ∨ (x ∈ e ∧ (x < 0 ∨ (n : Int) ≤ x)) := by
  have hmem : 1 < e.count x → x ∈ e := fun h => List.count_pos_iff.1 (by omega)
  simp only [duplicatedOrOutside, List.mem_filter, Bool.or_eq_true, decide_eq_true_eq]
  tauto

theorem mem_offending {e : List Int} {n : Nat} {x : Int} :
    x ∈ offending e n ↔
      (0 ≤ x ∧ x < n ∧ x ∉ e) ∨ 1 < e.count x ∨ (x ∈ e ∧ (x < 0 ∨ (n : Int) ≤ x)) := by
  rw [offending, mem_risingSet, List.mem_append, mem_missing, mem_duplicatedOrOutside]

theorem insertRising_pairwise (x : Int) {l : List Int} (h : l.Pairwise (· < ·)) :
    (insertRising x l).Pairwise (· < ·) := by
  induction l with
  | nil => exact List.pairwise_singleton _ _
  | cons y ys ih =>
    obtain ⟨hy, hys⟩ := List.pairwise_cons.1 h
    unfold insertRising
    split
    case isTrue hlt =>
      refine List.pairwise_cons.2 ⟨fun z hz => ?_, h⟩
      rcases List.mem_cons.1 hz with rfl | hz
      · exact hlt
      · exact hlt.trans (hy z hz)
    case isFalse hge =>
      split
      · exact h
      · next hne =>
        refine List.pairwise_cons.2 ⟨fun z hz => ?_, ih hys⟩
        rcases (mem_insertRising z x ys).1 hz with rfl | hz
        · omega
        · exact hy z hz

theorem risingSet_pairwise (l : List Int) : (risingSet l).Pairwise (· < ·) := by
  induction l with
  | nil => exact .nil
  | cons x xs ih => exact insertRising_pairwise x ih

/-- With the checks before it passed, reset finds what the check of the logical order finds (R211). -/
theorem configError_eq_orderError {c : Cfg} (hn : 0 < c.n) (hwire : wireBijective c.wire = true) :
    configError c = orderError c := by
  simp [configError, hn.not_ge, hwire]

theorem orderError_of_offending_eq_nil {c : Cfg} {ranges : List (Int × Int)}
    (hranges : c.lorder = some ranges) (h : offending (expand ranges) (leds c) = []) :
    orderError c = none := by
  simp [orderError, hranges, h]

theorem orderError_of_offending_ne_nil {c : Cfg} {ranges : List (Int × Int)}
    (hranges : c.lorder = some ranges) (h : offending (expand ranges) (leds c) ≠ []) :
    orderError c = some (.logicalOrder (offending (expand ranges) (leds c))) := by
  obtain ⟨x, xs, hoff⟩ := List.exists_cons_of_ne_nil h
  simp [orderError, hranges, hoff]

/-- Settles O21: the members of the recorded set, its rising order, and what reset finds by it. -/
theorem offendingIndicesAreExactlyNamed : Obligations.OffendingIndicesAreExactlyNamed := by
  refine ⟨fun _ _ _ => mem_offending, fun _ _ => risingSet_pairwise _,
    fun c ranges hn hwire hranges => ?_⟩
  rw [configError_eq_orderError hn hwire]
  exact ⟨orderError_of_offending_eq_nil hranges, orderError_of_offending_ne_nil hranges⟩

end Sys2Proof.Laws
end

section
/-! The trace and the clock over a step (spec/20_memory.md R52, spec/60_exceptions.md R196). -/

namespace Sys2Proof.Laws

open Sys2Proof.Machine

/-- Nothing of the trace is taken back, and the clock has not run back. -/
def Onward (s t : State) : Prop := s.trace <+: t.trace ∧ s.clock ≤ t.clock

theorem Onward.refl (s : State) : Onward s s := ⟨List.prefix_rfl, le_rfl⟩

theorem Onward.trans {s t u : State} (hst : Onward s t) (htu : Onward t u) : Onward s u :=
  ⟨hst.1.trans htu.1, hst.2.trans htu.2⟩

/-- Events appended, the clock as it was. -/
theorem onward_of_append {s t : State} {es : List Event} (htrace : t.trace = s.trace ++ es)
    (hclock : t.clock = s.clock) : Onward s t :=
  ⟨htrace ▸ List.prefix_append _ _, hclock.ge⟩

/-- A reading of the clock sends nothing (R196). -/
theorem readClock_onward (s : State) : Onward s (readClock s) :=
  ⟨List.prefix_rfl, Nat.le_add_right _ _⟩

/-- The clock read or not. -/
theorem onward_of_read {s v : State} (h : v = s ∨ v = readClock s) : Onward s v := by
  rcases h with rfl | rfl
  · exact .refl _
  · exact readClock_onward s

/-- The end of a wait only moves the clock on, to its boundary or past it (R197). -/
theorem passBoundary_onward (b : Nat) (s : State) : Onward s (passBoundary b s) :=
  ⟨List.prefix_rfl, (le_max_left s.clock b).trans (Nat.le_add_right _ _)⟩

theorem paceTo_onward (q : Phase) (s : State) : Onward s (paceTo q s) := by
  have hread : Onward s (readClock { s with k := s.k + 1, phase := q }) := readClock_onward _
  rcases paceTo_cases q s with ⟨-, heq⟩ | heq <;> exact heq ▸ hread

/-- A frame sent appends its chunks (R161). -/
theorem emitFrame_onward {s t : State} (h : emitFrame s = some t) : Onward s t := by
  obtain ⟨cs, r, -, rfl⟩ := emitFrame_some h
  exact onward_of_append rfl rfl

theorem ExecEffect.onward {s t : State} (h : ExecEffect s t) : Onward s t := by
  cases h with
  | answered _ _ ht => subst ht; exact onward_of_append rfl rfl
  | stored _ _ _ ht => subst ht; exact onward_of_append rfl rfl
  | encoded _ _ ht => subst ht; exact onward_of_append rfl rfl
  | rendered _ _ _ _ ht => subst ht; exact onward_of_append rfl rfl
  | registered _ _ ht => subst ht; exact onward_of_append rfl rfl
  | started _ ht => exact ht ▸ readClock_onward s
  | assembled _ ht => exact ht ▸ Onward.refl s
  | cancelled _ _ ht => exact ht ▸ Onward.refl s
  | ignored ht => exact ht ▸ Onward.refl s

theorem RunEffect.onward {s t : State} (h : RunEffect s t) : Onward s t := by
  cases h with
  | called _ _ _ ht => subst ht; exact onward_of_append rfl rfl
  | advanced _ hv _ _ _ _ _ _ _ _ ht => have hread := onward_of_read hv; exact ht ▸ hread
  | framed _ hv _ _ ht => have hsent := emitFrame_onward hv; exact ht ▸ hsent
  | paced q _ ht => exact ht ▸ paceTo_onward q s
  | stopped _ hv _ _ ht => have hread := onward_of_read hv; exact ht ▸ hread

theorem DrainEffect.onward {s t : State} (h : DrainEffect s t) : Onward s t := by
  cases h with
  | called _ _ _ ht => subst ht; exact onward_of_append rfl rfl
  | passed ht => exact ht ▸ Onward.refl s
  | cleared _ hv ht => have hsent := emitFrame_onward hv; exact ht ▸ hsent
  | closed _ ht => subst ht; exact onward_of_append rfl rfl

theorem ReturnEffect.onward {args : CallArgs} {s t : State} (h : ReturnEffect args s t) :
    Onward s t := by
  cases h with
  | initialised _ _ ht => exact ht ▸ Onward.refl s
  | collected _ _ _ _ _ _ ht => exact ht ▸ Onward.refl s
  | faulted _ ht => exact ht ▸ Onward.refl s
  | shutDown _ _ _ _ ht => exact ht ▸ Onward.refl s

theorem schedulerMove_onward {s t : State} (h : schedulerMove s = .next t) : Onward s t := by
  cases schedulerMove_effect h with
  | still ht => exact ht ▸ Onward.refl s
  | cancelled _ _ _ ht => exact ht ▸ Onward.refl s
  | woke _ _ _ b _ ht => exact ht ▸ passBoundary_onward b s
  | ran _ _ h => exact (runPhase_effect h).onward
  | drained _ _ h => exact (drainPhase_effect h).onward

theorem endCall_onward (handle : Nat) (r : Ret) (s : State) : Onward s (endCall handle r s) :=
  onward_of_append rfl rfl

/-- Settles O55, by the inversion of the step: a command, an event, a return and a move each go onward,
and a reset keeps the outside world's trace and clock (log 17). -/
theorem traceGrowsAndClockNeverRunsBack : Obligations.TraceGrowsAndClockNeverRunsBack := by
  intro s t hstep
  change Onward { s with inbox := s.inbox.tail } t
  cases step_effect hstep with
  | command _ _ _ _ h => exact (takeCommand_effect h).onward
  | event _ h => exact (exec_effect h).onward
  | returned _ _ _ h => exact (endCall_onward _ _ _).trans (afterReturn_effect h).onward
  | reset _ _ _ ht => exact ht ▸ Onward.refl s
  | moved h => exact schedulerMove_onward h

end Sys2Proof.Laws
end

section
/-! Decoding then encoding: the forms a command word decodes by, and the wire items (spec/30_encoding.md R61
to R67, R70 to R72). -/

namespace Sys2Proof.Laws

/-- Settles O2, by the round trip of each instruction's word. -/
theorem decodeInvertsEncode : Obligations.DecodeInvertsEncode :=
  fun _ hwf => decode_encode hwf

/-! ### A word from its fields (R61, R62) -/

@[simp] theorem packPair_aField_bField (w : CommandWord) :
    packPair (aField w) (bField w) = w1Field w := by
  apply BitVec.eq_of_toNat_eq
  simp only [packPair, append_toNat, aField, bField, w1Field, BitVec.extractLsb'_toNat,
    Nat.shiftRight_eq_div_pow]
  omega

@[simp] theorem packPair_cField_dField (w : CommandWord) :
    packPair (cField w) (dField w) = w2Field w := by
  apply BitVec.eq_of_toNat_eq
  simp only [packPair, append_toNat, cField, dField, w2Field, BitVec.extractLsb'_toNat,
    Nat.shiftRight_eq_div_pow]
  omega

@[simp] theorem xField_append_rgbField (w : CommandWord) :
    (xField w ++ rgbField w : Word32) = w1Field w := by
  apply BitVec.eq_of_toNat_eq
  simp only [append_toNat, xField, rgbField, w1Field, BitVec.extractLsb'_toNat,
    Nat.shiftRight_eq_div_pow]
  omega

theorem packCommand_eq_iff {op : BitVec 8} {idx : BitVec 24} {w1 w2 : Word32} {w : CommandWord} :
    packCommand op idx w1 w2 = w ↔
      op = opField w ∧ idx = idxField w ∧ w1 = w1Field w ∧ w2 = w2Field w := by
  conv_lhs => rw [← packCommand_fields w, packCommand_inj]

/-- A word half is zero exactly when both of its parts are. -/
theorem packPair_eq_zero_iff {hi lo : BitVec 16} : packPair hi lo = 0 ↔ hi = 0 ∧ lo = 0 := by
  constructor
  · intro h
    exact ⟨by rw [← packPair_high hi lo, h]; rfl, by rw [← packPair_low hi lo, h]; rfl⟩
  · rintro ⟨rfl, rfl⟩
    rfl

/-! ### The command words (R62, R63, R66) -/

/-- A command word and its instruction, format by format: the `OP` value, the unused fields zero, and the
operands in the fields that hold them. -/
inductive CommandForm (w : CommandWord) : Instr → Prop
  | set (op : opField w = 0x01) :
      CommandForm w (.set (idxField w).toNat (aField w).toInt (bField w).toInt (cField w).toInt
        (dField w).toInt)
  | setrgb (op : opField w = 0x02) (unused : cField w = 0) :
      CommandForm w (.setrgb (idxField w).toNat (xField w) (rgbField w) (dField w).toInt)
  | get (op : opField w = 0x03) (unused : w1Field w = 0 ∧ w2Field w = 0) :
      CommandForm w (.get (idxField w).toNat)
  | blank (op : opField w = 0x04) (unused : idxField w = 0 ∧ w1Field w = 0 ∧ w2Field w = 0) :
      CommandForm w .blank
  | rotate (op : opField w = 0x05) (unused : idxField w = 0 ∧ w2Field w = 0) :
      CommandForm w (.rotate (w1Field w).toInt)
  | order (op : opField w = 0x06) (unused : idxField w = 0 ∧ w1Field w = 0 ∧ w2Field w = 0) :
      CommandForm w .order
  | render (op : opField w = 0x07) (unused : idxField w = 0 ∧ w1Field w = 0 ∧ w2Field w = 0) :
      CommandForm w .render
  | encode (op : opField w = 0x08) (unused : idxField w = 0) :
      CommandForm w (.encode (aField w).toInt (bField w).toInt (cField w).toInt (dField w).toInt)
  | regcb (op : opField w = 0x10) (unused : idxField w = 0 ∧ aField w = 0 ∧ w2Field w = 0) :
      CommandForm w (.regcb (bField w).toNat)
  | start (op : opField w = 0x11) (unused : idxField w = 0 ∧ w1Field w = 0 ∧ w2Field w = 0) :
      CommandForm w .start

theorem noOperand_iff {w : CommandWord} :
    noOperand w = true ↔ idxField w = 0 ∧ w1Field w = 0 ∧ w2Field w = 0 := by
  simp [noOperand, and_assoc]

/-- The check of R66 passes an instruction on only when the unused fields are zero. -/
theorem CommandForm.of_whenUnusedZero {w : CommandWord} {zero : Bool} {i j : Instr}
    (h : whenUnusedZero zero i = .ok j) (hform : zero = true → CommandForm w i) : CommandForm w j := by
  cases zero with
  | false => cases h
  | true => cases h; exact hform rfl

/-- The inversion of the command port's decoder. -/
theorem commandForm_of_decodeCommand {w : CommandWord} {i : Instr} (h : decodeCommand w = .ok i) :
    CommandForm w i := by
  unfold decodeCommand at h
  split_ifs at h with op op op op op op op op op op
  · cases h; exact .set op
  · exact .of_whenUnusedZero h fun unused => .setrgb op (by simpa using unused)
  · exact .of_whenUnusedZero h fun unused => .get op (by simpa using unused)
  · exact .of_whenUnusedZero h fun unused => .blank op (noOperand_iff.1 unused)
  · exact .of_whenUnusedZero h fun unused => .rotate op (by simpa using unused)
  · exact .of_whenUnusedZero h fun unused => .order op (noOperand_iff.1 unused)
  · exact .of_whenUnusedZero h fun unused => .render op (noOperand_iff.1 unused)
  · exact .of_whenUnusedZero h fun unused => .encode op (by simpa using unused)
  · exact .of_whenUnusedZero h fun unused => .regcb op (by simpa [and_assoc] using unused)
  · exact .of_whenUnusedZero h fun unused => .start op (noOperand_iff.1 unused)

/-- A field's number is in the field's range (R64). -/
theorem fitsUnsigned_toNat {w : Nat} (b : BitVec w) : fitsUnsigned w b.toNat = true :=
  decide_eq_true b.isLt

theorem fitsSigned_toInt_word32 (b : Word32) : fitsSigned 31 b.toInt = true := by
  have hlow := b.le_toInt
  have hhigh := b.toInt_lt
  simp only [fitsSigned, Bool.and_eq_true, decide_eq_true_eq]
  omega

theorem CommandForm.wellFormed {w : CommandWord} {i : Instr} (h : CommandForm w i) :
    i.wellFormed = true := by
  cases h <;>
    simp [Instr.wellFormed, fitsPixel, fitsUnsigned_toNat, fitsSigned_toInt, fitsSigned_toInt_word32]

/-- Each form is the encoder's own: `OP`, the operands' fields and the zeros make up the whole word. -/
theorem CommandForm.encode_eq {w : CommandWord} {i : Instr} (h : CommandForm w i) :
    Sys2Proof.encode i = .command w := by
  cases h with
  | set op => simp [Sys2Proof.encode, field16_toInt, packCommand_eq_iff, op]
  | setrgb op unused => simp [Sys2Proof.encode, field16_toInt, packCommand_eq_iff, op, ← unused]
  | encode op unused => simp [Sys2Proof.encode, field16_toInt, packCommand_eq_iff, op, unused]
  | regcb op unused =>
    obtain ⟨hidx, ha, h2⟩ := unused
    simp [Sys2Proof.encode, packCommand_eq_iff, op, hidx, ← ha, h2]
  | get op unused | blank op unused | rotate op unused | order op unused | render op unused
  | start op unused => simp [Sys2Proof.encode, packCommand_eq_iff, op, unused]

/-- A command word decodes to an instruction exactly when it has the instruction's form. -/
theorem decodeCommand_ok_iff {w : CommandWord} {i : Instr} :
    decodeCommand w = .ok i ↔ CommandForm w i := by
  refine ⟨commandForm_of_decodeCommand, fun h => ?_⟩
  have hback : decode (encode i) = .ok i := decode_encode h.wellFormed
  rwa [h.encode_eq] at hback

/-! ### The wire words (R70 to R72) -/

theorem encode_of_decodeWireQuad {w : Word32} {i : Instr} (h : decodeWireQuad w = .ok i) :
    i.wellFormed = true ∧ encode i = .wireQuad w := by
  unfold decodeWireQuad at h
  split at h
  case isTrue hzero => cases h; exact ⟨rfl, by rw [hzero]; rfl⟩
  split at h
  case isTrue hmarker =>
    cases h
    refine ⟨rfl, congrArg Encoding.wireQuad (BitVec.eq_of_toNat_eq ?_)⟩
    have hbound := w.isLt
    simp only [← hmarker, append_toNat, BitVec.extractLsb'_toNat, Nat.shiftRight_eq_div_pow]
    omega
  case isFalse => cases h

theorem encode_of_decodeWireByte {w : Byte} {i : Instr} (h : decodeWireByte w = .ok i) :
    i.wellFormed = true ∧ encode i = .wireByte w := by
  unfold decodeWireByte at h
  split at h
  case isTrue hzero => cases h; exact ⟨rfl, by rw [hzero]; rfl⟩
  case isFalse => cases h

/-- Settles O3: each word that decodes has one of the forms the encoder writes. -/
theorem encodeInvertsDecode : Obligations.EncodeInvertsDecode := by
  intro e i h
  cases e with
  | command w =>
    have hform : CommandForm w i := commandForm_of_decodeCommand h
    exact ⟨hform.wellFormed, hform.encode_eq⟩
  | wireQuad w => exact encode_of_decodeWireQuad h
  | wireByte w => exact encode_of_decodeWireByte h
  | event => cases h; exact ⟨rfl, rfl⟩

end Sys2Proof.Laws
end

section
/-! The opcode table against the decoder of the command port (spec/30_encoding.md R67). -/

namespace Sys2Proof.Laws

open Sys2Proof.Machine

/-! ### Some row selects what decodes -/

/-- The table's words written as their fields (R61). -/
theorem commandRows_eq : commandRows =
    [⟨packCommand 0x01 0 0 0, packCommand (.allOnes 8) 0 0 0⟩,
     ⟨packCommand 0x02 0 0 0, packCommand (.allOnes 8) 0 0 (packPair (.allOnes 16) 0)⟩,
     ⟨packCommand 0x03 0 0 0, packCommand (.allOnes 8) 0 (.allOnes 32) (.allOnes 32)⟩,
     ⟨packCommand 0x04 0 0 0, packCommand (.allOnes 8) (.allOnes 24) (.allOnes 32) (.allOnes 32)⟩,
     ⟨packCommand 0x05 0 0 0, packCommand (.allOnes 8) (.allOnes 24) 0 (.allOnes 32)⟩,
     ⟨packCommand 0x06 0 0 0, packCommand (.allOnes 8) (.allOnes 24) (.allOnes 32) (.allOnes 32)⟩,
     ⟨packCommand 0x07 0 0 0, packCommand (.allOnes 8) (.allOnes 24) (.allOnes 32) (.allOnes 32)⟩,
     ⟨packCommand 0x08 0 0 0, packCommand (.allOnes 8) (.allOnes 24) 0 0⟩,
     ⟨packCommand 0x10 0 0 0,
       packCommand (.allOnes 8) (.allOnes 24) (packPair (.allOnes 16) 0) (.allOnes 32)⟩,
     ⟨packCommand 0x11 0 0 0, packCommand (.allOnes 8) (.allOnes 24) (.allOnes 32) (.allOnes 32)⟩] := by
  decide

/-- A mask on the upper half of a word tests that half alone. -/
theorem packPair_and_high_eq_zero_iff {hi lo : BitVec 16} :
    packPair hi lo &&& packPair (.allOnes 16) 0#16 = 0#32 ↔ hi = 0#16 := by
  have hmask : packPair hi lo &&& packPair (.allOnes 16) 0#16 = packPair hi 0#16 := by
    rw [packPair, packPair, BitVec.and_append, BitVec.and_allOnes, BitVec.and_zero, packPair]
  rw [hmask]
  exact packPair_eq_zero_iff.trans (and_iff_left rfl)

theorem w1Field_and_high_eq_zero_iff {w : CommandWord} :
    w1Field w &&& packPair (.allOnes 16) 0#16 = 0#32 ↔ aField w = 0#16 := by
  rw [← packPair_aField_bField, packPair_and_high_eq_zero_iff]

theorem w2Field_and_high_eq_zero_iff {w : CommandWord} :
    w2Field w &&& packPair (.allOnes 16) 0#16 = 0#32 ↔ cField w = 0#16 := by
  rw [← packPair_cField_dField, packPair_and_high_eq_zero_iff]

/-- A row's mask covers `OP` and the fields its format leaves unused, so it selects the words of the
format's form. -/
theorem exists_row_selects_iff {w : CommandWord} :
    (∃ row ∈ commandRows, row.selects w = true) ↔ ∃ i, CommandForm w i := by
  simp only [commandRows_eq, List.exists_mem_cons_iff, List.not_mem_nil, false_and, exists_false,
    or_false, row_selects_iff, BitVec.ofNat_eq_ofNat, BitVec.and_allOnes, BitVec.and_zero, true_and,
    and_true, w1Field_and_high_eq_zero_iff, w2Field_and_high_eq_zero_iff]
  constructor
  · rintro (op | ⟨op, unused⟩ | ⟨op, unused⟩ | ⟨op, unused⟩ | ⟨op, unused⟩ | ⟨op, unused⟩ |
      ⟨op, unused⟩ | ⟨op, unused⟩ | ⟨op, unused⟩ | ⟨op, unused⟩)
    exacts [⟨_, .set op⟩, ⟨_, .setrgb op unused⟩, ⟨_, .get op unused⟩, ⟨_, .blank op unused⟩,
      ⟨_, .rotate op unused⟩, ⟨_, .order op unused⟩, ⟨_, .render op unused⟩, ⟨_, .encode op unused⟩,
      ⟨_, .regcb op unused⟩, ⟨_, .start op unused⟩]
  · rintro ⟨i, hform⟩
    cases hform <;> simp [*]

theorem exists_decodeCommand_ok_iff {w : CommandWord} :
    (∃ i, decodeCommand w = .ok i) ↔ ∃ row ∈ commandRows, row.selects w = true := by
  simp only [exists_row_selects_iff, decodeCommand_ok_iff]

/-! ### At most one row selects a word -/

theorem opField_and (w mask : CommandWord) : opField (w &&& mask) = opField w &&& opField mask :=
  BitVec.extractLsb'_and

/-- Every row's mask covers `OP`, so a row selects words with its own `OP` only. -/
theorem opField_of_selects {row : Row} {w : CommandWord} (hrow : row ∈ commandRows)
    (h : row.selects w = true) : opField row.matchBits = opField w := by
  have hmask : ∀ row ∈ commandRows, opField row.mask = .allOnes 8 := by decide
  rw [← of_decide_eq_true h, opField_and, hmask row hrow, BitVec.and_allOnes]

/-- No two rows have the same `OP`. -/
theorem selecting_rows_length_le_one (w : CommandWord) :
    (commandRows.filter fun r => r.selects w).length ≤ 1 := by
  have hnodup : (commandRows.map fun r => opField r.matchBits).Nodup := by decide
  have hselecting := hnodup.sublist ((List.filter_sublist (p := fun r => r.selects w)).map _)
  have hsame : ∀ op ∈ (commandRows.filter fun r => r.selects w).map fun r => opField r.matchBits,
      op = opField w := by
    intro op hop
    obtain ⟨row, hrow, rfl⟩ := List.mem_map.1 hop
    obtain ⟨hmem, hselects⟩ := List.mem_filter.1 hrow
    exact opField_of_selects hmem hselects
  rwa [List.eq_replicate_of_mem hsame, List.nodup_replicate, List.length_map] at hselecting

theorem exists_row_selects_iff_length_eq_one {w : CommandWord} :
    (∃ row ∈ commandRows, row.selects w = true) ↔
      (commandRows.filter fun r => r.selects w).length = 1 := by
  have hle := selecting_rows_length_le_one w
  calc (∃ row ∈ commandRows, row.selects w = true)
    _ ↔ 0 < (commandRows.filter fun r => r.selects w).length := by
      simp [List.length_pos_iff_exists_mem]
    _ ↔ _ := by omega

/-! ### The words that no row selects -/

theorem decodeCommand_of_reservedOpcode {w : CommandWord}
    (h : opField w ∉ ([0x01, 0x02, 0x03, 0x04, 0x05, 0x06, 0x07, 0x08, 0x10, 0x11] : List (BitVec 8))) :
    decodeCommand w = .error .reservedOpcode := by
  simp only [List.mem_cons, List.not_mem_nil, or_false, not_or] at h
  simp only [decodeCommand, h, if_false]

/-- A word that does not decode is answered `IllegalCommand` (R67, R191). -/
theorem takeCommand_of_not_decodes {who : Issuer} {w : CommandWord} {s : State}
    (hfault : s.configFault = none) (h : ¬∃ i, decodeCommand w = .ok i) :
    takeCommand who w s = .next { s with
      issuer := who, trace := s.trace ++ [.resp who .illegalCommand (.command w)] } := by
  cases hdecode : decodeCommand w with
  | ok i => exact absurd ⟨i, hdecode⟩ h
  | error d => simp [takeCommand, hfault, hdecode, CommandError.status, CommandError.info]

/-- Settles O4: the rows differ in `OP`, their masks test what the decoder tests, and the port answers what
does not decode. -/
theorem commandDecodesIffExactlyOneRowSelects :
    Obligations.CommandDecodesIffExactlyOneRowSelects := by
  refine ⟨selecting_rows_length_le_one,
    fun w => exists_decodeCommand_ok_iff.trans exists_row_selects_iff_length_eq_one,
    decodeCommand_of_reservedOpcode (by decide), fun w => decodeCommand_of_reservedOpcode,
    fun w who s hfault hnone => takeCommand_of_not_decodes hfault ?_⟩
  rw [exists_decodeCommand_ok_iff, exists_row_selects_iff_length_eq_one, hnone]
  decide

end Sys2Proof.Laws
end

section
/-! The wire rows run alone, and the frame they assemble (spec/30_encoding.md R70 to R73, log 10). -/

namespace Sys2Proof.Laws

open Sys2Proof.Machine

/-! ### One row (R70 to R72) -/

/-- Byte 0 of an LED command as a number (R97). -/
theorem headerByte_toNat (h : BitVec 5) : (headerByte h).toNat = 224 + h.toNat :=
  append_toNat (0b111 : BitVec 3) h

/-- Settles O17: each row's meaning assembles the row's item, and byte 0 of the LED command is the marker
above the header field. -/
theorem wireRowsEmitTheirBytes : Obligations.WireRowsEmitTheirBytes :=
  fun _ => ⟨rfl, fun h _ _ _ => ⟨headerByte h, headerByte_toNat h, rfl⟩, rfl⟩

/-! ### Rows one after another (R73) -/

/-- Running the rows appends exactly the bytes to the frame under assembly. -/
def Assembles (rows : List Instr) (bytes : List Byte) : Prop :=
  ∀ s : State, runAll rows s = .next (assembleItem bytes s)

@[simp] theorem assembleItem_nil (s : State) : assembleItem [] s = s := by simp [assembleItem]

@[simp] theorem assembleItem_assembleItem (bs cs : List Byte) (s : State) :
    assembleItem cs (assembleItem bs s) = assembleItem (bs ++ cs) s := by simp [assembleItem]

theorem runAll_append_of_next {is js : List Instr} {s t : State} (h : runAll is s = .next t) :
    runAll (is ++ js) s = runAll js t := by
  induction is generalizing s with
  | nil => cases h; rfl
  | cons i is ih =>
    simp only [runAll] at h
    split at h
    · next u hu =>
      rw [List.cons_append, runAll, hu]
      exact ih h
    · cases h
    · cases h

theorem assembles_row {row : Instr} {item : List Byte}
    (h : ∀ s, exec row s = .next (assembleItem item s)) : Assembles [row] item := by
  intro s
  simp [runAll, h]

theorem Assembles.append {rows rows' : List Instr} {bytes bytes' : List Byte}
    (h : Assembles rows bytes) (h' : Assembles rows' bytes') :
    Assembles (rows ++ rows') (bytes ++ bytes') := by
  intro s
  rw [runAll_append_of_next (h s), h', assembleItem_assembleItem]

/-- One row for each member of a list. -/
theorem assembles_map {α : Type} {row : α → Instr} {item : α → List Byte}
    (h : ∀ a s, exec (row a) s = .next (assembleItem (item a) s)) (as : List α) :
    Assembles (as.map row) (as.map item).flatten := by
  induction as with
  | nil => exact fun s => by simp [runAll]
  | cons a as ih => exact (assembles_row (h a)).append ih

/-- The end padding is one row per item (R72). -/
theorem assembles_padding (n : Nat) : Assembles (List.replicate (padCount n) .endPad) (padding n) := by
  have hitems := assembles_map (row := fun _ => .endPad) (item := fun _ => endPadBytes)
    (fun _ _ => rfl) (List.replicate (padCount n) ())
  rwa [List.map_replicate, List.map_replicate] at hitems

/-- The LED command of a pixel is its encoding (R71, R91). -/
theorem assembles_ledCmds (c : Cfg) (ps : List Pixel) :
    Assembles (ps.map fun p => .ledCmd (ledFields c p).hdr (ledFields c p).x (ledFields c p).y
      (ledFields c p).z) (ps.map (encodePure c)).flatten :=
  assembles_map (fun _ _ => rfl) ps

theorem assembles_wireRows (c : Cfg) (ps : List Pixel) :
    Assembles (wireRows c ps) (assembleFrame (ps.map (encodePure c))) := by
  rw [wireRows, assembleFrame, List.length_map]
  exact ((assembles_row fun _ => rfl).append (assembles_ledCmds c ps)).append
    (assembles_padding ps.length)

/-- Settles O18: the start frame, the LED commands and the padding assemble their bytes in this order. -/
theorem wireRowsAssembleTheFrame : Obligations.WireRowsAssembleTheFrame :=
  fun c ps => assembles_wireRows c ps

end Sys2Proof.Laws
end

section
/-! The answer of a command (spec/30_encoding.md R69, spec/60_exceptions.md R181). -/

namespace Sys2Proof.Laws

open Sys2Proof.Machine

/-- One response to the issuer, and no other change when it is an error. -/
def AnswersOnce (s t : State) : Prop :=
  ∃ st p, t.trace = s.trace ++ [.resp s.issuer st p] ∧ (st ≠ .ok → t = { s with trace := t.trace })

theorem answersOnce_of_raise {e : CommandError} {s t : State} (h : raise e s = .next t) :
    AnswersOnce s t := by
  cases h
  exact ⟨e.status, e.info, rfl, fun _ => rfl⟩

/-- An `OK` response, whatever the command has changed but the trace and the issuer. -/
theorem answersOnce_respond_ok {s u : State} (p : Payload) (htrace : u.trace = s.trace)
    (hissuer : u.issuer = s.issuer) : AnswersOnce s (respond .ok p u) :=
  ⟨.ok, p, by rw [respond_trace, htrace, hissuer], fun h => absurd rfl h⟩

/-- The checks before a command answer once, or leave the answer to its body. -/
theorem answersOnce_or_body_of_guarded {cls : CommandClass} {s t : State} {body : Result}
    (h : guarded cls s body = .next t) : AnswersOnce s t ∨ body = .next t := by
  rcases guarded_cases cls s body with ⟨e, -, heq⟩ | ⟨-, -, heq⟩ | ⟨-, heq⟩
  · exact .inl (answersOnce_of_raise (heq.symm.trans h))
  · exact .inl (answersOnce_of_raise (heq.symm.trans h))
  · exact .inr (heq.symm.trans h)

theorem answersOnce_of_guarded {cls : CommandClass} {s t : State} {body : Result}
    (h : guarded cls s body = .next t) (hbody : body = .next t → AnswersOnce s t) : AnswersOnce s t :=
  (answersOnce_or_body_of_guarded h).elim id hbody

theorem answersOnce_of_guarded_respond {cls : CommandClass} {s t u : State} {p : Payload}
    (h : guarded cls s (.next (respond .ok p u)) = .next t) (htrace : u.trace = s.trace)
    (hissuer : u.issuer = s.issuer) : AnswersOnce s t :=
  answersOnce_of_guarded h fun hbody => by
    cases hbody
    exact answersOnce_respond_ok p htrace hissuer

theorem answersOnce_of_storePixel {i : Nat} {p : Pixel} {s t : State}
    (h : storePixel i p s = .next t) : AnswersOnce s t := by
  rcases storePixel_cases i p s with ⟨-, heq⟩ | ⟨-, heq⟩
  · cases heq.symm.trans h
    exact answersOnce_respond_ok .empty rfl rfl
  · exact answersOnce_of_raise (heq.symm.trans h)

/-- Every command but an accepted `START` answers once. -/
theorem exec_answersOnce {i : Instr} {s t : State} (hi : i.commandClass.isSome = true)
    (h : exec i s = .next t) :
    AnswersOnce s t ∨ (i = .start ∧ t = acceptStart (readClock s)) := by
  cases i with
  | set i r g b br => exact .inl (answersOnce_of_guarded h answersOnce_of_storePixel)
  | setrgb i x c br =>
    refine .inl (answersOnce_of_guarded h fun hbody => ?_)
    split at hbody
    · exact answersOnce_of_raise hbody
    · exact answersOnce_of_storePixel hbody
  | get i =>
    refine .inl (answersOnce_of_guarded h fun hbody => ?_)
    split at hbody
    · split at hbody <;> cases hbody
      exact answersOnce_respond_ok _ rfl rfl
    · exact answersOnce_of_raise hbody
  | render =>
    refine .inl (answersOnce_of_guarded h fun hbody => ?_)
    split at hbody
    · next r hr =>
      cases hbody
      obtain ⟨ps, -, -, hcache⟩ := renderChunks_some (cs := r.1) (t := r.2) hr
      exact answersOnce_respond_ok _ (by rw [hcache]) (by rw [hcache])
    · cases hbody
  | blank | rotate _ | order | encode _ _ _ _ | regcb _ =>
    exact .inl (answersOnce_of_guarded_respond h rfl rfl)
  | start =>
    refine (answersOnce_or_body_of_guarded h).imp id fun hbody => ?_
    cases hbody
    exact ⟨rfl, rfl⟩
  | startFrame | ledCmd _ _ _ _ | endPad | cancel => cases hi

/-- Settles O33: each command's checks and effect answer once, and an accepted `START` starts the run. -/
theorem commandsAnswerOnceAndErrorsChangeNothing :
    Obligations.CommandsAnswerOnceAndErrorsChangeNothing := by
  intro i s t hi h
  refine (exec_answersOnce hi h).imp id ?_
  rintro ⟨rfl, rfl⟩
  exact ⟨rfl, rfl, rfl⟩

end Sys2Proof.Laws
end

section
/-! The worked encodings and the wire orders (spec/30_encoding.md R75, R81). -/

namespace Sys2Proof.Laws

open Sys2Proof.Machine

/-- Settles O1: the decoder evaluated at the twelve words. -/
theorem workedEncodingsDecode : Obligations.WorkedEncodingsDecode := by
  unfold Obligations.WorkedEncodingsDecode
  decide

/-- The six packed values of the table are the bijections onto {1,2,3} (R22, R75). -/
theorem wireBijective_wireOfBits : ∀ v : BitVec 6, wireBijective (wireOfBits v) =
    decide (v ∈ ([0x1B, 0x1E, 0x27, 0x36, 0x2D, 0x39] : List (BitVec 6))) := by
  decide

theorem wireBits_wireOfBits (v : BitVec 6) : wireBits (wireOfBits v) = v := by
  apply BitVec.eq_of_toNat_eq
  have hbound := v.isLt
  simp only [wireBits, wireOfBits, append_toNat, BitVec.extractLsb'_toNat, Nat.shiftRight_eq_div_pow]
  omega

/-- A wire order that is no bijection is the error found, once `N` has passed its check (R191, R211). -/
theorem configError_of_not_wireBijective {c : Cfg} (hn : 0 < c.n)
    (hwire : wireBijective c.wire = false) : configError c = some .colorOrder := by
  simp [configError, hn.not_ge, hwire]

/-- Settles O11: the 64 packed values are checked one by one, and reset's check of `WIRE` follows. -/
theorem exactlySixWireOrdersAreLegal : Obligations.ExactlySixWireOrdersAreLegal := by
  refine ⟨wireBijective_wireOfBits, wireBits_wireOfBits, rfl, rfl, rfl, rfl, rfl, rfl,
    fun c v hn hwire hv => configError_of_not_wireBijective hn ?_⟩
  rw [hwire, wireBijective_wireOfBits, decide_eq_false hv]

end Sys2Proof.Laws
end

section
/-! One LED command: its header field, its colour values and where its bytes stand (spec/40_encoder.md
R91 to R98, R103). -/

namespace Sys2Proof.Laws

open Sys2Proof.Machine

/-! ### `clamp` (R8) -/

theorem clamp_eq_max_min {lo hi : Int} (hle : lo ≤ hi) (v : Int) :
    clamp v lo hi = max lo (min v hi) := by
  unfold clamp
  split_ifs <;> omega

theorem le_clamp {lo hi : Int} (hle : lo ≤ hi) (v : Int) : lo ≤ clamp v lo hi :=
  clamp_eq_max_min hle v ▸ le_max_left _ _

theorem clamp_le {lo hi : Int} (hle : lo ≤ hi) (v : Int) : clamp v lo hi ≤ hi :=
  clamp_eq_max_min hle v ▸ max_le hle (min_le_right _ _)

theorem clamp_mono {lo hi v w : Int} (hle : lo ≤ hi) (hvw : v ≤ w) : clamp v lo hi ≤ clamp w lo hi := by
  rw [clamp_eq_max_min hle, clamp_eq_max_min hle]
  exact max_le_max_left lo (min_le_min_right hi hvw)

/-- The value itself inside the bounds, the nearer bound outside. -/
theorem clamp_cases {lo hi : Int} (hle : lo ≤ hi) (v : Int) :
    (lo ≤ v → v ≤ hi → clamp v lo hi = v) ∧ (v < lo → clamp v lo hi = lo) ∧
    (hi < v → clamp v lo hi = hi) := by
  rw [clamp_eq_max_min hle]
  omega

/-! ### The header field (R92, R95) -/

/-- The header field of mode `H` as a function of the product `br * MAXB` (R92). -/
def scaledHeader (x : Int) : Int := clamp (ceilDiv (31 * x) 10000) 0 31

theorem headerField_viaHeader {c : Cfg} (hmode : c.mode = .scaleViaHeader) (p : Pixel) :
    headerField c p = scaledHeader (p.br * c.maxb) := by
  simp [headerField, hmode, scaledHeader, mul_assoc]

theorem headerField_viaColor {c : Cfg} (hmode : c.mode = .scaleViaColor) (p : Pixel) :
    headerField c p = 31 := by
  simp [headerField, hmode]

theorem ceilDiv_mono {a b d : Int} (hd : 0 < d) (hab : a ≤ b) : ceilDiv a d ≤ ceilDiv b d :=
  (ceilDiv_le_iff hd).2 (hab.trans (le_ceilDiv_mul hd))

theorem scaledHeader_mono {x y : Int} (hxy : x ≤ y) : scaledHeader x ≤ scaledHeader y :=
  clamp_mono (by norm_num) (ceilDiv_mono (by norm_num) (by omega))

theorem scaledHeader_nonneg (x : Int) : 0 ≤ scaledHeader x := le_clamp (by norm_num) _

theorem scaledHeader_le (x : Int) : scaledHeader x ≤ 31 := clamp_le (by norm_num) _

theorem one_le_scaledHeader {x : Int} (hx : 0 < x) : 1 ≤ scaledHeader x :=
  calc (1 : Int) = scaledHeader 1 := by decide
    _ ≤ scaledHeader x := scaledHeader_mono hx

theorem scaledHeader_of_nonpos {x : Int} (hx : x ≤ 0) : scaledHeader x = 0 :=
  le_antisymm ((scaledHeader_mono hx).trans_eq (by decide)) (scaledHeader_nonneg x)

theorem scaledHeader_of_full {x : Int} (hx : 10000 ≤ x) : scaledHeader x = 31 := by
  have hfull : scaledHeader 10000 = 31 := by decide
  exact le_antisymm (scaledHeader_le x) (hfull ▸ scaledHeader_mono hx)

theorem headerField_bounds (c : Cfg) (p : Pixel) : 0 ≤ headerField c p ∧ headerField c p ≤ 31 := by
  cases hmode : c.mode with
  | scaleViaHeader =>
    rw [headerField_viaHeader hmode]
    exact ⟨scaledHeader_nonneg _, scaledHeader_le _⟩
  | scaleViaColor => simp [headerField_viaColor hmode]

/-- Settles O7: the field grows with `br * MAXB`, so the products 1, 0 and 10000 bound it; the seven
values are computed. -/
theorem headerFieldOfScaleViaHeader : Obligations.HeaderFieldOfScaleViaHeader := by
  intro c p hmode
  refine ⟨by simp [headerField, hmode], ?_⟩
  rw [headerField_viaHeader hmode]
  refine ⟨one_le_scaledHeader, scaledHeader_of_nonpos, scaledHeader_of_full, fun hmaxb => ?_⟩
  rw [hmaxb]
  refine ⟨?_, ?_, ?_, ?_, ?_, ?_, ?_⟩ <;> (intro hbr; rw [hbr]; decide)

/-! ### The colour values (R93, R94, R96) -/

theorem colourValue_viaHeader {c : Cfg} (hmode : c.mode = .scaleViaHeader) (br v : Int) :
    colourValue c br v = clamp v 0 255 := by
  simp [colourValue, hmode]

theorem colourValue_viaColor {c : Cfg} (hmode : c.mode = .scaleViaColor) (br v : Int) :
    colourValue c br v = clamp (roundNearest c.roundTie (v * br * c.maxb) 10000) 0 255 := by
  simp [colourValue, hmode]

theorem colourValue_bounds (c : Cfg) (br v : Int) : 0 ≤ colourValue c br v ∧ colourValue c br v ≤ 255 := by
  unfold colourValue
  split <;> exact ⟨le_clamp (by norm_num) _, clamp_le (by norm_num) _⟩

/-- Settles O9: both modes clamp last; what mode `C` clamps is the nearest integer under the tie rule. -/
theorem colourValuesOfTheTwoModes : Obligations.ColourValuesOfTheTwoModes := by
  intro c br v
  constructor
  · intro hmode
    rw [colourValue_viaHeader hmode]
    exact clamp_cases (by norm_num) v
  · intro hmode
    rw [colourValue_viaColor hmode]
    obtain ⟨hnear, htie⟩ :=
      roundingPrimitivesAreExact.2 c.roundTie (v * br * c.maxb) 10000 (by norm_num)
    exact ⟨_, hnear, htie, clamp_cases (by norm_num) _⟩

/-! ### The four bytes (R97, R98) -/

/-- A value that fits is stored as it is. -/
theorem toNat_ofInt_of_fits {w : Nat} {v : Int} (hlo : 0 ≤ v) (hhi : v < 2 ^ w) :
    ((BitVec.ofInt w v).toNat : Int) = v := by
  rw [BitVec.toNat_ofInt, Int.toNat_of_nonneg (Int.emod_nonneg _ (by positivity))]
  exact Int.emod_eq_of_lt hlo (by exact_mod_cast hhi)

theorem wireBijective_iff (w : WireOrder) : wireBijective w = true ↔
    (w.posR ≠ 0 ∧ w.posG ≠ 0 ∧ w.posB ≠ 0) ∧
    w.posR ≠ w.posG ∧ w.posR ≠ w.posB ∧ w.posG ≠ w.posB := by
  simp [wireBijective, and_assoc]

theorem encodePure_head? (c : Cfg) (p : Pixel) :
    (encodePure c p).head? = some (headerByte (BitVec.ofInt 5 (headerField c p))) := rfl

/-- A byte at a position 1 to 3 is the colour placed there (R98). -/
theorem encodePure_at_position (c : Cfg) (p : Pixel) {k : BitVec 2} (hk : k ≠ 0) :
    (encodePure c p)[k.toNat]? = some (BitVec.ofInt 8 (colourAt c.wire k
      (colourValue c p.br p.r) (colourValue c p.br p.g) (colourValue c p.br p.b))) := by
  have hpos : k = 1 ∨ k = 2 ∨ k = 3 := by
    revert k
    decide
  rcases hpos with rfl | rfl | rfl <;> rfl

/-- The byte at a position 1 to 3 that holds the colour field `v`. -/
theorem encodePure_byte_of_colourAt {c : Cfg} {p : Pixel} {k : BitVec 2} {v : Int} (hk : k ≠ 0)
    (hat : colourAt c.wire k (colourValue c p.br p.r) (colourValue c p.br p.g)
      (colourValue c p.br p.b) = colourValue c p.br v) :
    (encodePure c p)[k.toNat]?.map (fun b => (b.toNat : Int)) = some (colourValue c p.br v) := by
  obtain ⟨hlo, hhi⟩ := colourValue_bounds c p.br v
  rw [encodePure_at_position c p hk, hat, Option.map_some,
    toNat_ofInt_of_fits hlo (by norm_num; omega)]

theorem encodePure_byte_zero (c : Cfg) (p : Pixel) :
    (encodePure c p)[0]?.map (fun b => (b.toNat : Int)) = some (224 + headerField c p) := by
  obtain ⟨hlo, hhi⟩ := headerField_bounds c p
  rw [← List.head?_eq_getElem?, encodePure_head?, Option.map_some, headerByte_toNat, Nat.cast_add,
    toNat_ofInt_of_fits hlo (by norm_num; omega)]
  rfl

/-- Settles O8: every value fits its field, and with a bijective `WIRE` no assignment overwrites another. -/
theorem ledCommandHoldsHeaderAndPlacedColours :
    Obligations.LedCommandHoldsHeaderAndPlacedColours := by
  intro c p hwire
  obtain ⟨⟨hr, hg, hb⟩, hrg, hrb, hgb⟩ := (wireBijective_iff c.wire).1 hwire
  obtain ⟨hlo, hhi⟩ := headerField_bounds c p
  refine ⟨rfl, encodePure_byte_zero c p, hlo, hhi, encodePure_byte_of_colourAt hr ?_,
    encodePure_byte_of_colourAt hg ?_, encodePure_byte_of_colourAt hb ?_, colourValue_bounds c p.br⟩
  · simp [colourAt, hrb.symm, hrg.symm]
  · simp [colourAt, hgb.symm]
  · simp [colourAt]

/-! ### Brightness 0, full scale and the black pixel (R103) -/

theorem encodePure_congr {c d : Cfg} {p q : Pixel} (hwire : c.wire = d.wire)
    (hheader : headerField c p = headerField d q)
    (hr : colourValue c p.br p.r = colourValue d q.br q.r)
    (hg : colourValue c p.br p.g = colourValue d q.br q.g)
    (hb : colourValue c p.br p.b = colourValue d q.br q.b) : encodePure c p = encodePure d q := by
  simp only [encodePure, ledFields, hwire, hheader, hr, hg, hb]

/-- With all three colour values 0 the placement does not matter. -/
theorem encodePure_of_colours_zero {c : Cfg} {p : Pixel} (hr : colourValue c p.br p.r = 0)
    (hg : colourValue c p.br p.g = 0) (hb : colourValue c p.br p.b = 0) :
    encodePure c p = [headerByte (BitVec.ofInt 5 (headerField c p)), 0, 0, 0] := by
  simp [encodePure, ledFields, ledBytes, colourAt, hr, hg, hb]

/-- An exact quotient is not rounded. -/
theorem roundNearest_mul_right (tie : RoundTie) (v : Int) {d : Int} (hd : 0 < d) :
    roundNearest tie (v * d) d = v := by
  simp [roundNearest, hd, hd.ne']

theorem colourValue_viaColor_dark {c : Cfg} (hmode : c.mode = .scaleViaColor) (v : Int) :
    colourValue c 0 v = 0 := by
  have hzero : roundNearest c.roundTie 0 10000 = 0 := by
    simpa using roundNearest_mul_right c.roundTie 0 (d := 10000) (by norm_num)
  rw [colourValue_viaColor hmode, mul_zero, zero_mul, hzero]
  rfl

theorem colourValue_viaColor_full {c : Cfg} (hmode : c.mode = .scaleViaColor) (hmaxb : c.maxb = 100)
    (v : Int) : colourValue c 100 v = clamp v 0 255 := by
  have hscale : v * 100 * 100 = v * 10000 := by ring
  rw [colourValue_viaColor hmode, hmaxb, hscale, roundNearest_mul_right _ _ (by norm_num)]

theorem headerField_viaHeader_dark {c : Cfg} {p : Pixel} (hmode : c.mode = .scaleViaHeader)
    (hbr : p.br = 0) : headerField c p = 0 := by
  rw [headerField_viaHeader hmode, hbr, zero_mul]
  exact scaledHeader_of_nonpos le_rfl

theorem encodePure_viaColor_dark {c : Cfg} {p : Pixel} (hmode : c.mode = .scaleViaColor)
    (hbr : p.br = 0) : encodePure c p = [0xFF, 0, 0, 0] := by
  have hdark (v : Int) : colourValue c p.br v = 0 := hbr ▸ colourValue_viaColor_dark hmode v
  rw [encodePure_of_colours_zero (hdark _) (hdark _) (hdark _), headerField_viaColor hmode]
  rfl

/-- A maximum brightness of 0 acts on every pixel as brightness 0. -/
theorem encodePure_maxb_zero (c : Cfg) (p : Pixel) :
    encodePure { c with maxb := 0 } p = encodePure c { p with br := 0 } := by
  have hcolour (v : Int) : colourValue { c with maxb := 0 } p.br v = colourValue c 0 v := by
    simp [colourValue]
  exact encodePure_congr rfl (by simp [headerField]) (hcolour _) (hcolour _) (hcolour _)

theorem encodePure_blackOff_viaHeader {c : Cfg} (hmode : c.mode = .scaleViaHeader) :
    encodePure c Pixel.blackOff = [0xE0, 0, 0, 0] := by
  have hblack : colourValue c 0 0 = 0 := colourValue_viaHeader hmode 0 0
  rw [encodePure_of_colours_zero hblack hblack hblack, headerField_viaHeader_dark hmode rfl]
  rfl

/-- Settles O10: the list of R103, one lemma per item. -/
theorem encoderPropertiesForChecking : Obligations.EncoderPropertiesForChecking := by
  refine ⟨fun c p hmode hbr => ?_, fun c p => encodePure_viaColor_dark, encodePure_maxb_zero,
    fun c v hmode hmaxb => colourValue_viaColor_full hmode hmaxb v,
    fun c d p q hc hd hle => ?_, fun c => ?_⟩
  · have hdark := headerField_viaHeader_dark hmode hbr
    exact ⟨hdark, by rw [encodePure_head?, hdark]; rfl⟩
  · rw [headerField_viaHeader hc, headerField_viaHeader hd]
    exact scaledHeader_mono hle
  · cases hmode : c.mode with
    | scaleViaHeader => exact encodePure_blackOff_viaHeader hmode
    | scaleViaColor => exact encodePure_viaColor_dark hmode rfl

end Sys2Proof.Laws
end

section
/-! `ENCODE` through the cache (spec/40_encoder.md R90, R100, spec/10_state.md R38). -/

namespace Sys2Proof.Laws

open Sys2Proof.Machine

/-- The entry used is the most recent one (log 9). -/
theorem use_head? {cap : Nat} (hcap : 1 ≤ cap) (p : Pixel) (bs : List Byte) (cache : Cache) :
    (cache.use cap p bs).head? = some (p, bs) := by
  simp [Cache.use, List.head?_take, Nat.one_le_iff_ne_zero.1 hcap]

/-- A ready `ENCODE` answers the cached encoding and stores the cache after its use. -/
theorem exec_encode_of_ready (r g b br : Int) {s : State} (hready : Ready .buffer s) :
    exec (.encode r g b br) s = .next (respond .ok
      (.led (encodeCached s.cfg (cacheCapacity s.cfg) ⟨r, g, b, br⟩ s.cache).1)
      { s with cache := (encodeCached s.cfg (cacheCapacity s.cfg) ⟨r, g, b, br⟩ s.cache).2 }) :=
  guarded_ready hready _

/-- Settles O15: with a sound cache the stored bytes are those `encode_pure` computes. -/
theorem encodeAnswersEncodePure : Obligations.EncodeAnswersEncodePure := by
  intro r g b br s hs hready
  obtain ⟨hpure, hsound, hbound⟩ :=
    encodeCached_sound (cap := cacheCapacity s.cfg) (p := ⟨r, g, b, br⟩) hs
  refine ⟨_, exec_encode_of_ready r g b br hready, ?_, hsound, hbound, fun hcap => ?_⟩
  · rw [hpure]
    rfl
  · rw [← hpure]
    exact use_head? hcap _ _ _

end Sys2Proof.Laws
end

section
/-! A frame cut into chunks (spec/41_buffer.md R118). -/

namespace Sys2Proof.Laws

open Sys2Proof.Machine

/-- The defining property of the least count not below `a / d`, in the naturals. -/
theorem ceilDivNat_le_iff {a d q : Nat} (hd : 0 < d) : ceilDivNat a d ≤ q ↔ a ≤ q * d := by
  rw [ceilDivNat, Int.toNat_le, ceilDiv_le_iff (by exact_mod_cast hd)]
  exact_mod_cast Iff.rfl

/-- A quotient of counts is rounded up to a count. -/
theorem ceilDivNat_cast {a d : Nat} (hd : 0 < d) : (ceilDivNat a d : Int) = ceilDiv a d := by
  have hle : (a : Int) ≤ ceilDiv a d * d := le_ceilDiv_mul (by exact_mod_cast hd)
  exact Int.toNat_of_nonneg (nonneg_of_mul_nonneg_left ((Int.natCast_nonneg a).trans hle)
    (by exact_mod_cast hd))

/-- The piece of `f` that chunk `t` is: `F[t*m .. min((t+1)*m, L))`. -/
def chunkAt (m : Nat) (f : List Byte) (t : Nat) : List Byte := (f.drop (t * m)).take m

theorem chunks_eq_map_chunkAt (m : Nat) (f : List Byte) :
    chunks m f = (List.range (ceilDivNat f.length m)).map (chunkAt m f) := rfl

/-- The first `q` pieces join to the first `q * m` bytes. -/
theorem flatten_map_chunkAt (m : Nat) (f : List Byte) (q : Nat) :
    ((List.range q).map (chunkAt m f)).flatten = f.take (q * m) := by
  induction q with
  | zero => simp
  | succ q ih => simp [List.range_succ, ih, chunkAt, Nat.succ_mul, List.take_add]

theorem chunkAt_length_of_full {m : Nat} {f : List Byte} {t : Nat} (h : (t + 1) * m ≤ f.length) :
    (chunkAt m f t).length = m := by
  rw [Nat.succ_mul] at h
  simp only [chunkAt, List.length_take, List.length_drop]
  omega

/-- A frame that is not empty is cut into full pieces and one last piece, the rest of it. -/
theorem exists_chunks_eq {m : Nat} {f : List Byte} (hm : 1 ≤ m) (hf : 1 ≤ f.length) :
    ∃ q, q * m < f.length ∧ f.length ≤ q * m + m ∧
      chunks m f = (List.range q).map (chunkAt m f) ++ [f.drop (q * m)] := by
  have hcount (q : Nat) : ceilDivNat f.length m ≤ q ↔ f.length ≤ q * m := ceilDivNat_le_iff hm
  have hpos : ceilDivNat f.length m ≠ 0 := fun hzero => by
    have := (hcount 0).1 hzero.le
    omega
  obtain ⟨q, hq⟩ := Nat.exists_eq_succ_of_ne_zero hpos
  have hlow : q * m < f.length := not_le.1 fun hle => by
    have := (hcount q).2 hle
    omega
  have hhigh : f.length ≤ q * m + m := Nat.succ_mul q m ▸ (hcount (q + 1)).1 hq.le
  have hlast : chunkAt m f q = f.drop (q * m) :=
    List.take_of_length_le (by rw [List.length_drop]; omega)
  refine ⟨q, hlow, hhigh, ?_⟩
  rw [chunks_eq_map_chunkAt, hq, List.range_succ, List.map_append, List.map_singleton, hlast]

/-- Settles O12: the pieces before the last are full and join to the start of the frame, and the last is
what is left of it. -/
theorem chunksCutTheFrameExactly : Obligations.ChunksCutTheFrameExactly := by
  intro m f hm hf
  obtain ⟨q, hlow, hhigh, hchunks⟩ := exists_chunks_eq hm hf
  have hlast : (f.drop (q * m)).length = f.length - q * m := List.length_drop
  have hfull : ∀ ch ∈ (List.range q).map (chunkAt m f), ch.length = m := by
    rw [List.forall_mem_map]
    intro t ht
    have hstep : (t + 1) * m ≤ q * m := Nat.mul_le_mul_right m (List.mem_range.1 ht)
    exact chunkAt_length_of_full (hstep.trans hlow.le)
  refine ⟨?_, ?_, ?_, ?_, ?_, fun hfits => ?_⟩
  · rw [hchunks, List.flatten_append, flatten_map_chunkAt, List.flatten_singleton,
      List.take_append_drop]
  · rw [chunks_eq_map_chunkAt, List.length_map, List.length_range, ceilDivNat_cast hm]
  · rw [hchunks]
    intro ch hch
    rcases List.mem_append.1 hch with hbefore | hend
    · have := hfull ch hbefore
      omega
    · rw [List.mem_singleton.1 hend]
      omega
  · rwa [hchunks, List.dropLast_concat]
  · simp [hchunks]
  · have hzero : q = 0 := by
      by_contra hne
      have := Nat.le_mul_of_pos_left m (Nat.pos_of_ne_zero hne)
      omega
    simp [hchunks, hzero]

end Sys2Proof.Laws
end

section
/-! `RENDER` against the frame computed without the cache (spec/41_buffer.md R116, R117). -/

namespace Sys2Proof.Laws

open Sys2Proof.Machine

/-- A ready `RENDER` whose slots exist answers the chunks of their pure frame and stores the cache after
encoding them. -/
theorem exec_render_of_readAll {s : State} {ps : List Pixel} (hready : Ready .buffer s)
    (hsound : cacheSound s) (hps : Memory.readAll s.buf s.ord = some ps) :
    exec .render s = .next (respond .ok
      (.chunks (chunks (chunkMax s.cfg) (assembleFrame (ps.map (encodePure s.cfg)))))
      { s with cache := (encodeAll s.cfg (cacheCapacity s.cfg) ps s.cache).2 }) := by
  refine (guarded_ready hready _).trans ?_
  rw [renderChunks_of_sound hsound, hps]
  rfl

/-- Settles O14: under the invariant the pure frame exists at its exact length, and the cache is sound. -/
theorem renderAnswersThePureFrame : Obligations.RenderAnswersThePureFrame := by
  intro s h hready
  obtain ⟨f, hframe, hlength, -⟩ := frameAddressMap s h hready.1
  obtain ⟨ps, hps, rfl⟩ := Option.map_eq_some_iff.1 hframe
  obtain ⟨-, hsound, -⟩ := encodeAll_sound (ps := ps) h.cacheSound h.cacheBounded
  exact ⟨_, _, hframe, exec_render_of_readAll hready h.cacheSound hps, rfl, hlength, hsound⟩

end Sys2Proof.Laws
end

section
/-! `ROTATE` and its way back (spec/41_buffer.md R114). -/

namespace Sys2Proof.Laws

open Sys2Proof.Machine

/-! ### The buffer rotated -/

/-- A rotation to higher slots by `n` is the library's, to lower ones, by the rest of the length. -/
theorem rotate_eq_list_rotate {m : Memory} (n : Nat) :
    m.rotate n = List.rotate m (m.length - n) :=
  (List.rotate_eq_drop_append_take (Nat.sub_le _ _)).symm

theorem read_rotate {m : Memory} {n i : Nat} (hn : n ≤ m.length) (hi : i < m.length) :
    (m.rotate n).read ((i + n) % m.length) = m.read i := by
  have hback : ((i + n) % m.length + (m.length - n)) % m.length = i := by
    rw [Nat.mod_add_mod, Nat.add_assoc, Nat.add_sub_cancel' hn, Nat.add_mod_right, Nat.mod_eq_of_lt hi]
  rw [Memory.read, rotate_eq_list_rotate,
    List.getElem?_rotate (Nat.mod_lt _ (Nat.zero_lt_of_lt hi)), hback, Memory.read]

@[simp] theorem rotate_zero (m : Memory) : m.rotate 0 = m := by simp [Memory.rotate]

theorem rotate_rotate_of_dvd {m : Memory} {n k : Nat} (hn : n ≤ m.length) (hk : k ≤ m.length)
    (hdvd : m.length ∣ n + k) : (m.rotate n).rotate k = m := by
  have hround : m.length ∣ (m.length - n) + (m.length - k) := by
    have hsum : (m.length - n) + (m.length - k) = (m.length + m.length) - (n + k) := by omega
    exact hsum ▸ Nat.dvd_sub (Dvd.intro_left 2 (by omega)) hdvd
  obtain ⟨q, hq⟩ := hround
  rw [rotate_eq_list_rotate k, rotate_length, rotate_eq_list_rotate, List.rotate_rotate, hq,
    List.rotate_length_mul]

/-! ### The shift -/

theorem rotateShift_cast {c : Cfg} (hpos : 0 < leds c) (k : Int) :
    (rotateShift c k : Int) = rotateFactor c * k % leds c :=
  Int.toNat_of_nonneg (Int.emod_nonneg _ (by omega))

theorem rotateShift_lt {c : Cfg} (hpos : 0 < leds c) (k : Int) : rotateShift c k < leds c := by
  have hlt : rotateFactor c * k % leds c < leds c := Int.emod_lt_of_pos _ (by omega)
  rw [← rotateShift_cast hpos] at hlt
  omega

/-- `d * k` by the direction `d`. -/
theorem rotateFactor_mul (c : Cfg) (k : Int) :
    rotateFactor c * k = match c.rotateDir with | .plusOne => k | .minusOne => -k := by
  unfold rotateFactor
  cases c.rotateDir <;> simp

theorem rotateShift_of_multiple (c : Cfg) (m : Int) : rotateShift c (m * leds c) = 0 := by
  simp [rotateShift, ← mul_assoc]

theorem dvd_rotateShift_add_neg {c : Cfg} (hpos : 0 < leds c) (k : Int) :
    leds c ∣ rotateShift c k + rotateShift c (-k) := by
  have hzero : rotateFactor c * k + rotateFactor c * -k = 0 := by ring
  refine Int.natCast_dvd_natCast.1 (Int.dvd_of_emod_eq_zero ?_)
  rw [Nat.cast_add, rotateShift_cast hpos, rotateShift_cast hpos, ← Int.add_emod, hzero, Int.zero_emod]

/-! ### The command -/

theorem exec_rotate_of_ready (k : Int) {s : State} (hready : Ready .buffer s) :
    exec (.rotate k) s = .next (respond .ok .empty
      { s with buf := s.buf.rotate (rotateShift s.cfg k) }) :=
  guarded_ready hready _

/-- Settles O27: slot `i` of the old buffer is read at `(i + d*k) mod N` of the rotated one. -/
theorem rotateMovesEverySlot : Obligations.RotateMovesEverySlot := by
  intro k s hready hwf hpos
  have hlength : s.buf.length = leds s.cfg := (wf_iff _ _).1 hwf
  refine ⟨_, exec_rotate_of_ready k hready, rotate_length _ _, fun i j hi _ hj => ?_, rfl⟩
  have hplace : j = (i + rotateShift s.cfg k) % s.buf.length := by
    rw [hlength]
    zify
    rw [rotateShift_cast hpos, Int.add_emod_emod, rotateFactor_mul]
    exact hj
  have hle : rotateShift s.cfg k ≤ s.buf.length := hlength ▸ (rotateShift_lt hpos k).le
  rw [hplace]
  exact read_rotate hle (hlength ▸ hi)

/-- Settles O28: the two shifts add to a multiple of N, and the shift of a multiple of N is 0. -/
theorem rotateBackRestoresTheBuffer : Obligations.RotateBackRestoresTheBuffer := by
  intro k s hready hwf hpos
  have hlength : s.buf.length = leds s.cfg := (wf_iff _ _).1 hwf
  have hle (k : Int) : rotateShift s.cfg k ≤ s.buf.length := hlength ▸ (rotateShift_lt hpos k).le
  refine ⟨⟨_, _, exec_rotate_of_ready k hready, exec_rotate_of_ready (-k) hready, ?_⟩, ?_⟩
  · exact rotate_rotate_of_dvd (hle k) (hle (-k)) (hlength ▸ dvd_rotateShift_add_neg hpos k)
  · rintro m rfl
    refine ⟨_, exec_rotate_of_ready _ hready, ?_⟩
    rw [respond_buf, rotateShift_of_multiple, rotate_zero]

end Sys2Proof.Laws
end

section
/-! No instruction reaches the transport (spec/41_buffer.md R110, R116, spec/42_scheduler.md R161). -/

namespace Sys2Proof.Laws

open Sys2Proof.Machine

/-- What the trace has grown by is no transport event. -/
def SendsNothing (s t : State) : Prop :=
  ∃ es, t.trace = s.trace ++ es ∧ ∀ e ∈ es, e.onTransport = false

theorem sendsNothing_of_same {s t : State} (h : t.trace = s.trace) : SendsNothing s t :=
  ⟨[], by simp [h], nofun⟩

/-- A response goes to the issuer, not to the transport (R52). -/
theorem sendsNothing_of_resp {s t : State} {who : Issuer} {st : Status} {p : Payload}
    (h : t.trace = s.trace ++ [.resp who st p]) : SendsNothing s t :=
  ⟨_, h, List.forall_mem_singleton.2 rfl⟩

/-- An instruction appends one response or nothing. -/
theorem ExecEffect.sendsNothing {s t : State} (h : ExecEffect s t) : SendsNothing s t := by
  cases h with
  | answered _ _ ht => subst ht; exact sendsNothing_of_resp rfl
  | stored _ _ _ ht => subst ht; exact sendsNothing_of_resp rfl
  | encoded _ _ ht => subst ht; exact sendsNothing_of_resp rfl
  | rendered _ _ _ _ ht => subst ht; exact sendsNothing_of_resp rfl
  | registered _ _ ht => subst ht; exact sendsNothing_of_resp rfl
  | started _ ht => subst ht; exact sendsNothing_of_same rfl
  | assembled _ ht => subst ht; exact sendsNothing_of_same rfl
  | cancelled _ _ ht => subst ht; exact sendsNothing_of_same rfl
  | ignored ht => subst ht; exact sendsNothing_of_same rfl

/-- Settles O57, by the inversion of the dispatch. -/
theorem instructionsNeverTouchTheTransport : Obligations.InstructionsNeverTouchTheTransport :=
  fun _ _ _ h => (exec_effect h).sendsNothing

end Sys2Proof.Laws
end

section
/-! The commands on single slots, `BLANK` and `ORDER` (spec/41_buffer.md R110 to R113, R115). -/

namespace Sys2Proof.Laws

open Sys2Proof.Machine

/-! ### The store shared by `SET` and `SETRGB` (R110) -/

theorem storePixel_of_lt {i : Nat} (p : Pixel) {s : State} (hi : i < leds s.cfg) :
    storePixel i p s = .next (respond .ok .empty { s with buf := s.buf.write i p }) := if_pos hi

theorem storePixel_of_le {i : Nat} (p : Pixel) {s : State} (hi : leds s.cfg ≤ i) :
    storePixel i p s = .next { s with trace := s.trace ++ [.resp s.issuer .indexError (.index i)] } :=
  if_neg hi.not_gt

/-- A store inside [0,N): the slot, the other slots, and the frame of the rest. -/
theorem storePixel_stores {i : Nat} (p : Pixel) {s : State} (hwf : Memory.wf (leds s.cfg) s.buf = true)
    (hi : i < leds s.cfg) :
    ∃ t, storePixel i p s = .next t ∧ t.buf.read i = some p ∧
      (∀ j, j ≠ i → t.buf.read j = s.buf.read j) ∧
      t = { s with buf := t.buf, trace := s.trace ++ [.resp s.issuer .ok .empty] } :=
  ⟨_, storePixel_of_lt p hi, read_write_same ((wf_iff _ _).1 hwf ▸ hi) p,
    fun _ hj => read_write_other hj p, rfl⟩

/-! ### `SET` (R110) -/

theorem exec_set_of_ready (i : Nat) (r g b br : Int) {s : State} (hready : Ready .buffer s) :
    exec (.set i r g b br) s = storePixel i ⟨r, g, b, br⟩ s := guarded_ready hready _

/-- Settles O23: a ready `SET` is the store of its pixel. -/
theorem setStoresOneSlot : Obligations.SetStoresOneSlot := by
  intro i r g b br s hready hwf
  rw [exec_set_of_ready i r g b br hready]
  exact ⟨storePixel_stores _ hwf, storePixel_of_le _⟩

/-! ### `SETRGB` (R111, R65) -/

/-- Each colour of a packed colour is a byte, and the three make up the packed colour. -/
theorem exists_bytes_of_packed (c : BitVec 24) (br : Int) :
    ∃ r g b : Nat, r ≤ 255 ∧ g ≤ 255 ∧ b ≤ 255 ∧ c.toNat = 65536 * r + 256 * g + b ∧
      packedPixel c br = ⟨r, g, b, br⟩ := by
  have hr := (c.extractLsb' 16 8).isLt
  have hg := (c.extractLsb' 8 8).isLt
  have hb := (c.extractLsb' 0 8).isLt
  refine ⟨(c.extractLsb' 16 8).toNat, (c.extractLsb' 8 8).toNat, (c.extractLsb' 0 8).toNat,
    by omega, by omega, by omega, ?_, rfl⟩
  have hc := c.isLt
  simp only [BitVec.extractLsb'_toNat, Nat.shiftRight_eq_div_pow]
  omega

theorem exec_setrgb_of_fits (i : Nat) (c : BitVec 24) (br : Int) {s : State}
    (hready : Ready .buffer s) : exec (.setrgb i 0 c br) s = storePixel i (packedPixel c br) s :=
  guarded_ready hready _

theorem exec_setrgb_of_malformed (i : Nat) {x : BitVec 8} (c : BitVec 24) (br : Int) {s : State}
    (hready : Ready .buffer s) (hx : x ≠ 0) : exec (.setrgb i x c br) s =
      .next { s with trace := s.trace ++ [.resp s.issuer .valueError (.word1 (x ++ c))] } :=
  (guarded_ready hready _).trans (if_pos (decide_eq_true hx))

/-- Settles O24: a colour that fits is stored decomposed, one that does not is answered before the index
is looked at. -/
theorem setrgbStoresTheDecomposedColour : Obligations.SetrgbStoresTheDecomposedColour := by
  intro i x c br s hready hwf
  refine ⟨?_, exec_setrgb_of_malformed i c br hready, ?_⟩
  · rintro rfl hi
    obtain ⟨r, g, b, hr, hg, hb, hsum, hpixel⟩ := exists_bytes_of_packed c br
    obtain ⟨t, hstore, hslots⟩ := storePixel_stores (packedPixel c br) hwf hi
    rw [hpixel] at hslots
    exact ⟨t, r, g, b, hr, hg, hb, hsum, (exec_setrgb_of_fits i c br hready).trans hstore, hslots⟩
  · rintro rfl hi
    exact (exec_setrgb_of_fits i c br hready).trans (storePixel_of_le _ hi)

/-! ### `GET` (R112) -/

theorem exec_get_of_read {i : Nat} {p : Pixel} {s : State} (hready : Ready .buffer s)
    (hi : i < leds s.cfg) (hp : s.buf.read i = some p) :
    exec (.get i) s = .next { s with trace := s.trace ++ [.resp s.issuer .ok (.pixel p)] } := by
  refine (guarded_ready hready _).trans ((if_pos hi).trans ?_)
  rw [hp]
  rfl

theorem exec_get_of_le {i : Nat} {s : State} (hready : Ready .buffer s) (hi : leds s.cfg ≤ i) :
    exec (.get i) s = .next { s with trace := s.trace ++ [.resp s.issuer .indexError (.index i)] } :=
  (guarded_ready hready _).trans (if_neg hi.not_gt)

/-- Settles O25: inside [0,N) the slot exists, as the buffer has N slots. -/
theorem getAnswersTheSlotAsStored : Obligations.GetAnswersTheSlotAsStored := by
  intro i s hready hwf
  refine ⟨fun hi => ?_, exec_get_of_le hready⟩
  have hp := read_of_lt (m := s.buf) ((wf_iff _ _).1 hwf ▸ hi)
  exact ⟨_, hp, exec_get_of_read hready hi hp⟩

/-! ### `BLANK` (R113) and `ORDER` (R115) -/

theorem exec_blank_of_ready {s : State} (hready : Ready .buffer s) :
    exec .blank s = .next (respond .ok .empty { s with buf := s.buf.blank }) :=
  guarded_ready hready _

theorem read_blank_of_le {m : Memory} {i : Nat} (h : m.length ≤ i) : m.blank.read i = none :=
  List.getElem?_eq_none (by rwa [blank_length])

/-- Settles O26: the blank buffer is black in each of its N slots and has no other. -/
theorem blankClearsEverySlot : Obligations.BlankClearsEverySlot := by
  intro s hready hwf
  have hlength : s.buf.length = leds s.cfg := (wf_iff _ _).1 hwf
  exact ⟨_, exec_blank_of_ready hready, fun i hi => read_blank (hlength ▸ hi),
    fun i hi => read_blank_of_le (hlength ▸ hi), rfl⟩

theorem exec_order_of_ready {s : State} (hready : Ready .buffer s) :
    exec .order s = .next { s with trace := s.trace ++ [.resp s.issuer .ok (.order s.ord)] } :=
  guarded_ready hready _

/-- Settles O29: the answer is `ORD`, which the invariant keeps as reset computed it. -/
theorem orderAnswersTheConfiguredOrder : Obligations.OrderAnswersTheConfiguredOrder := by
  intro s h hready
  rw [exec_order_of_ready hready, h.orderKept hready.1]

end Sys2Proof.Laws
end

section
/-! Set-up, start and cancellation (spec/42_scheduler.md R141, R142, R164). -/

namespace Sys2Proof.Laws

open Sys2Proof.Machine

/-- A set-up command outside `Idle`, or from a hook or callback, answers `IllegalState` (R186). -/
theorem guarded_setup_illegal {s : State} (hfault : s.configFault = none)
    (hnot : s.sched ≠ .idle ∨ s.issuer = .agent) (body : Result) :
    guarded .setup s body =
      .next { s with trace := s.trace ++ [.resp s.issuer .illegalState (.sched s.sched)] } := by
  have hmay : mayIssue .setup s = false := by
    cases hwho : s.issuer with
    | host => simpa [mayIssue, hwho] using hnot
    | agent => simp [mayIssue, hwho]
  rw [guarded_illegal hfault hmay]
  rfl

/-- In configuration fault every command answers what reset found (R213). -/
theorem guarded_configFault {s : State} {e : ConfigError} (hfault : s.configFault = some e)
    (cls : CommandClass) (body : Result) :
    guarded cls s body =
      .next { s with trace := s.trace ++ [.resp s.issuer .configurationError (.config e)] } := by
  simp [guarded, hfault, CommandError.status, CommandError.info]

/-- Settles O30: by the checks before a set-up command. -/
theorem regcbAppendsInIdleOnly : Obligations.RegcbAppendsInIdleOnly :=
  fun _ _ hfault =>
    ⟨fun hidle hhost => guarded_ready (ready_setup_iff.2 ⟨hfault, hhost, hidle⟩) _,
      fun hnot => guarded_setup_illegal hfault hnot _⟩

/-- Settles O31: an accepted `START` is `acceptStart` on the clock as read now. -/
theorem startIsAcceptedInIdleOnly : Obligations.StartIsAcceptedInIdleOnly :=
  fun s =>
    ⟨fun hready => ⟨acceptStart (readClock s), guarded_ready hready _, Nat.le_add_right _ _, rfl⟩,
      fun hfault hnot => guarded_setup_illegal hfault hnot _,
      fun _ hfault => guarded_configFault hfault _ _⟩

/-- A latched `CANCEL` leaves no wait (R164). -/
theorem exec_cancel_of_run {s : State} (hrun : runInProgress s.sched = true)
    (hfault : s.configFault = none) :
    exec .cancel s = .next { s with cancelPending := true, wake := none } := by
  simp [exec, execCancel, hrun, hfault]

theorem exec_cancel_ignored {s : State}
    (h : runInProgress s.sched = false ∨ s.configFault ≠ none) : exec .cancel s = .next s := by
  have hoff : (runInProgress s.sched && s.configFault.isNone) = false := by
    rw [Bool.and_eq_false_iff, Option.isNone_eq_false_iff, Option.isSome_iff_ne_none]
    exact h
  simp [exec, execCancel, hoff]

theorem exec_cancel_again {s : State} (hpending : s.cancelPending = true) (hwake : s.wake = none) :
    exec .cancel s = .next s := by
  have hsame : { s with cancelPending := true, wake := none } = s := by
    rw [← hpending, ← hwake]
  simp only [exec, execCancel, hsame, ite_self]

/-- Settles O32: latched in a run, else ignored; latched again it changes nothing. -/
theorem cancelIsLatchedInARunOnly : Obligations.CancelIsLatchedInARunOnly := by
  refine fun s => ⟨fun hfault hsched => exec_cancel_of_run ?_ hfault, fun h => exec_cancel_ignored ?_,
    exec_cancel_again⟩
  · rcases hsched with hsched | hsched <;> rw [hsched] <;> rfl
  · rcases h with hsched | hsched | hfault
    · exact .inl (by rw [hsched]; rfl)
    · exact .inl (by rw [hsched]; rfl)
    · exact .inr hfault

end Sys2Proof.Laws
end

section
/-! The step at each phase of a run (spec/42_scheduler.md R143 to R156, R164, R168, R197). -/

namespace Sys2Proof.Laws

open Sys2Proof.Machine

/-! ### Which phase a move runs -/

theorem schedulerMove_pInit {s : State} (h : AtPhase .pInit s) : schedulerMove s = phaseInit s := by
  rw [schedulerMove_atPhase h, runPhase, h.phase]

theorem schedulerMove_pFirst {s : State} (h : AtPhase .pFirst s) : schedulerMove s = phaseFirst s := by
  rw [schedulerMove_atPhase h, runPhase, h.phase]

theorem schedulerMove_pTop {s : State} (h : AtPhase .pTop s) : schedulerMove s = phaseTop s := by
  rw [schedulerMove_atPhase h, runPhase, h.phase]

theorem schedulerMove_pCb {s : State} (h : AtPhase .pCb s) : schedulerMove s = phaseCb s := by
  rw [schedulerMove_atPhase h, runPhase, h.phase]

theorem schedulerMove_pPaint {s : State} (h : AtPhase .pPaint s) : schedulerMove s = phasePaint s := by
  rw [schedulerMove_atPhase h, runPhase, h.phase]

theorem schedulerMove_pPace {s : State} (h : AtPhase .pPace s) : schedulerMove s = phasePace s := by
  rw [schedulerMove_atPhase h, runPhase, h.phase]

theorem schedulerMove_pAdv {s : State} (h : AtPhase .pAdv s) : schedulerMove s = phaseAdv s := by
  rw [schedulerMove_atPhase h, runPhase, h.phase]

theorem schedulerMove_pHold {s : State} (h : AtPhase .pHold s) : schedulerMove s = phaseHold s := by
  rw [schedulerMove_atPhase h, runPhase, h.phase]

theorem schedulerMove_pCheck {s : State} (h : AtPhase .pCheck s) : schedulerMove s = phaseCheck s := by
  rw [schedulerMove_atPhase h, runPhase, h.phase]

/-- A phase does not look at the inputs to come. -/
theorem atPhase_withInbox {p : Phase} {s : State} (h : AtPhase p s) (inbox : List Input) :
    AtPhase p { s with inbox := inbox } :=
  ⟨h.noFault, h.notCalling, h.running, h.notWaiting, h.notCancelled, h.phase⟩

/-- An input put first is the one the step takes (log 1). -/
theorem step_cons (e : Input) (rest : List Input) (s : State) :
    step { s with inbox := e :: rest } = takeInput e { s with inbox := rest } := rfl

theorem takeReturn_of_calling {s : State} {inv : Invocation} (hcalling : s.calling = some inv)
    (r : Ret) : takeReturn r s = afterReturn inv.args r (endCall inv.handle r s) := by
  simp only [takeReturn, hcalling]

/-- The return of the invoked function is handled on the state in which the invocation is over (R152). -/
theorem step_ret {s : State} {inv : Invocation} (hcalling : s.calling = some inv) (r : Ret)
    (rest : List Input) :
    step { s with inbox := .ret r :: rest } =
      afterReturn inv.args r (endCall inv.handle r { s with inbox := rest }) :=
  takeReturn_of_calling (s := { s with inbox := rest }) hcalling r

/-! ### The init hook and the first frame (R143, R144) -/

theorem phaseInit_of_none {s : State} (h : s.cfg.initHook = none) :
    phaseInit s = .next { s with phase := .pFirst } := by
  rw [phaseInit, h]

theorem phaseInit_of_some {s : State} {hook : Nat} (h : s.cfg.initHook = some hook) :
    phaseInit s = .next (invoke hook (.init (leds s.cfg)) s) := by
  rw [phaseInit, h]

/-- Under the invariant a frame is sent whole, and it is the pure one (R117, R161). -/
theorem exists_afterFrame_pureFrame {s : State} (h : Inv s) (hfault : s.configFault = none) :
    ∃ f cache, pureFrame s = some f ∧ ∀ go : State → State, afterFrame (emitFrame s) go =
      .next (go { s with cache := cache, trace := s.trace ++ frameWrites s.cfg f }) := by
  obtain ⟨ps, hps, -⟩ := readAll_ord h hfault
  refine ⟨assembleFrame (ps.map (encodePure s.cfg)),
    (encodeAll s.cfg (cacheCapacity s.cfg) ps s.cache).2, by rw [pureFrame, hps]; rfl, fun go => ?_⟩
  rw [emitFrame_of_readAll h hps]
  rfl

/-- Settles O37: the hook's call, its two returns, and the frame that the invariant makes whole. -/
theorem initHookThenTheFirstFrame : Obligations.InitHookThenTheFirstFrame := by
  refine ⟨fun s hat hinbox => ?_, fun s hook n rest hcalling => ?_, fun s h hat hinbox => ?_⟩
  · rw [step_idle_inbox hinbox, schedulerMove_pInit hat]
    exact ⟨phaseInit_of_none, fun _ => phaseInit_of_some⟩
  · exact ⟨step_ret hcalling _ _, step_ret hcalling _ _⟩
  · obtain ⟨f, cache, hframe, hsent⟩ := exists_afterFrame_pureFrame h hat.noFault
    exact ⟨f, _, hframe, ((step_idle_inbox hinbox).trans (schedulerMove_pFirst hat)).trans (hsent _), rfl⟩

/-! ### The deadline test (R145, R156, R199) -/

theorem readForDeadline_of_none {s : State} (h : s.deadline = none) : readForDeadline s = s := by
  rw [readForDeadline, h]

theorem readForDeadline_of_some {s : State} {d : Nat} (h : s.deadline = some d) :
    readForDeadline s = readClock s := by
  rw [readForDeadline, h]

theorem pastDeadline_of_none {s : State} (h : s.deadline = none) : pastDeadline s = false := by
  rw [pastDeadline, h]

theorem pastDeadline_of_some {s : State} {d : Nat} (h : s.deadline = some d) :
    pastDeadline s = decide (d < s.clock) := by
  rw [pastDeadline, h]

/-- The deadline test shared by `P_TOP` and `P_CHECK`: the drain strictly past the deadline, else `go`. -/
def deadlineTest (go : State → State) (s : State) : State :=
  if pastDeadline (readForDeadline s) then drainFor .deadline (readForDeadline s)
  else go (readForDeadline s)

theorem deadlineTest_of_none {s : State} (h : s.deadline = none) (go : State → State) :
    deadlineTest go s = go s := by
  simp [deadlineTest, readForDeadline_of_none h, pastDeadline_of_none h]

theorem deadlineTest_of_past {s : State} {d : Nat} (h : s.deadline = some d)
    (hpast : d < (readClock s).clock) (go : State → State) :
    deadlineTest go s = drainFor .deadline (readClock s) := by
  have hread : (readClock s).deadline = some d := h
  rw [deadlineTest, readForDeadline_of_some h, pastDeadline_of_some hread, if_pos (decide_eq_true hpast)]

theorem deadlineTest_of_notPast {s : State} {d : Nat} (h : s.deadline = some d)
    (hnot : (readClock s).clock ≤ d) (go : State → State) :
    deadlineTest go s = go (readClock s) := by
  have hread : (readClock s).deadline = some d := h
  rw [deadlineTest, readForDeadline_of_some h, pastDeadline_of_some hread,
    if_neg (mt of_decide_eq_true hnot.not_gt)]

theorem phaseTop_eq (s : State) : phaseTop s =
    .next (deadlineTest (fun t => { t with repaint := false, cbi := 0, phase := .pCb }) s) :=
  (apply_ite Host.Outcome.next _ _ _).symm

theorem phaseCheck_of_limit {s : State} {m : Nat} (h : cycleMax s.cfg = some m) (hm : m ≤ s.cycle) :
    phaseCheck s = .next (drainFor .cycleLimit s) := by
  simp [phaseCheck, limitReached, h, hm]

theorem phaseCheck_of_below {s : State} (h : ∀ m, cycleMax s.cfg = some m → s.cycle < m) :
    phaseCheck s = .next (deadlineTest (fun t => { t with phase := .pTop }) s) := by
  have hbelow : limitReached s = false := by
    unfold limitReached
    split
    · next m hm => simpa using h m hm
    · rfl
  simp only [phaseCheck, hbelow]
  exact (apply_ite Host.Outcome.next _ _ _).symm

/-- The test with a deadline set, told by the clock of its result. -/
theorem deadlineTest_cases {s : State} {r : Result} {go : State → State} {d : Nat}
    (hr : r = .next (deadlineTest go s)) (h : s.deadline = some d)
    (hgo : ∀ t, (go t).clock = t.clock ∧ (go t).clockIn = t.clockIn ∧ (go t).draws = t.draws) :
    ∃ t, r = .next t ∧ s.clock ≤ t.clock ∧
      (d < t.clock → t = drainFor .deadline
        { s with clock := t.clock, clockIn := t.clockIn, draws := t.draws }) ∧
      (t.clock ≤ d → t = go { s with clock := t.clock, clockIn := t.clockIn, draws := t.draws }) := by
  have hread : s.clock ≤ (readClock s).clock := Nat.le_add_right _ _
  rcases lt_or_ge d (readClock s).clock with hpast | hnot
  · rw [deadlineTest_of_past h hpast] at hr
    exact ⟨_, hr, hread, fun _ => rfl, fun hle => absurd hpast hle.not_gt⟩
  · rw [deadlineTest_of_notPast h hnot] at hr
    obtain ⟨hclock, hclockIn, hdraws⟩ := hgo (readClock s)
    refine ⟨_, hr, hclock ▸ hread, fun hlt => absurd (hclock ▸ hlt) hnot.not_gt, fun _ => ?_⟩
    rw [hclock, hclockIn, hdraws]
    rfl

/-- Settles O38: `P_TOP` is the deadline test, and no clock is read without a deadline. -/
theorem topOfTickTestsTheDeadline : Obligations.TopOfTickTestsTheDeadline := by
  intro s hat hinbox
  have htest := ((step_idle_inbox hinbox).trans (schedulerMove_pTop hat)).trans (phaseTop_eq s)
  exact ⟨fun hnone => by rw [htest, deadlineTest_of_none hnone],
    fun _ hd => deadlineTest_cases htest hd fun _ => ⟨rfl, rfl, rfl⟩⟩

/-- Settles O44: the limit is tested before the deadline. -/
theorem cycleBoundaryTestsLimitThenDeadline : Obligations.CycleBoundaryTestsLimitThenDeadline := by
  intro s hat hinbox
  have hphase := (step_idle_inbox hinbox).trans (schedulerMove_pCheck hat)
  refine ⟨fun _ hm hle => hphase.trans (phaseCheck_of_limit hm hle), fun hbelow => ?_⟩
  have htest := hphase.trans (phaseCheck_of_below hbelow)
  exact ⟨fun hnone => by rw [htest, deadlineTest_of_none hnone],
    fun _ hd => deadlineTest_cases htest hd fun _ => ⟨rfl, rfl, rfl⟩⟩

/-- Settles O46: outside a wait the clock has reached `T0 + K*TICK`, so any reading is past the deadline. -/
theorem deadlinePassedByTheScheduleDrains : Obligations.DeadlinePassedByTheScheduleDrains := by
  intro s d h hat hinbox hduration hlate
  have hdeadline : s.deadline = some (s.t0 + d) := by
    rw [h.deadlineFixed (by rw [hat.running]; rfl), hduration]
    rfl
  have hreached := h.clockReached hat.running hat.notWaiting hat.notCancelled
  have hpast : s.t0 + d < (readClock s).clock := by
    rw [readClock_clock]
    omega
  rw [step_idle_inbox hinbox, schedulerMove_pTop hat, phaseTop_eq, deadlineTest_of_past hdeadline hpast]
  exact ⟨_, rfl, rfl, rfl, rfl, rfl, rfl, rfl, rfl, rfl⟩

/-! ### The callbacks and the repaint (R146, R147) -/

theorem phaseCb_of_some {s : State} {c : Nat} (h : s.cblist[s.cbi]? = some c) :
    phaseCb s =
      .next (invoke c (.update (leds s.cfg) (stepsPerCycle s.cfg) s.step s.cycle) s) := by
  rw [phaseCb, h]

theorem phaseCb_of_le {s : State} (h : s.cblist.length ≤ s.cbi) :
    phaseCb s = .next { s with phase := .pPaint } := by
  rw [phaseCb, List.getElem?_eq_none h]

/-- Settles O39: the call by the callback list, and the two returns. -/
theorem callbackPhaseCallsAndCollects : Obligations.CallbackPhaseCallsAndCollects := by
  refine ⟨fun s hat hinbox => ?_, fun s c n m st cy rest hcalling => ?_⟩
  · rw [step_idle_inbox hinbox, schedulerMove_pCb hat]
    exact ⟨fun _ => phaseCb_of_some, phaseCb_of_le⟩
  · exact ⟨fun _ => step_ret hcalling _ _, step_ret hcalling _ _⟩

theorem phasePaint_of_not {s : State} (h : s.repaint = false) :
    phasePaint s = .next { s with phase := .pPace } := by
  simp [phasePaint, h]

theorem phasePaint_of_repaint {s : State} (h : s.repaint = true) :
    phasePaint s = afterFrame (emitFrame s) fun t => { t with phase := .pPace } := by
  rw [phasePaint, if_pos h]

/-- Settles O41: without `REPAINT` only the phase moves; with it the invariant makes the frame whole. -/
theorem repaintSendsTheFrameIffRequested : Obligations.RepaintSendsTheFrameIffRequested := by
  intro s h hat hinbox
  rw [step_idle_inbox hinbox, schedulerMove_pPaint hat]
  refine ⟨phasePaint_of_not, fun hrepaint => ?_⟩
  obtain ⟨f, cache, hframe, hsent⟩ := exists_afterFrame_pureFrame h hat.noFault
  exact ⟨f, _, hframe, (phasePaint_of_repaint hrepaint).trans (hsent _), rfl⟩

/-! ### Pacing (R148, R155, R197) -/

theorem paceTo_of_reached (q : Phase) {s : State}
    (h : s.t0 + (s.k + 1) * tickUnits s.cfg ≤ s.clock + clockAdvance s) :
    paceTo q s = readClock { s with k := s.k + 1, phase := q } := if_pos h

theorem paceTo_of_before (q : Phase) {s : State}
    (h : s.clock + clockAdvance s < s.t0 + (s.k + 1) * tickUnits s.cfg) :
    paceTo q s = { readClock { s with k := s.k + 1, phase := q } with
      wake := some (s.t0 + (s.k + 1) * tickUnits s.cfg) } := if_neg h.not_ge

/-- The boundary counted, and a wait for it exactly when the reading is before it. -/
theorem exists_paceTo (q : Phase) {s : State} (hwake : s.wake = none) :
    ∃ t, paceTo q s = t ∧ s.clock ≤ t.clock ∧
      t = { s with
        k := s.k + 1, phase := q, wake := t.wake
        clock := t.clock, clockIn := t.clockIn, draws := t.draws } ∧
      (s.t0 + (s.k + 1) * tickUnits s.cfg ≤ t.clock → t.wake = none) ∧
      (t.clock < s.t0 + (s.k + 1) * tickUnits s.cfg →
        t.wake = some (s.t0 + (s.k + 1) * tickUnits s.cfg)) := by
  rcases le_or_gt (s.t0 + (s.k + 1) * tickUnits s.cfg) (s.clock + clockAdvance s) with hreached | hbefore
  · exact ⟨_, paceTo_of_reached q hreached, Nat.le_add_right _ _, rfl, fun _ => hwake,
      fun hlt => absurd hreached hlt.not_ge⟩
  · exact ⟨_, paceTo_of_before q hbefore, Nat.le_add_right _ _, rfl,
      fun hle => absurd hbefore hle.not_gt, fun _ => rfl⟩

theorem step_pacing {p q : Phase} (hpq : (p = .pPace ∧ q = .pAdv) ∨ (p = .pHold ∧ q = .pCheck))
    {s : State} (hat : AtPhase p s) (hinbox : s.inbox = []) : step s = .next (paceTo q s) := by
  rcases hpq with ⟨rfl, rfl⟩ | ⟨rfl, rfl⟩
  · exact (step_idle_inbox hinbox).trans (schedulerMove_pPace hat)
  · exact (step_idle_inbox hinbox).trans (schedulerMove_pHold hat)

/-- The move that ends a wait (R197, R202). -/
theorem schedulerMove_waiting {s : State} {b : Nat} (hfault : s.configFault = none)
    (hcalling : s.calling = none) (hrun : s.sched = .running) (hpending : s.cancelPending = false)
    (hwake : s.wake = some b) :
    schedulerMove s = .next { passBoundary b s with wake := none } := by
  simp [schedulerMove, runMove, hfault, hcalling, hrun, hpending, hwake]

/-- The clock at the end of a wait (R197). -/
theorem le_passBoundary_clock (b : Nat) (s : State) :
    b ≤ (passBoundary b s).clock ∧ s.clock ≤ (passBoundary b s).clock :=
  ⟨(le_max_right s.clock b).trans (Nat.le_add_right _ _), (passBoundary_onward b s).2⟩

/-- Settles O42: the two pacing phases are `paceTo`; a wait ends by the next move or by `CANCEL`. -/
theorem pacingWaitsForTheBoundary : Obligations.PacingWaitsForTheBoundary := by
  refine ⟨fun s p q hpq hat hinbox => ?_,
    fun s b hfault hcalling hrun hpending hwake => ⟨fun hinbox => ?_, fun rest => ?_⟩⟩
  · obtain ⟨t, ht, hspec⟩ := exists_paceTo q hat.notWaiting
    exact ⟨t, (step_pacing hpq hat hinbox).trans (congrArg _ ht), hspec⟩
  · obtain ⟨hb, hclock⟩ := le_passBoundary_clock b s
    refine ⟨{ passBoundary b s with wake := none }, (step_idle_inbox hinbox).trans ?_, hb, hclock, rfl⟩
    exact schedulerMove_waiting hfault hcalling hrun hpending hwake
  · have hrun' : runInProgress s.sched = true := by rw [hrun]; rfl
    exact exec_cancel_of_run (s := { s with inbox := rest }) hrun' hfault

/-! ### The counters and the cancellation check (R149, R164) -/

theorem phaseAdv_of_lt {s : State} (h : s.step + 1 < stepsPerCycle s.cfg) :
    phaseAdv s = .next { s with step := s.step + 1, phase := .pTop } := if_pos h

theorem phaseAdv_of_le {s : State} (h : stepsPerCycle s.cfg ≤ s.step + 1) :
    phaseAdv s = .next { s with step := 0, cycle := s.cycle + 1, phase := .pHold } := if_neg h.not_gt

/-- Settles O43: with `S = 1` the bound is met by every `STEP`. -/
theorem stepCounterWrapsIntoTheCycleCounter : Obligations.StepCounterWrapsIntoTheCycleCounter := by
  intro s hat hinbox
  rw [step_idle_inbox hinbox, schedulerMove_pAdv hat]
  exact ⟨phaseAdv_of_lt, phaseAdv_of_le, fun hone => phaseAdv_of_le (by omega)⟩

/-- The check fires before a wait's end and before the phase (R164). -/
theorem schedulerMove_cancelled {s : State} (hfault : s.configFault = none)
    (hcalling : s.calling = none) (hrun : s.sched = .running) (hpending : s.cancelPending = true) :
    schedulerMove s = .next (drainCancelled { s with wake := none }) := by
  simp [schedulerMove, runMove, hfault, hcalling, hrun, hpending]

theorem interruptReason_of_stands {r : ExitReason} (h : r ≠ .noReason) : interruptReason r = r := by
  cases r with
  | noReason => exact absurd rfl h
  | cycleLimit | deadline | interrupted | callbackFault => rfl

/-- Settles O45: the check drains with the reason that stands, else with `Interrupted`. -/
theorem pendingCancelStopsEveryPhase : Obligations.PendingCancelStopsEveryPhase := by
  intro s hfault hcalling hrun hpending hwake hinbox
  have hstep : step s = .next (drainFor (interruptReason s.exitReason) s) := by
    rw [step_idle_inbox hinbox, schedulerMove_cancelled hfault hcalling hrun hpending, ← hwake]
    rfl
  rw [hstep]
  refine ⟨fun hreason => ?_, fun hreason => ?_⟩
  · rw [hreason]
    rfl
  · rw [interruptReason_of_stands hreason]
    rfl

end Sys2Proof.Laws
end

section
/-! Runs of several steps, and one tick's callbacks (spec/42_scheduler.md R146, R162). -/

namespace Sys2Proof.Laws

open Sys2Proof.Machine

/-! ### Runs -/

theorem run_succ_of_step {s t : State} (h : step s = .next t) (n : Nat) :
    Host.Core.run core (n + 1) s = Host.Core.run core n t := by
  have hcore : core.step s = .next t := h
  simp only [Host.Core.run, hcore]

/-- One step of the machine. -/
def StepsTo (s t : State) : Prop := step s = .next t

/-- Some number of steps. -/
abbrev RunsTo : State → State → Prop := Relation.ReflTransGen StepsTo

/-- Running on from the state reached. -/
theorem RunsTo.exists_run_add {s t : State} (h : RunsTo s t) (m : Nat) :
    ∃ n, Host.Core.run core n s = Host.Core.run core m t := by
  induction h using Relation.ReflTransGen.head_induction_on with
  | refl => exact ⟨m, rfl⟩
  | head hstep _ ih =>
    obtain ⟨n, hn⟩ := ih
    exact ⟨n + 1, (run_succ_of_step hstep n).trans hn⟩

theorem RunsTo.inv {s t : State} (h : RunsTo s t) (hinv : Inv s) : Inv t := by
  induction h with
  | refl => exact hinv
  | tail _ hstep ih => exact everyStepKeepsTheInvariant _ _ ih hstep

/-! ### The callbacks of one tick (R146, R162) -/

/-- The events of callbacks that were called with the same arguments and answered, in order. -/
def answeredCalls (args : CallArgs) (calls : List (Nat × Bool)) : List Event :=
  calls.flatMap fun hb => [.call hb.1 args, .ret hb.1 (.bool hb.2)]

/-- The inputs of callbacks that return without issuing commands: a move calls, the return answers. -/
def answers (bs : List Bool) : List Input := bs.flatMap fun b => [.pass, .ret (.bool b)]

theorem answers_cons_append (b : Bool) (bs : List Bool) (rest : List Input) :
    answers (b :: bs) ++ rest = .pass :: .ret (.bool b) :: (answers bs ++ rest) := rfl

/-- The call of the next callback and its answer (R146, R152). -/
theorem run_callback {s : State} {c : Nat} {b : Bool} {rest : List Input} (hat : AtPhase .pCb s)
    (hc : s.cblist[s.cbi]? = some c) (hinbox : s.inbox = .pass :: .ret (.bool b) :: rest) (n : Nat) :
    Host.Core.run core (n + 2) s = Host.Core.run core n { s with
      inbox := rest, repaint := (s.repaint || b), cbi := s.cbi + 1
      trace := s.trace ++
        answeredCalls (.update (leds s.cfg) (stepsPerCycle s.cfg) s.step s.cycle) [(c, b)] } := by
  have hcall : step s = .next (invoke c (.update (leds s.cfg) (stepsPerCycle s.cfg) s.step s.cycle)
      { s with inbox := .ret (.bool b) :: rest }) := by
    rw [step_input hinbox, takeInput, schedulerMove_pCb (atPhase_withInbox hat _)]
    exact phaseCb_of_some (s := { s with inbox := .ret (.bool b) :: rest }) hc
  rw [run_succ_of_step hcall, run_succ_of_step (step_ret (s := invoke _ _ s) rfl _ rest), hat.notCalling,
    hat.phase]
  simp [answeredCalls, orRepaint, endCall, emit, invoke]

/-- The callbacks from the next one on, each called and answering (R146, R162). -/
theorem run_callbacks (bs : List Bool) {s : State} {rest : List Input} (hat : AtPhase .pCb s)
    (hlength : s.cbi + bs.length = s.cblist.length)
    (hinbox : s.inbox = answers bs ++ rest) :
    Host.Core.run core (2 * bs.length) s = .next { s with
      inbox := rest, cbi := s.cblist.length, repaint := (s.repaint || bs.any id)
      trace := s.trace ++ answeredCalls (.update (leds s.cfg) (stepsPerCycle s.cfg) s.step s.cycle)
        ((s.cblist.drop s.cbi).zip bs) } := by
  induction bs generalizing s with
  | nil =>
    obtain rfl : s.inbox = rest := hinbox
    rw [← hlength]
    simp [Host.Core.run, answeredCalls]
  | cons b bs ih =>
    rw [List.length_cons] at hlength
    have hlt : s.cbi < s.cblist.length := by omega
    rw [answers_cons_append] at hinbox
    rw [List.length_cons, Nat.mul_succ, run_callback hat (List.getElem?_eq_getElem hlt) hinbox, ih]
    · rw [List.drop_eq_getElem_cons hlt, List.append_assoc, Bool.or_assoc]
      rfl
    · exact ⟨hat.1, hat.2, hat.3, hat.4, hat.5, hat.6⟩
    · change s.cbi + 1 + bs.length = s.cblist.length
      omega
    · rfl

/-- Settles O40, by induction on the callbacks still to call. -/
theorem oneTickCallsEveryCallbackInOrder : Obligations.OneTickCallsEveryCallbackInOrder := by
  intro s bs rest hat hcbi hlength hinbox
  have hrun := run_callbacks bs hat (by omega) hinbox
  rwa [hcbi, List.drop_zero] at hrun

end Sys2Proof.Laws
end

section
/-! The drain: the shutdown hook, the blank frame, the close and the reasons recorded
(spec/42_scheduler.md R157 to R160, R165). -/

namespace Sys2Proof.Laws

open Sys2Proof.Machine

/-! ### Which phase a move drains through -/

theorem schedulerMove_pShut {s : State} (h : AtDrain .pShut s) : schedulerMove s = phaseShut s := by
  rw [schedulerMove_atDrain h, drainPhase, h.phase]

theorem schedulerMove_pClear {s : State} (h : AtDrain .pClear s) : schedulerMove s = phaseClear s := by
  rw [schedulerMove_atDrain h, drainPhase, h.phase]

theorem schedulerMove_pClose {s : State} (h : AtDrain .pClose s) : schedulerMove s = phaseClose s := by
  rw [schedulerMove_atDrain h, drainPhase, h.phase]

/-! ### The shutdown hook (R158) -/

theorem phaseShut_of_none {s : State} (h : s.cfg.shutdownHook = none) :
    phaseShut s = .next { s with phase := .pClear } := by
  rw [phaseShut, h]

theorem phaseShut_of_some {s : State} {hook : Nat} (h : s.cfg.shutdownHook = some hook) :
    phaseShut s = .next (invoke hook (.shutdown (leds s.cfg)) s) := by
  rw [phaseShut, h]

/-- Settles O47: the hook's call, and its two returns, which both lead to `P_CLEAR`. -/
theorem shutdownHookNeverStopsTheCleanup : Obligations.ShutdownHookNeverStopsTheCleanup := by
  refine ⟨fun s hat hinbox => ?_, fun s hook n rest hcalling => ?_⟩
  · rw [step_idle_inbox hinbox, schedulerMove_pShut hat]
    exact ⟨phaseShut_of_none, fun _ => phaseShut_of_some⟩
  · exact ⟨step_ret hcalling _ _, step_ret hcalling _ _⟩

/-! ### The blank frame and the close (R159, R160) -/

theorem blank_eq_replicate {s : State} (h : Inv s) (hfault : s.configFault = none) :
    s.buf.blank = List.replicate (leds s.cfg) Pixel.blackOff := by
  rw [Memory.blank, (wf_iff _ _).1 (h.bufferWhole hfault)]

/-- The frame of the blanked buffer is the frame of `N` black pixels (R113, R117). -/
theorem pureFrame_blank {s : State} (h : Inv { s with buf := s.buf.blank })
    (hfault : s.configFault = none) :
    pureFrame { s with buf := s.buf.blank } = some (blankFrame s.cfg (leds s.cfg)) := by
  obtain ⟨ps, hps, hlength⟩ := readAll_ord h hfault
  have hblack : ps = List.replicate (leds s.cfg) Pixel.blackOff :=
    (readAll_blank hps).trans (congrArg (List.replicate · Pixel.blackOff) hlength)
  rw [pureFrame, hps, hblack, Option.map_some, List.map_replicate]
  rfl

/-- The state `P_CLEAR` leaves (R159). -/
def cleared (s : State) (cache : Cache) : State :=
  { s with
    cache := cache, buf := List.replicate (leds s.cfg) Pixel.blackOff, phase := .pClose
    trace := s.trace ++ frameWrites s.cfg (blankFrame s.cfg (leds s.cfg)) }

theorem exists_phaseClear_eq_cleared {s : State} (h : Inv s) (hfault : s.configFault = none) :
    ∃ cache, phaseClear s = .next (cleared s cache) := by
  have hblank : Inv { s with buf := s.buf.blank } :=
    inv_storage h s.buf.blank s.cache (blank_length _) h.cacheSound h.cacheBounded
  obtain ⟨f, cache, hframe, hsent⟩ := exists_afterFrame_pureFrame hblank hfault
  obtain rfl : f = blankFrame s.cfg (leds s.cfg) :=
    Option.some.inj (hframe.symm.trans (pureFrame_blank hblank hfault))
  refine ⟨cache, (hsent _).trans ?_⟩
  rw [blank_eq_replicate h hfault]
  rfl

theorem step_pClose {s : State} (hat : AtDrain .pClose s) (hinbox : s.inbox = []) :
    step s = .next { s with
      sched := .stopped, closed := true
      trace := s.trace ++ [.txClose, .resp .host (endOfRun s.cancelPending s.firstReason s.exitReason).1
        (endOfRun s.cancelPending s.firstReason s.exitReason).2] } := by
  rw [step_idle_inbox hinbox, schedulerMove_pClose hat]
  simp [phaseClose, emit]

/-- Settles O48: the step of `P_CLEAR` and the step of `P_CLOSE`. -/
theorem drainBlanksClosesAndAnswers : Obligations.DrainBlanksClosesAndAnswers := by
  intro s h hat hinbox
  obtain ⟨cache, hclear⟩ := exists_phaseClear_eq_cleared h hat.noFault
  rw [← schedulerMove_pClear hat, ← step_idle_inbox hinbox] at hclear
  have hclosing : AtDrain .pClose (cleared s cache) :=
    ⟨hat.noFault, hat.notCalling, hat.draining, rfl⟩
  have hclose := step_pClose hclosing hinbox
  exact ⟨_, (run_succ_of_step hclear 1).trans (run_succ_of_step hclose 0), rfl⟩

theorem endOfRun_cancelled (first r : ExitReason) :
    endOfRun true first r = (.interrupted, .exit first) := rfl

theorem endOfRun_fault (first : ExitReason) :
    endOfRun false first .callbackFault = (.callbackFault, .empty) := rfl

theorem endOfRun_ok (first : ExitReason) {r : ExitReason} (h : r = .cycleLimit ∨ r = .deadline) :
    endOfRun false first r = (.ok, .exit r) := by
  rcases h with rfl | rfl <;> rfl

/-! ### The reasons recorded (R165, R180) -/

/-- What a step of the scheduler or a command does to the two reasons: nothing, and it does not enter the
drain; or it records one reason in both; or it begins a run. -/
def ReasonsOrderly (s t : State) : Prop :=
  (t.exitReason = s.exitReason ∧ t.firstReason = s.firstReason ∧
    (s.sched = .running → t.sched ≠ .draining)) ∨
  (s.sched = .running ∧ t.firstReason = t.exitReason) ∨ s.sched = .idle

theorem reasonsOrderly_of_same {s t : State} (hexit : t.exitReason = s.exitReason)
    (hfirst : t.firstReason = s.firstReason) (hsched : t.sched = s.sched) : ReasonsOrderly s t :=
  .inl ⟨hexit, hfirst, fun hrun => by simp [hsched, hrun]⟩

theorem ExecEffect.reasonsOrderly {s t : State} (h : ExecEffect s t) : ReasonsOrderly s t := by
  cases h with
  | answered _ _ ht => exact ht ▸ reasonsOrderly_of_same rfl rfl rfl
  | stored _ _ _ ht => exact ht ▸ reasonsOrderly_of_same rfl rfl rfl
  | encoded _ _ ht => exact ht ▸ reasonsOrderly_of_same rfl rfl rfl
  | rendered _ _ _ _ ht => exact ht ▸ reasonsOrderly_of_same rfl rfl rfl
  | registered _ _ ht => exact ht ▸ reasonsOrderly_of_same rfl rfl rfl
  | started hready _ => exact .inr (.inr (ready_setup_iff.1 hready).2.2)
  | assembled _ ht => exact ht ▸ reasonsOrderly_of_same rfl rfl rfl
  | cancelled _ _ ht => exact ht ▸ reasonsOrderly_of_same rfl rfl rfl
  | ignored ht => exact ht ▸ reasonsOrderly_of_same rfl rfl rfl

theorem RunEffect.reasonsOrderly {s t : State} (h : RunEffect s t) (hrun : s.sched = .running) :
    ReasonsOrderly s t := by
  cases h with
  | called _ _ _ ht => exact ht ▸ reasonsOrderly_of_same rfl rfl rfl
  | advanced v hv _ _ _ _ _ _ _ _ ht =>
    subst ht
    rcases hv with rfl | rfl <;> exact reasonsOrderly_of_same rfl rfl rfl
  | framed v hv _ _ ht => rw [ht, emitFrame_frame hv]; exact reasonsOrderly_of_same rfl rfl rfl
  | paced q _ ht =>
    subst ht
    rcases paceTo_cases q s with ⟨-, ht⟩ | ht <;> rw [ht] <;> exact reasonsOrderly_of_same rfl rfl rfl
  | stopped _ _ _ _ ht => exact ht ▸ .inr (.inl ⟨hrun, rfl⟩)

theorem DrainEffect.reasonsOrderly {s t : State} (h : DrainEffect s t) : ReasonsOrderly s t := by
  cases h with
  | called _ _ _ ht => exact ht ▸ reasonsOrderly_of_same rfl rfl rfl
  | passed ht => exact ht ▸ reasonsOrderly_of_same rfl rfl rfl
  | cleared v hv ht => rw [ht, emitFrame_frame hv]; exact reasonsOrderly_of_same rfl rfl rfl
  | closed _ ht => exact ht ▸ .inl ⟨rfl, rfl, fun _ => nofun⟩

theorem schedulerMove_reasonsOrderly {s t : State} (h : schedulerMove s = .next t) :
    ReasonsOrderly s t := by
  cases schedulerMove_effect h with
  | still ht => exact ht ▸ reasonsOrderly_of_same rfl rfl rfl
  | cancelled _ hrun _ ht => exact ht ▸ .inr (.inl ⟨hrun, rfl⟩)
  | woke _ _ _ _ _ ht => exact ht ▸ reasonsOrderly_of_same rfl rfl rfl
  | ran _ hp h => exact (runPhase_effect h).reasonsOrderly hp.running
  | drained _ _ h => exact (drainPhase_effect h).reasonsOrderly

/-- A fault of the shutdown hook, the one change of `EXIT_REASON` that leaves the first reason (R158). -/
def ShutdownFaulted (r : Ret) (s t : State) : Prop :=
  r = .fault ∧ s.sched = .draining ∧ t.exitReason = .callbackFault ∧ t.firstReason = s.firstReason

theorem takeReturn_reasons {r : Ret} {s t : State} (h : Inv s) (hret : takeReturn r s = .next t) :
    ReasonsOrderly s t ∨ ShutdownFaulted r s t := by
  unfold takeReturn at hret
  split at hret
  · next inv hcalling =>
    have hfits := h.callFits
    simp only [callFits, hcalling] at hfits
    have hrunning := running_of_calling h.callFits hcalling
    unfold afterReturn at hret
    split at hret <;> cases hret
    · exact .inl (reasonsOrderly_of_same rfl rfl rfl)
    · next hargs => exact .inl (.inr (.inl ⟨hrunning (by simp [hargs]), rfl⟩))
    · exact .inl (reasonsOrderly_of_same rfl rfl rfl)
    · next hargs => exact .inl (.inr (.inl ⟨hrunning (by simp [hargs]), rfl⟩))
    · exact .inl (reasonsOrderly_of_same rfl rfl rfl)
    · next hargs =>
      simp only [hargs] at hfits
      exact .inr ⟨rfl, hfits.1, rfl, rfl⟩
  · cases hret

theorem takeWire_effect {e : Encoding} {s t : State} (h : takeWire e s = .next t) : ExecEffect s t := by
  unfold takeWire at h
  split at h
  · cases h
  · cases h
  all_goals
    split at h
    · exact exec_effect h
    · cases h

/-- A step but a reset: orderly, or the fault of the shutdown hook, by the input taken. -/
theorem step_reasons {s t : State} (h : Inv s) (hnoReset : noResetNext s) (hstep : step s = .next t) :
    ReasonsOrderly s t ∨ ∃ r, s.inbox.head? = some (.ret r) ∧ ShutdownFaulted r s t := by
  cases hinbox : s.inbox with
  | nil => exact .inl (schedulerMove_reasonsOrderly (step_idle_inbox hinbox ▸ hstep))
  | cons e rest =>
    rw [step_input hinbox] at hstep
    cases e with
    | host w => exact .inl (takeCommand_effect hstep).reasonsOrderly
    | agent w =>
      simp only [takeInput] at hstep
      split at hstep
      · exact .inl (takeCommand_effect hstep).reasonsOrderly
      · cases hstep
    | ret r =>
      have htaken : Inv { s with inbox := rest } := inv_outside h s.trace s.issuer s.asm rest s.repaint
      exact (takeReturn_reasons htaken hstep).imp id fun hfault => ⟨r, rfl, hfault⟩
    | cancel => exact .inl (exec_effect (i := .cancel) hstep).reasonsOrderly
    | pass => exact .inl (schedulerMove_reasonsOrderly (s := { s with inbox := rest }) hstep)
    | reset c => exact absurd (hnoReset (.reset c) (by simp [hinbox])) nofun
    | wire e => exact .inl (takeWire_effect hstep).reasonsOrderly

/-- Settles O49: the close answers by `endOfRun`; the entry to the drain records one reason in both fields,
and after it only the shutdown hook's fault changes one of them. -/
theorem endOfRunIsAnsweredAfterTheClose : Obligations.EndOfRunIsAnsweredAfterTheClose := by
  refine ⟨fun s hat hinbox => ⟨_, _, step_pClose hat hinbox, fun hpending => ?_,
    fun hpending hreason => ?_, fun hpending hreason => ?_⟩, fun s t h hnoReset hstep => ?_⟩
  · rw [hpending, endOfRun_cancelled]
    exact ⟨rfl, rfl⟩
  · rw [hpending, hreason, endOfRun_fault]
    exact ⟨rfl, rfl⟩
  · rw [hpending, endOfRun_ok s.firstReason hreason]
    exact ⟨rfl, rfl⟩
  · rcases step_reasons h hnoReset hstep with
      (⟨hexit, hfirst, hnot⟩ | ⟨hrun, hsame⟩ | hidle) | ⟨r, hhead, hfault⟩
    · exact ⟨fun hrun hdrain => absurd hdrain (hnot hrun), fun _ => ⟨hfirst, absurd hexit⟩⟩
    · exact ⟨fun _ _ => hsame, by simp [hrun]⟩
    · exact ⟨by simp [hidle], by simp [hidle]⟩
    · obtain ⟨rfl, hdrain, hexit, hfirst⟩ := hfault
      exact ⟨by simp [hdrain], fun _ => ⟨hfirst, fun _ => ⟨hexit, hhead⟩⟩⟩

end Sys2Proof.Laws
end

section
/-! Nothing is sent outside a run (spec/42_scheduler.md R151, R167). -/

namespace Sys2Proof.Laws

open Sys2Proof.Machine

/-- Outside a run the scheduler does not move (R212). -/
theorem schedulerMove_outsideRun {s : State} (hrun : runInProgress s.sched = false) :
    schedulerMove s = .next s := by
  unfold schedulerMove
  split
  · rfl
  · cases hsched : s.sched with
    | idle | stopped => rfl
    | running | draining => simp [hsched, runInProgress] at hrun

theorem stopped_stays {s t : State} (h : Inv s) (hnoReset : noResetNext s) (hstep : step s = .next t)
    (hstopped : s.sched = .stopped) : t.sched = .stopped := by
  rcases schedulerMovesOnlyForward s t h hnoReset hstep with hsame | ⟨hs, -⟩ | ⟨hs, -⟩ | ⟨hs, -⟩
  · exact hsame.trans hstopped
  all_goals simp [hstopped] at hs

/-- Settles O58: outside a run a command, the event and a wire word send nothing, no function is invoked
that could return, and the scheduler does not move. -/
theorem nothingIsSentOutsideARun : Obligations.NothingIsSentOutsideARun := by
  intro s t h hnoReset hstep hrun
  refine ⟨?_, stopped_stays h hnoReset hstep⟩
  cases step_effect hstep with
  | command _ _ _ _ hcmd => exact (takeCommand_effect hcmd).sendsNothing
  | event _ hexec => exact (exec_effect hexec).sendsNothing
  | returned _ inv hcalling _ =>
    have hcalling : s.calling = some inv := hcalling
    have hinRun := calling_inRun h (by simp [hcalling])
    simp [hrun] at hinRun
  | reset c _ hhead _ => exact absurd (hnoReset _ hhead) nofun
  | moved hmove =>
    cases (schedulerMove_outsideRun (s := { s with inbox := s.inbox.tail }) hrun).symm.trans hmove
    exact sendsNothing_of_same rfl

end Sys2Proof.Laws
end

section
/-! A whole run without callbacks, hooks and deadline (spec/42_scheduler.md R163, R166, R167). -/

namespace Sys2Proof.Laws

open Sys2Proof.Machine

/-! ### The state of such a run at a phase -/

/-- At phase `p` of a run with the configuration `c`, without callbacks and deadline, nothing arriving,
the trace so far `tr`, and the counters `STEP`, `CYCLE` and `K` as given. -/
structure Ticking (c : Cfg) (tr : List Event) (p : Phase) (step cycle k : Nat) (s : State) : Prop
    extends AtPhase p s where
  cfg : s.cfg = c
  trace : s.trace = tr
  inbox : s.inbox = []
  cblist : s.cblist = []
  deadline : s.deadline = none
  step : s.step = step
  cycle : s.cycle = cycle
  k : s.k = k

section
variable {c : Cfg} {tr : List Event} {step cycle k : Nat} {s : State}

/-- A wait, if there is one, ends by the next move, which changes nothing else but the clock (log 8). -/
theorem Ticking.endWait {p : Phase} (h : Ticking c tr p step cycle k { s with wake := none }) :
    ∃ t, RunsTo s t ∧ Ticking c tr p step cycle k t := by
  cases hwake : s.wake with
  | none => exact ⟨s, .refl, { h with notWaiting := hwake }⟩
  | some b =>
    have hend : StepsTo s { passBoundary b s with wake := none } :=
      (step_idle_inbox (s := s) h.inbox).trans
        (schedulerMove_waiting h.noFault h.notCalling h.running h.notCancelled hwake)
    exact ⟨_, .single hend, { h with notWaiting := rfl }⟩

/-- A pacing phase counts one boundary and waits for it, if it must (R148, R155, R197). -/
theorem Ticking.pace {p q : Phase} (hpq : (p = .pPace ∧ q = .pAdv) ∨ (p = .pHold ∧ q = .pCheck))
    (h : Ticking c tr p step cycle k s) :
    ∃ t, RunsTo s t ∧ Ticking c tr q step cycle (k + 1) t := by
  have hpaced : StepsTo s (paceTo q s) := step_pacing hpq h.toAtPhase h.inbox
  have hk : s.k + 1 = k + 1 := congrArg (· + 1) h.k
  have hafter : Ticking c tr q step cycle (k + 1) { paceTo q s with wake := none } := by
    rcases paceTo_cases q s with ⟨-, ht⟩ | ht <;> rw [ht] <;>
      exact { h with phase := rfl, k := hk, notWaiting := rfl }
  obtain ⟨t, hrun, ht⟩ := hafter.endWait
  exact ⟨t, .head hpaced hrun, ht⟩

/-- One tick without callbacks asks for no repaint and counts one boundary (R145 to R148). -/
theorem Ticking.tick (h : Ticking c tr .pTop step cycle k s) :
    ∃ t, RunsTo s t ∧ Ticking c tr .pAdv step cycle (k + 1) t := by
  have htop : StepsTo s { s with repaint := false, cbi := 0, phase := .pCb } :=
    (topOfTickTestsTheDeadline s h.toAtPhase h.inbox).1 h.deadline
  have atCb : Ticking c tr .pCb step cycle k { s with repaint := false, cbi := 0, phase := .pCb } :=
    { h with phase := rfl }
  have hcb : StepsTo _ { s with repaint := false, cbi := 0, phase := .pPaint } :=
    (callbackPhaseCallsAndCollects.1 _ atCb.toAtPhase atCb.inbox).2 (by simp [h.cblist])
  have atPaint : Ticking c tr .pPaint step cycle k
      { s with repaint := false, cbi := 0, phase := .pPaint } := { h with phase := rfl }
  have hpaint : StepsTo _ { s with repaint := false, cbi := 0, phase := .pPace } :=
    (step_idle_inbox atPaint.inbox).trans
      ((schedulerMove_pPaint atPaint.toAtPhase).trans (phasePaint_of_not rfl))
  have atPace : Ticking c tr .pPace step cycle k
      { s with repaint := false, cbi := 0, phase := .pPace } := { h with phase := rfl }
  obtain ⟨t, hrun, ht⟩ := atPace.pace (.inl ⟨rfl, rfl⟩)
  exact ⟨t, .head htop (.head hcb (.head hpaint hrun)), ht⟩

/-- A tick within the cycle (R149). -/
theorem Ticking.tickWithin (h : Ticking c tr .pTop step cycle k s)
    (hlt : step + 1 < stepsPerCycle c) :
    ∃ t, RunsTo s t ∧ Ticking c tr .pTop (step + 1) cycle (k + 1) t := by
  obtain ⟨u, hrun, atAdv⟩ := h.tick
  have hadv : StepsTo u { u with step := u.step + 1, phase := .pTop } :=
    (stepCounterWrapsIntoTheCycleCounter u atAdv.toAtPhase atAdv.inbox).1
      (by rwa [atAdv.step, atAdv.cfg])
  exact ⟨_, hrun.tail hadv, { atAdv with phase := rfl, step := congrArg (· + 1) atAdv.step }⟩

/-- The last tick of a cycle, and the hold (R149, R155). -/
theorem Ticking.tickLast (h : Ticking c tr .pTop step cycle k s)
    (hle : stepsPerCycle c ≤ step + 1) :
    ∃ t, RunsTo s t ∧ Ticking c tr .pCheck 0 (cycle + 1) (k + 2) t := by
  obtain ⟨u, hrun, atAdv⟩ := h.tick
  have hadv : StepsTo u { u with step := 0, cycle := u.cycle + 1, phase := .pHold } :=
    (stepCounterWrapsIntoTheCycleCounter u atAdv.toAtPhase atAdv.inbox).2.1
      (by rwa [atAdv.step, atAdv.cfg])
  have atHold : Ticking c tr .pHold 0 (cycle + 1) (k + 1)
      { u with step := 0, cycle := u.cycle + 1, phase := .pHold } :=
    { atAdv with phase := rfl, step := rfl, cycle := congrArg (· + 1) atAdv.cycle }
  obtain ⟨t, hhold, ht⟩ := atHold.pace (.inr ⟨rfl, rfl⟩)
  exact ⟨t, hrun.trans (.head hadv hhold), ht⟩

/-- The rest of a cycle, by induction on the ticks before the last. -/
theorem Ticking.restOfCycle (before : Nat) (h : Ticking c tr .pTop step cycle k s)
    (hsteps : step + before + 1 = stepsPerCycle c) :
    ∃ t, RunsTo s t ∧ Ticking c tr .pCheck 0 (cycle + 1) (k + before + 2) t := by
  induction before generalizing step k s with
  | zero => exact h.tickLast hsteps.ge
  | succ before ih =>
    obtain ⟨u, hfirst, hu⟩ := h.tickWithin (by omega)
    obtain ⟨t, hrest, ht⟩ := ih hu (by omega)
    refine ⟨t, hfirst.trans hrest, ?_⟩
    rwa [Nat.add_right_comm k 1 before] at ht

/-- A whole cycle counts `S + 1` boundaries: one a tick and one for the hold. -/
theorem Ticking.wholeCycle (hpos : 0 < stepsPerCycle c) (h : Ticking c tr .pTop 0 cycle k s) :
    ∃ t, RunsTo s t ∧ Ticking c tr .pCheck 0 (cycle + 1) (k + (stepsPerCycle c + 1)) t := by
  obtain ⟨t, hrun, ht⟩ := h.restOfCycle (stepsPerCycle c - 1) (by omega)
  have hk : k + (stepsPerCycle c - 1) + 2 = k + (stepsPerCycle c + 1) := by omega
  exact ⟨t, hrun, hk ▸ ht⟩

/-- Below the limit the next cycle follows (R156). -/
theorem Ticking.checkBelow {limit : Nat} (h : Ticking c tr .pCheck step cycle k s)
    (hlimit : cycleMax c = some limit) (hlt : cycle < limit) :
    ∃ t, RunsTo s t ∧ Ticking c tr .pTop step cycle k t := by
  have hbelow (m : Nat) (hm : cycleMax s.cfg = some m) : s.cycle < m := by
    rw [h.cfg, hlimit] at hm
    rwa [h.cycle, ← Option.some.inj hm]
  have hcheck : StepsTo s { s with phase := .pTop } :=
    ((cycleBoundaryTestsLimitThenDeadline s h.toAtPhase h.inbox).2 hbelow).1 h.deadline
  exact ⟨_, .single hcheck, { h with phase := rfl }⟩

/-- The cycles up to the limit, by induction on those before the last. -/
theorem Ticking.cyclesToLimit {limit : Nat} (before : Nat) (hpos : 0 < stepsPerCycle c)
    (hlimit : cycleMax c = some limit) (h : Ticking c tr .pTop 0 cycle k s)
    (hcycles : cycle + before + 1 = limit) :
    ∃ t, RunsTo s t ∧
      Ticking c tr .pCheck 0 limit (k + (before + 1) * (stepsPerCycle c + 1)) t := by
  induction before generalizing cycle k s with
  | zero =>
    obtain ⟨t, hrun, ht⟩ := h.wholeCycle hpos
    rw [← hcycles, Nat.zero_add, Nat.one_mul]
    exact ⟨t, hrun, ht⟩
  | succ before ih =>
    obtain ⟨u, hcycle, hu⟩ := h.wholeCycle hpos
    obtain ⟨v, hcheck, hv⟩ := hu.checkBelow hlimit (by omega)
    obtain ⟨t, hrest, ht⟩ := ih hv (by omega)
    refine ⟨t, hcycle.trans (hcheck.trans hrest), ?_⟩
    rwa [Nat.succ_mul, Nat.add_comm (_ * _), ← Nat.add_assoc]

/-- At the limit the run drains, and without a hook the blanking follows (R156, R158). -/
theorem Ticking.checkAtLimit {limit : Nat} (h : Ticking c tr .pCheck step limit k s)
    (hlimit : cycleMax c = some limit) (hhook : c.shutdownHook = none) :
    RunsTo s { drainFor .cycleLimit s with phase := .pClear } := by
  have hcheck : StepsTo s (drainFor .cycleLimit s) :=
    (cycleBoundaryTestsLimitThenDeadline s h.toAtPhase h.inbox).1 limit (by rw [h.cfg, hlimit]) h.cycle.ge
  have hat : AtDrain .pShut (drainFor .cycleLimit s) := ⟨h.noFault, h.notCalling, rfl, rfl⟩
  have hshut : StepsTo (drainFor .cycleLimit s) { drainFor .cycleLimit s with phase := .pClear } :=
    (shutdownHookNeverStopsTheCleanup.1 _ hat h.inbox).1 (by rw [drainFor_cfg, h.cfg, hhook])
  exact .tail (.single hcheck) hshut

end

/-! ### From `START` to the first tick (R142 to R144) -/

theorem takeCommand_of_decode {who : Issuer} {w : CommandWord} {i : Instr} {s : State}
    (hfault : s.configFault = none) (hdecode : decodeCommand w = .ok i) :
    takeCommand who w s = exec i { s with issuer := who } := by
  simp only [takeCommand, hfault, hdecode]

/-- The state in which a `START` of the host is accepted, the only input (R142). -/
def accepted (s : State) : State := acceptStart (readClock { s with inbox := [], issuer := .host })

theorem step_start {s : State} (hfault : s.configFault = none) (hidle : s.sched = .idle)
    (hinbox : s.inbox = [.host 0x110000000000000000000000]) : step s = .next (accepted s) := by
  have hdecode : decodeCommand 0x110000000000000000000000 = .ok .start := by decide
  have hready : Ready .setup { s with inbox := [], issuer := .host } :=
    ready_setup_iff.2 ⟨hfault, rfl, hidle⟩
  rw [step_input hinbox]
  exact (takeCommand_of_decode (s := { s with inbox := [] }) hfault hdecode).trans
    (guarded_ready hready _)

theorem ticking_accepted {s : State} (h : Inv s) (hfault : s.configFault = none)
    (hidle : s.sched = .idle) (hcblist : s.cblist = []) (hduration : durationUnits s.cfg = none) :
    Ticking s.cfg s.trace .pInit 0 0 0 (accepted s) := by
  obtain ⟨hcalling, hwake, hpending⟩ := idle_free h hidle
  exact {
    noFault := hfault, notCalling := hcalling, running := rfl, notWaiting := hwake
    notCancelled := hpending, phase := rfl, cfg := rfl, trace := rfl, inbox := rfl, cblist := hcblist
    deadline := congrArg (Option.map _) hduration, step := rfl, cycle := rfl, k := rfl }

/-- The run begins with the frame of the buffer as it is (R142 to R144). -/
theorem runsTo_firstTick {s : State} (h : Inv s) (hfault : s.configFault = none)
    (hidle : s.sched = .idle) (hcblist : s.cblist = []) (hhook : s.cfg.initHook = none)
    (hduration : durationUnits s.cfg = none)
    (hinbox : s.inbox = [.host 0x110000000000000000000000]) :
    ∃ f t, pureFrame s = some f ∧ RunsTo s t ∧
      Ticking s.cfg (s.trace ++ frameWrites s.cfg f) .pTop 0 0 0 t := by
  have atInit := ticking_accepted h hfault hidle hcblist hduration
  have hinit : StepsTo (accepted s) { accepted s with phase := .pFirst } :=
    (initHookThenTheFirstFrame.1 _ atInit.toAtPhase atInit.inbox).1 hhook
  have hrun : RunsTo s { accepted s with phase := .pFirst } :=
    .tail (.single (step_start hfault hidle hinbox)) hinit
  have atFirst : AtPhase .pFirst { accepted s with phase := .pFirst } :=
    ⟨atInit.noFault, atInit.notCalling, rfl, atInit.notWaiting, atInit.notCancelled, rfl⟩
  obtain ⟨f, cache, hframe, hsent⟩ := exists_afterFrame_pureFrame (hrun.inv h) hfault
  have hfirst := (step_idle_inbox (by exact atInit.inbox)).trans
    ((schedulerMove_pFirst atFirst).trans (hsent _))
  exact ⟨f, _, hframe, hrun.tail hfirst, { atInit with phase := rfl, trace := rfl }⟩

/-- A configuration the model gives a meaning has no cycle limit 0 (R28, R33). -/
theorem cycleMax_pos {c : Cfg} {limit : Nat} (hmeant : configRefused c = false)
    (hlimit : cycleMax c = some limit) : 0 < limit := by
  obtain ⟨l, hl, rfl⟩ := Option.map_eq_some_iff.1 hlimit
  simp only [configRefused, hl, Option.any_some, Bool.or_eq_false_iff, decide_eq_false_iff_not] at hmeant
  omega

/-- Settles O60: the first frame, the cycles up to the limit, the drain, and the two steps of O48. -/
theorem runWithoutCallbacksEndsAtTheCycleLimit :
    Obligations.RunWithoutCallbacksEndsAtTheCycleLimit := by
  intro s limit h hfault hidle hcblist hinit hshutdown hduration hlimit hinbox
  have hpos : 0 < stepsPerCycle s.cfg := Nat.zero_lt_of_lt h.stepBelow
  have hlimitPos : 0 < limit := cycleMax_pos h.configMeant hlimit
  obtain ⟨f, u, hframe, hbegin, hu⟩ :=
    runsTo_firstTick h hfault hidle hcblist hinit hduration hinbox
  obtain ⟨v, hcycles, hv⟩ := hu.cyclesToLimit (limit - 1) hpos hlimit (by omega)
  have hdrain : RunsTo s { drainFor .cycleLimit v with phase := .pClear } :=
    hbegin.trans (hcycles.trans (hv.checkAtLimit hlimit hshutdown))
  have atClear : AtDrain .pClear { drainFor .cycleLimit v with phase := .pClear } :=
    ⟨hv.noFault, hv.notCalling, rfl, rfl⟩
  obtain ⟨t, hend, ht⟩ := drainBlanksClosesAndAnswers _ (hdrain.inv h) atClear hv.inbox
  obtain ⟨n, hrun⟩ := hdrain.exists_run_add 2
  have hk : v.k = limit * stepsPerCycle s.cfg + limit := by
    rw [hv.k, Nat.zero_add, Nat.sub_add_cancel hlimitPos, Nat.mul_succ]
  refine ⟨n, f, t, hframe, hrun.trans hend, ?_⟩
  rw [ht]
  refine ⟨rfl, rfl, hv.cycle, hv.step, hk, ?_, ?_⟩
  · simp only [drainFor_cfg, hv.cfg]
  · simp only [drainFor_cfg, drainFor_trace, drainFor_cancelPending, drainFor_firstReason,
      drainFor_exitReason, hv.cfg, hv.trace, hv.notCancelled]
    rfl

end Sys2Proof.Laws
end

section
/-! No step from a state of the invariant ends in a fault (spec/60_exceptions.md R189, log 19). -/

namespace Sys2Proof.Laws

open Sys2Proof.Machine

/-- The result is a next state or a refusal. -/
def NeverFaults (r : Result) : Prop := ∀ f, r ≠ .fault f

theorem neverFaults_next (t : State) : NeverFaults (.next t) := fun _ => nofun

theorem neverFaults_refused (r : Refusal) : NeverFaults (.refused r) := fun _ => nofun

/-! ### The instructions -/

/-- The checks before a command raise errors, which are answers (R181), so only its body could fault. -/
theorem neverFaults_guarded {cls : CommandClass} {s : State} {body : Result}
    (hbody : Ready cls s → NeverFaults body) : NeverFaults (guarded cls s body) := by
  rcases guarded_cases cls s body with ⟨e, -, heq⟩ | ⟨-, -, heq⟩ | ⟨hready, heq⟩
  · exact heq ▸ neverFaults_next _
  · exact heq ▸ neverFaults_next _
  · rw [heq]
    exact hbody hready

theorem neverFaults_storePixel (i : Nat) (p : Pixel) (s : State) : NeverFaults (storePixel i p s) := by
  rcases storePixel_cases i p s with ⟨-, heq⟩ | ⟨-, heq⟩ <;> exact heq ▸ neverFaults_next _

/-- The slot a ready `GET` reads exists, as `BUF` has N slots (R14, R112). -/
theorem neverFaults_execGet {s : State} (h : Inv s) (i : Nat) : NeverFaults (execGet i s) := by
  refine neverFaults_guarded fun hready => ?_
  rcases lt_or_ge i (leds s.cfg) with hi | hi
  · rw [if_pos hi, read_of_lt ((wf_iff _ _).1 (h.bufferWhole hready.1) ▸ hi)]
    exact neverFaults_next _
  · rw [if_neg hi.not_gt]
    exact neverFaults_next _

/-- Every slot a ready `RENDER` reads exists, as `ORD` names slots of `BUF` only (R16, R116). -/
theorem neverFaults_execRender {s : State} (h : Inv s) : NeverFaults (execRender s) := by
  refine neverFaults_guarded fun hready => ?_
  obtain ⟨ps, hps, -⟩ := readAll_ord h hready.1
  rw [renderChunks_of_sound h.cacheSound, hps]
  exact neverFaults_next _

theorem neverFaults_execCancel (s : State) : NeverFaults (execCancel s) := by
  unfold execCancel
  split <;> exact neverFaults_next _

theorem neverFaults_exec {s : State} (h : Inv s) (i : Instr) : NeverFaults (exec i s) := by
  cases i with
  | set i r g b br => exact neverFaults_guarded fun _ => neverFaults_storePixel _ _ _
  | setrgb i x c br =>
    refine neverFaults_guarded fun _ => ?_
    split
    · exact neverFaults_next _
    · exact neverFaults_storePixel _ _ _
  | get i => exact neverFaults_execGet h i
  | render => exact neverFaults_execRender h
  | blank | rotate _ | order | encode _ _ _ _ | regcb _ | start =>
    exact neverFaults_guarded fun _ => neverFaults_next _
  | startFrame | ledCmd _ _ _ _ | endPad => exact neverFaults_next _
  | cancel => exact neverFaults_execCancel s

/-! ### The scheduler -/

/-- Every slot a frame of the scheduler reads exists (R47). -/
theorem neverFaults_afterFrame {s : State} (h : Inv s) (hfault : s.configFault = none)
    (go : State → State) : NeverFaults (afterFrame (emitFrame s) go) := by
  obtain ⟨f, cache, -, hsent⟩ := exists_afterFrame_pureFrame h hfault
  exact hsent go ▸ neverFaults_next _

theorem neverFaults_phaseInit (s : State) : NeverFaults (phaseInit s) := by
  unfold phaseInit
  split <;> exact neverFaults_next _

theorem neverFaults_phaseCb (s : State) : NeverFaults (phaseCb s) := by
  unfold phaseCb
  split <;> exact neverFaults_next _

theorem neverFaults_phasePaint {s : State} (h : Inv s) (hfault : s.configFault = none) :
    NeverFaults (phasePaint s) := by
  unfold phasePaint
  split
  · exact neverFaults_afterFrame h hfault _
  · exact neverFaults_next _

theorem neverFaults_phaseAdv (s : State) : NeverFaults (phaseAdv s) := by
  unfold phaseAdv
  split <;> exact neverFaults_next _

theorem neverFaults_phaseCheck (s : State) : NeverFaults (phaseCheck s) := by
  simp only [phaseCheck]
  split
  · exact neverFaults_next _
  · split <;> exact neverFaults_next _

theorem neverFaults_phaseShut (s : State) : NeverFaults (phaseShut s) := by
  unfold phaseShut
  split <;> exact neverFaults_next _

/-- In `Running` the phase is one of the nine of `Running` (R34). -/
theorem neverFaults_runPhase {s : State} (h : Inv s) (hfault : s.configFault = none)
    (hrun : s.sched = .running) : NeverFaults (runPhase s) := by
  have hfits : phaseOf s.phase = .running := (h.phaseFits (by rw [hrun]; rfl)).trans hrun
  unfold runPhase
  cases hphase : s.phase with
  | pInit => exact neverFaults_phaseInit s
  | pFirst => exact neverFaults_afterFrame h hfault _
  | pTop => exact phaseTop_eq s ▸ neverFaults_next _
  | pCb => exact neverFaults_phaseCb s
  | pPaint => exact neverFaults_phasePaint h hfault
  | pPace | pHold => exact neverFaults_next _
  | pAdv => exact neverFaults_phaseAdv s
  | pCheck => exact neverFaults_phaseCheck s
  | pShut | pClear | pClose =>
    rw [hphase] at hfits
    cases hfits

/-- In `Draining` the phase is one of the three of `Draining` (R34). -/
theorem neverFaults_drainPhase {s : State} (h : Inv s) (hfault : s.configFault = none)
    (hdrain : s.sched = .draining) : NeverFaults (drainPhase s) := by
  have hfits : phaseOf s.phase = .draining := (h.phaseFits (by rw [hdrain]; rfl)).trans hdrain
  unfold drainPhase
  cases hphase : s.phase with
  | pShut => exact neverFaults_phaseShut s
  | pClear =>
    obtain ⟨cache, hclear⟩ := exists_phaseClear_eq_cleared h hfault
    exact hclear ▸ neverFaults_next _
  | pClose => exact neverFaults_next _
  | pInit | pFirst | pTop | pCb | pPaint | pPace | pAdv | pHold | pCheck =>
    rw [hphase] at hfits
    cases hfits

theorem neverFaults_runMove {s : State} (h : Inv s) (hfault : s.configFault = none)
    (hrun : s.sched = .running) : NeverFaults (runMove s) := by
  unfold runMove
  split
  · exact neverFaults_next _
  · split
    · exact neverFaults_next _
    · exact neverFaults_runPhase h hfault hrun

theorem neverFaults_schedulerMove {s : State} (h : Inv s) : NeverFaults (schedulerMove s) := by
  unfold schedulerMove
  split
  · exact neverFaults_next _
  · next hfree =>
    have hfault : s.configFault = none := by
      rw [Bool.or_eq_true, not_or] at hfree
      exact Option.not_isSome_iff_eq_none.1 hfree.2
    cases hsched : s.sched with
    | idle | stopped => exact neverFaults_next _
    | running => exact neverFaults_runMove h hfault hsched
    | draining => exact neverFaults_drainPhase h hfault hsched

/-! ### The inputs -/

theorem neverFaults_takeCommand {s : State} (h : Inv s) (who : Issuer) (w : CommandWord) :
    NeverFaults (takeCommand who w s) := by
  have hissued : Inv { s with issuer := who } := inv_outside h s.trace who s.asm s.inbox s.repaint
  simp only [takeCommand]
  split
  · exact neverFaults_next _
  · split
    · exact neverFaults_exec hissued _
    · exact neverFaults_next _

/-- A result that the invoked function's kind has leads on, any other is refused (R82, log 16). -/
theorem neverFaults_afterReturn (args : CallArgs) (r : Ret) (s : State) :
    NeverFaults (afterReturn args r s) := by
  cases args <;> cases r <;> exact fun _ => nofun

theorem neverFaults_takeReturn (r : Ret) (s : State) : NeverFaults (takeReturn r s) := by
  unfold takeReturn
  split
  · exact neverFaults_afterReturn _ _ _
  · exact neverFaults_refused _

theorem neverFaults_takeWire {s : State} (h : Inv s) (e : Encoding) : NeverFaults (takeWire e s) := by
  cases e with
  | command w | event => exact neverFaults_refused _
  | wireQuad w | wireByte w =>
    simp only [takeWire]
    split
    · exact neverFaults_exec h _
    · exact neverFaults_refused _

theorem neverFaults_takeInput {s : State} (h : Inv s) (e : Input) : NeverFaults (takeInput e s) := by
  cases e with
  | host w => exact neverFaults_takeCommand h .host w
  | agent w =>
    simp only [takeInput]
    split
    · exact neverFaults_takeCommand h .agent w
    · exact neverFaults_refused _
  | ret r => exact neverFaults_takeReturn r s
  | cancel => exact neverFaults_exec h .cancel
  | pass => exact neverFaults_schedulerMove h
  | reset c =>
    simp only [takeInput]
    split
    · exact neverFaults_refused _
    · exact neverFaults_next _
  | wire e => exact neverFaults_takeWire h e

/-- Settles O52: an input or a move faults only at a slot or a phase that the invariant rules out. -/
theorem invariantRulesOutEveryFault : Obligations.InvariantRulesOutEveryFault := by
  intro s f h
  cases hinbox : s.inbox with
  | nil =>
    rw [step_idle_inbox hinbox]
    exact neverFaults_schedulerMove h f
  | cons e rest =>
    rw [step_input hinbox]
    exact neverFaults_takeInput (inv_outside h s.trace s.issuer s.asm rest s.repaint) e f

end Sys2Proof.Laws
end

section
/-! Who may command when, the order of the checks, and what a step takes (spec/60_exceptions.md R186, R191,
spec/30_encoding.md R61, R69). -/

namespace Sys2Proof.Laws

open Sys2Proof.Machine

/-! ### Who may issue which command when (R186) -/

theorem runInProgress_iff {s : Sched} : runInProgress s = true ↔ s = .running ∨ s = .draining := by
  cases s <;> simp [runInProgress]

theorem runInProgress_eq_false_iff {s : Sched} : runInProgress s = false ↔ s = .idle ∨ s = .stopped := by
  cases s <;> simp [runInProgress]

/-- The table of R186, cell by cell: the class of the command against its issuer. -/
theorem mayIssue_iff (cls : CommandClass) (s : State) : mayIssue cls s = true ↔
    (s.issuer = .host ∧ s.sched = .idle) ∨
    (s.issuer = .host ∧ s.sched = .stopped ∧ cls = .buffer) ∨
    (s.issuer = .agent ∧ (s.sched = .running ∨ s.sched = .draining) ∧ s.calling ≠ none ∧
      cls = .buffer) := by
  cases cls with
  | setup => cases hwho : s.issuer <;> simp [mayIssue, hwho]
  | buffer =>
    cases hwho : s.issuer with
    | host => simp [mayIssue, hwho, runInProgress_eq_false_iff]
    | agent => simp [mayIssue, hwho, runInProgress_iff, Option.isSome_iff_ne_none]

/-- Every command is a body behind the checks of its class. -/
theorem exists_exec_eq_guarded {i : Instr} {cls : CommandClass} (hi : i.commandClass = some cls)
    (s : State) : ∃ body, exec i s = guarded cls s body := by
  cases i with
  | set _ _ _ _ _ | setrgb _ _ _ _ | get _ | blank | rotate _ | order | render | encode _ _ _ _
  | regcb _ | start =>
    cases hi
    exact ⟨_, rfl⟩
  | startFrame | ledCmd _ _ _ _ | endPad | cancel => cases hi

theorem exec_of_not_mayIssue {i : Instr} {cls : CommandClass} {s : State} (hfault : s.configFault = none)
    (hi : i.commandClass = some cls) (hmay : mayIssue cls s = false) : exec i s =
      .next { s with trace := s.trace ++ [.resp s.issuer .illegalState (.sched s.sched)] } := by
  obtain ⟨body, hexec⟩ := exists_exec_eq_guarded hi s
  rw [hexec, guarded_illegal hfault hmay]
  rfl

/-- Settles O35: the table's cells, and the checks that every command of a class has before its body. -/
theorem onlyTheTablesIssuersMayCommand : Obligations.OnlyTheTablesIssuersMayCommand :=
  ⟨mayIssue_iff, fun _ _ _ => exec_of_not_mayIssue⟩

/-! ### The order of the checks (R191) -/

/-- In configuration fault every word is answered alike, legal or not (R191, R213). -/
theorem takeCommand_of_configFault {s : State} {e : ConfigError} (hfault : s.configFault = some e)
    (who : Issuer) (w : CommandWord) : takeCommand who w s = .next { s with
      issuer := who, trace := s.trace ++ [.resp who .configurationError (.config e)] } := by
  simp [takeCommand, hfault, CommandError.status, CommandError.info]

theorem takeCommand_of_error {who : Issuer} {w : CommandWord} {d : DecodeError} {s : State}
    (hfault : s.configFault = none) (hdecode : decodeCommand w = .error d) :
    takeCommand who w s = .next { s with
      issuer := who, trace := s.trace ++ [.resp who .illegalCommand (.command w)] } :=
  takeCommand_of_not_decodes hfault fun ⟨_, hok⟩ => nomatch hdecode.symm.trans hok

/-- The three commands with an index outside [0,N), their colour in order (R110 to R112). -/
theorem exec_index_outside {i : Nat} {j : Instr} {s : State} (hready : Ready .buffer s)
    (hi : leds s.cfg ≤ i)
    (hj : j = .get i ∨ (∃ r g b br, j = .set i r g b br) ∨ ∃ c br, j = .setrgb i 0 c br) :
    exec j s = .next { s with trace := s.trace ++ [.resp s.issuer .indexError (.index i)] } := by
  rcases hj with rfl | ⟨r, g, b, br, rfl⟩ | ⟨c, br, rfl⟩
  · exact exec_get_of_le hready hi
  · exact (exec_set_of_ready i r g b br hready).trans (storePixel_of_le _ hi)
  · exact (exec_setrgb_of_fits i c br hready).trans (storePixel_of_le _ hi)

theorem configError_of_ledCount {c : Cfg} (hn : c.n ≤ 0) : configError c = some .ledCount := if_pos hn

theorem configError_of_wire {c : Cfg} (hn : 0 < c.n) (hwire : wireBijective c.wire = false) :
    configError c = some .colorOrder := (if_neg hn.not_ge).trans (if_pos hwire)

/-- Settles O34: each error is answered with the checks before it passed. -/
theorem checksInOrderOfPriority : Obligations.ChecksInOrderOfPriority := by
  refine ⟨fun who w s => ⟨fun e hfault => takeCommand_of_configFault hfault who w,
    fun d => takeCommand_of_error, fun i cls hfault hdecode hi hmay => ?_,
    fun i x c br hdecode hready hx => ?_, fun i hdecode hready hi => ?_⟩,
    fun c => ⟨configError_of_ledCount, configError_of_wire, configError_eq_orderError⟩⟩
  · exact (takeCommand_of_decode hfault hdecode).trans
      (exec_of_not_mayIssue (s := { s with issuer := who }) hfault hi hmay)
  · exact (takeCommand_of_decode hready.1 hdecode).trans (exec_setrgb_of_malformed i c br hready hx)
  · obtain ⟨j, hdecode, hj⟩ : ∃ j, decodeCommand w = .ok j ∧
        (j = .get i ∨ (∃ r g b br, j = .set i r g b br) ∨ ∃ c br, j = .setrgb i 0 c br) := by
      rcases hdecode with hget | ⟨r, g, b, br, hset⟩ | ⟨c, br, hsetrgb⟩
      · exact ⟨_, hget, .inl rfl⟩
      · exact ⟨_, hset, .inr (.inl ⟨r, g, b, br, rfl⟩)⟩
      · exact ⟨_, hsetrgb, .inr (.inr ⟨c, br, rfl⟩)⟩
    exact (takeCommand_of_decode hready.1 hdecode).trans (exec_index_outside hready hi hj)

/-! ### The input a step takes (R61, R69, log 1, log 10, log 18) -/

theorem takeInput_agent_of_calling {s : State} (hcalling : s.calling ≠ none) (w : CommandWord) :
    takeInput (.agent w) s = takeCommand .agent w s := if_pos (Option.isSome_iff_ne_none.2 hcalling)

theorem takeWire_of_decodeWireQuad {w : Word32} {i : Instr} (h : decodeWireQuad w = .ok i) (s : State) :
    takeWire (.wireQuad w) s = exec i s := by
  simp only [takeWire, h]

theorem takeWire_of_decodeWireByte {w : Byte} {i : Instr} (h : decodeWireByte w = .ok i) (s : State) :
    takeWire (.wireByte w) s = exec i s := by
  simp only [takeWire, h]

/-- The word placed for the next step is the one it takes. -/
theorem step_withFetchWord (s : State) (nbits w : Nat) :
    step (s.withFetchWord nbits w) = takeInput (presented s (tableEncoding nbits w)) s := rfl

theorem tableEncoding_command (w : CommandWord) : tableEncoding 96 w.toNat = .command w := by
  simp [tableEncoding]

theorem tableEncoding_wireQuad (w : Word32) : tableEncoding 32 w.toNat = .wireQuad w := by
  simp [tableEncoding]

theorem tableEncoding_wireByte (w : Byte) : tableEncoding 8 w.toNat = .wireByte w := by
  simp [tableEncoding]

/-- During an invocation the invoked function holds the port (R186). -/
theorem presented_command_of_calling {s : State} (hcalling : s.calling ≠ none) (w : CommandWord) :
    presented s (.command w) = .agent w := if_pos (Option.isSome_iff_ne_none.2 hcalling)

theorem presented_command_of_not_calling {s : State} (hcalling : s.calling = none) (w : CommandWord) :
    presented s (.command w) = .host w := by
  simp [presented, hcalling]

/-- A command word of the host or of the function being invoked runs what it decodes to, its issuer
noted. -/
theorem takeInput_command {s : State} {w : CommandWord} {i : Instr} (hfault : s.configFault = none)
    (hdecode : decodeCommand w = .ok i) :
    takeInput (.host w) s = exec i { s with issuer := .host } ∧
    (s.calling ≠ none → takeInput (.agent w) s = exec i { s with issuer := .agent }) :=
  ⟨takeCommand_of_decode hfault hdecode, fun hcalling =>
    (takeInput_agent_of_calling hcalling w).trans (takeCommand_of_decode hfault hdecode)⟩

theorem step_withFetchWord_command {s : State} {w : CommandWord} {i : Instr}
    (hfault : s.configFault = none) (hdecode : decodeCommand w = .ok i) :
    (s.calling = none → step (s.withFetchWord 96 w.toNat) = exec i { s with issuer := .host }) ∧
    (s.calling ≠ none → step (s.withFetchWord 96 w.toNat) = exec i { s with issuer := .agent }) := by
  obtain ⟨hhost, hagent⟩ := takeInput_command hfault hdecode
  rw [step_withFetchWord, tableEncoding_command]
  refine ⟨fun hcalling => ?_, fun hcalling => ?_⟩
  · rw [presented_command_of_not_calling hcalling, hhost]
  · rw [presented_command_of_calling hcalling, hagent hcalling]

theorem step_withFetchWord_wireQuad {w : Word32} {i : Instr} (h : decodeWireQuad w = .ok i) (s : State) :
    step (s.withFetchWord 32 w.toNat) = exec i s := by
  rw [step_withFetchWord, tableEncoding_wireQuad]
  exact takeWire_of_decodeWireQuad h s

theorem step_withFetchWord_wireByte {w : Byte} {i : Instr} (h : decodeWireByte w = .ok i) (s : State) :
    step (s.withFetchWord 8 w.toNat) = exec i s := by
  rw [step_withFetchWord, tableEncoding_wireByte]
  exact takeWire_of_decodeWireByte h s

/-- Settles O36: by kind of input, put first or placed. -/
theorem stepRunsTheDecodedInstruction : Obligations.StepRunsTheDecodedInstruction := by
  refine fun s rest => ⟨fun w i hfault hdecode => ?_, step_cons _ _ _, step_withFetchWord _ _ _,
    fun w i h => ⟨takeWire_of_decodeWireQuad h _, step_withFetchWord_wireQuad h s⟩,
    fun w i h => ⟨takeWire_of_decodeWireByte h _, step_withFetchWord_wireByte h s⟩⟩
  obtain ⟨hhost, hagent⟩ := takeInput_command (s := { s with inbox := rest }) hfault hdecode
  exact ⟨hhost, hagent, step_withFetchWord_command hfault hdecode⟩

end Sys2Proof.Laws
end

section
/-! Reset and configuration fault (spec/70_reset_and_hazards.md R210 to R213). -/

namespace Sys2Proof.Laws

open Sys2Proof.Machine

/-! ### What a reset leaves (R211) -/

/-- A reset the model accepts builds the block anew, in whatever state it comes (R210). -/
theorem step_reset {c : Cfg} (hc : configRefused c = false) (rest : List Input) (s : State) :
    step { s with inbox := .reset c :: rest } = .next ({ s with inbox := rest }.reconstruct c) := by
  rw [step_cons]
  simp [takeInput, hc]

/-- The buffer and the order have their values only when reset finds no fault (R211, log 6). -/
theorem reconstruct_storage {c : Cfg} (hfault : configError c = none) (s : State) :
    (s.reconstruct c).buf = List.replicate (leds c) c.resetPixel ∧
      (s.reconstruct c).ord = orderTable c := by
  simp [State.reconstruct, State.construct, hfault]

/-- A state just constructed is what a reset makes of it. -/
theorem reconstruct_construct (c : Cfg) : (State.construct c).reconstruct c = State.construct c := rfl

theorem inv_construct {c : Cfg} (hc : configRefused c = false) : Inv (State.construct c) :=
  reconstruct_construct c ▸ inv_reconstruct hc (State.construct c)

/-- Settles O50: a reset of the constructed state, whose invariant every accepted reset meets. -/
theorem resetMeetsTheInvariant : Obligations.ResetMeetsTheInvariant :=
  ⟨fun _ => inv_construct, inv_construct (by decide)⟩

/-- Settles O22: the state a reset builds, field by field; the buffer and the order where there is no fault. -/
theorem resetValues : Obligations.ResetValues := by
  intro c rest s hc
  refine ⟨_, step_reset hc rest s, rfl, rfl, fun hfault => reconstruct_storage hfault _, ?_⟩
  and_intros <;> rfl

/-! ### Configuration fault (R213) -/

theorem schedulerMove_of_configFault {s : State} {e : ConfigError} (hfault : s.configFault = some e) :
    schedulerMove s = .next s := by
  simp [schedulerMove, hfault]

/-- Settles O59, by the input that arrives: a word, none, a `pass`, `CANCEL` and a reset. -/
theorem configurationFaultOnlyAnswers : Obligations.ConfigurationFaultOnlyAnswers := by
  intro s e rest hfault
  refine ⟨fun w => ?_, ?_, ?_, ?_, fun c hc hlegal => ?_⟩
  · exact takeCommand_of_configFault (s := { s with inbox := rest }) hfault .host w
  · exact schedulerMove_of_configFault (s := { s with inbox := [] }) hfault
  · exact schedulerMove_of_configFault (s := { s with inbox := rest }) hfault
  · have hignored : s.configFault ≠ none := by simp [hfault]
    exact exec_cancel_ignored (s := { s with inbox := rest }) (.inr hignored)
  · exact ⟨_, step_reset hc rest s, hlegal⟩

end Sys2Proof.Laws
end
